-- ==== Sys2Proof/Word.lean ====
section
/-! DEFINITION. The widths of the machine: words, halfwords and bytes (spec 00_scope.md R6, 20_memory.md R62). -/

namespace Sys2Proof

/-- A 32-bit value: a register, an address, an ARM instruction (R6). -/
abbrev Word := BitVec 32

/-- A 16-bit value: a halfword of data or a Thumb instruction (R62, R90). -/
abbrev Half := BitVec 16

/-- An 8-bit value, the unit of memory (R60). -/
abbrev Byte := BitVec 8

end Sys2Proof
end

