-- ==== Sys2Proof/Syntax.lean ====
section
/-! DEFINITION. The instructions: one constructor per row of spec/opcode_table.json (22 ARM, 6 Thumb), with the
operands the row's fields hold. -/

namespace Sys2Proof

/-- A register number, 0 to 15 (10_state.md R23). Which physical register it names depends on the mode (R31). -/
inductive RegNum where
  | r0 | r1 | r2 | r3 | r4 | r5 | r6 | r7 | r8 | r9 | r10 | r11 | r12 | r13 | r14 | r15
  deriving DecidableEq, Repr

/-- The conditions of R92; the value 0b1111 (NV) is none of them (R103). -/
inductive Cond where
  | eq | ne | cs | cc | mi | pl | vs | vc | hi | ls | ge | lt | gt | le | al
  deriving DecidableEq, Repr

/-- The field R of MRS and MSR: the CPSR (0) or the current mode's SPSR (1), R94. -/
inductive PsrSel where
  | cpsr | spsr
  deriving DecidableEq, Repr

/-- The field U of a load or store: the offset is added (1) or subtracted (0), R97. -/
inductive Dir where
  | up | down
  deriving DecidableEq, Repr

/-- The admitted instructions (R4). Field names are the table's: `s` is the S bit, `rot` and `imm8` the rotated
immediate, `imm12` and `immH`, `immL` the load/store offsets, `fmask` the PSR field mask. -/
inductive Instr where
  -- ARM state
  | bx (c : Cond) (rm : RegNum)
  | mrs (c : Cond) (r : PsrSel) (rd : RegNum)
  | msrReg (c : Cond) (r : PsrSel) (fmask : BitVec 4) (rm : RegNum)
  | msrImm (c : Cond) (r : PsrSel) (fmask : BitVec 4) (rot : BitVec 4) (imm8 : BitVec 8)
  | ldrh (c : Cond) (u : Dir) (rn rd : RegNum) (immH immL : BitVec 4)
  | strh (c : Cond) (u : Dir) (rn rd : RegNum) (immH immL : BitVec 4)
  | subImm (c : Cond) (s : Bool) (rn rd : RegNum) (rot : BitVec 4) (imm8 : BitVec 8)
  | subReg (c : Cond) (s : Bool) (rn rd rm : RegNum)
  | movImm (c : Cond) (s : Bool) (rd : RegNum) (rot : BitVec 4) (imm8 : BitVec 8)
  | movReg (c : Cond) (s : Bool) (rd rm : RegNum)
  | cmpImm (c : Cond) (rn : RegNum) (rot : BitVec 4) (imm8 : BitVec 8)
  | cmpReg (c : Cond) (rn rm : RegNum)
  | cmnImm (c : Cond) (rn : RegNum) (rot : BitVec 4) (imm8 : BitVec 8)
  | cmnReg (c : Cond) (rn rm : RegNum)
  | ldr (c : Cond) (u : Dir) (rn rd : RegNum) (imm12 : BitVec 12)
  | str (c : Cond) (u : Dir) (rn rd : RegNum) (imm12 : BitVec 12)
  | ldrb (c : Cond) (u : Dir) (rn rd : RegNum) (imm12 : BitVec 12)
  | strb (c : Cond) (u : Dir) (rn rd : RegNum) (imm12 : BitVec 12)
  /-- The undefined-instruction space (R102): bits 24:5 and 3:0 may be anything. -/
  | und (c : Cond) (high : BitVec 20) (low : BitVec 4)
  | b (c : Cond) (imm24 : BitVec 24)
  | bl (c : Cond) (imm24 : BitVec 24)
  | swi (c : Cond) (comment : BitVec 24)
  -- Thumb state
  | tSwi (value8 : BitVec 8)
  | tBcond (c : Cond) (soff8 : BitVec 8)
  | tBx (rm : RegNum)
  | tB (off11 : BitVec 11)
  | tBlPrefix (off11 : BitVec 11)
  | tBlSuffix (off11 : BitVec 11)
  deriving DecidableEq, Repr

end Sys2Proof
end

