-- ==== Sys2Proof/WellFormed.lean ====
section
/-! DEFINITION. Which terms of Instr are instructions. Every field has the exact width of its encoding and a
condition is one of the fifteen, so one check is left: a Thumb conditional branch has no condition AL. -/

namespace Sys2Proof

/-- The conditions a Thumb B<cond> may carry: 0b0000 to 0b1101 (R98); 0b1110 is refused (R101, R103). -/
def Cond.inThumbBranch (c : Cond) : Bool :=
  c != .al

/-- The instruction can be encoded (R94, R98). -/
def Instr.wellFormed : Instr → Bool
  | .bx _ _ => true
  | .mrs _ _ _ => true
  | .msrReg _ _ _ _ => true
  | .msrImm _ _ _ _ _ => true
  | .ldrh _ _ _ _ _ _ => true
  | .strh _ _ _ _ _ _ => true
  | .subImm _ _ _ _ _ _ => true
  | .subReg _ _ _ _ _ => true
  | .movImm _ _ _ _ _ => true
  | .movReg _ _ _ _ => true
  | .cmpImm _ _ _ _ => true
  | .cmpReg _ _ _ => true
  | .cmnImm _ _ _ _ => true
  | .cmnReg _ _ _ => true
  | .ldr _ _ _ _ _ => true
  | .str _ _ _ _ _ => true
  | .ldrb _ _ _ _ _ => true
  | .strb _ _ _ _ _ => true
  | .und _ _ _ => true
  | .b _ _ => true
  | .bl _ _ => true
  | .swi _ _ => true
  | .tSwi _ => true
  | .tBcond c _ => c.inThumbBranch
  | .tBx _ => true
  | .tB _ => true
  | .tBlPrefix _ => true
  | .tBlSuffix _ => true

end Sys2Proof
end

