-- ==== Sys2Proof/Decode.lean ====
section
/-! DEFINITION. The two decoders (ARM words, Thumb halfwords), total and refusing by name, the encoder, and the
byte order in which memory holds them (spec 30_encoding.md R90 to R104, 20_memory.md R65 to R68). -/

namespace Sys2Proof

/-! ## Fields -/

/-- The four bits of a register number (R94). -/
def RegNum.toBits : RegNum → BitVec 4
  | .r0 => 0 | .r1 => 1 | .r2 => 2 | .r3 => 3 | .r4 => 4 | .r5 => 5 | .r6 => 6 | .r7 => 7
  | .r8 => 8 | .r9 => 9 | .r10 => 10 | .r11 => 11 | .r12 => 12 | .r13 => 13 | .r14 => 14 | .r15 => 15

/-- The register number four bits name (R94). -/
def RegNum.ofBits (b : BitVec 4) : RegNum :=
  match b.toNat with
  | 0 => .r0 | 1 => .r1 | 2 => .r2 | 3 => .r3 | 4 => .r4 | 5 => .r5 | 6 => .r6 | 7 => .r7
  | 8 => .r8 | 9 => .r9 | 10 => .r10 | 11 => .r11 | 12 => .r12 | 13 => .r13 | 14 => .r14 | _ => .r15

/-- The condition field of R92. -/
def Cond.toBits : Cond → BitVec 4
  | .eq => 0b0000 | .ne => 0b0001 | .cs => 0b0010 | .cc => 0b0011
  | .mi => 0b0100 | .pl => 0b0101 | .vs => 0b0110 | .vc => 0b0111
  | .hi => 0b1000 | .ls => 0b1001 | .ge => 0b1010 | .lt => 0b1011
  | .gt => 0b1100 | .le => 0b1101 | .al => 0b1110

/-- The condition four bits name; none for 0b1111 (R92). -/
def Cond.ofBits (b : BitVec 4) : Option Cond :=
  match b.toNat with
  | 0 => some .eq | 1 => some .ne | 2 => some .cs | 3 => some .cc
  | 4 => some .mi | 5 => some .pl | 6 => some .vs | 7 => some .vc
  | 8 => some .hi | 9 => some .ls | 10 => some .ge | 11 => some .lt
  | 12 => some .gt | 13 => some .le | 14 => some .al | _ => none

/-- The bit R (R94). -/
def PsrSel.toBits : PsrSel → BitVec 1
  | .cpsr => 0 | .spsr => 1

def PsrSel.ofBits (b : BitVec 1) : PsrSel :=
  if b = 1 then .spsr else .cpsr

/-- The bit U (R97). -/
def Dir.toBits : Dir → BitVec 1
  | .up => 1 | .down => 0

def Dir.ofBits (b : BitVec 1) : Dir :=
  if b = 1 then .up else .down

/-- `slice w hi lo` is `w[hi:lo]` of R6, as the `n` bits from `lo` up. -/
abbrev slice {k : Nat} (w : BitVec k) (lo n : Nat) : BitVec n :=
  w.extractLsb' lo n

/-! ## Outcomes of decoding -/

/-- Why a word is no instruction of the spec: the names of R100, R101. -/
inductive DecodeError where
  /-- ARM condition field 0b1111 (R100 row 1, R103). -/
  | condNV
  /-- Thumb conditional branch with condition 0b1110 (R101 row 2, R103). -/
  | thumbCond1110
  /-- No row matches (R100 row 24, R101 row 8, R104). -/
  | notSpecified
  deriving DecidableEq, Repr

inductive Decoded where
  | ok (i : Instr)
  | reject (e : DecodeError)
  deriving DecidableEq, Repr

def Decoded.toOption : Decoded → Option Instr
  | .ok i => some i
  | .reject _ => none

/-! ## ARM state -/

/-- The 22 ARM rows of the opcode table. -/
inductive ArmForm where
  | bx | mrs | msrReg | msrImm | ldrh | strh | subImm | subReg | movImm | movReg | cmpImm | cmpReg
  | cmnImm | cmnReg | ldr | str | ldrb | strb | und | b | bl | swi
  deriving DecidableEq, Repr

/-- One row of a decode table: a word `w` is of this form if `(w & mask) = pattern`. -/
structure Row (width : Nat) (form : Type) where
  mask : BitVec width
  pattern : BitVec width
  form : form
  deriving DecidableEq, Repr

def Row.accepts {width : Nat} {form : Type} (r : Row width form) (w : BitVec width) : Bool :=
  w &&& r.mask == r.pattern

/-- Rows 2 to 23 of R100. -/
def armTable : List (Row 32 ArmForm) :=
  [⟨0x0FFFFFF0, 0x012FFF10, .bx⟩,
   ⟨0x0FBF0FFF, 0x010F0000, .mrs⟩,
   ⟨0x0FB0FFF0, 0x0120F000, .msrReg⟩,
   ⟨0x0FB0F000, 0x0320F000, .msrImm⟩,
   ⟨0x0F7000F0, 0x015000B0, .ldrh⟩,
   ⟨0x0F7000F0, 0x014000B0, .strh⟩,
   ⟨0x0FE00000, 0x02400000, .subImm⟩,
   ⟨0x0FE00FF0, 0x00400000, .subReg⟩,
   ⟨0x0FEF0000, 0x03A00000, .movImm⟩,
   ⟨0x0FEF0FF0, 0x01A00000, .movReg⟩,
   ⟨0x0FF0F000, 0x03500000, .cmpImm⟩,
   ⟨0x0FF0FFF0, 0x01500000, .cmpReg⟩,
   ⟨0x0FF0F000, 0x03700000, .cmnImm⟩,
   ⟨0x0FF0FFF0, 0x01700000, .cmnReg⟩,
   ⟨0x0F700000, 0x05100000, .ldr⟩,
   ⟨0x0F700000, 0x05000000, .str⟩,
   ⟨0x0F700000, 0x05500000, .ldrb⟩,
   ⟨0x0F700000, 0x05400000, .strb⟩,
   ⟨0x0E000010, 0x06000010, .und⟩,
   ⟨0x0F000000, 0x0A000000, .b⟩,
   ⟨0x0F000000, 0x0B000000, .bl⟩,
   ⟨0x0F000000, 0x0F000000, .swi⟩]

/-- The operand fields of each format (R94). -/
def armFields (f : ArmForm) (c : Cond) (w : Word) : Instr :=
  let psr := PsrSel.ofBits (slice w 22 1)
  let fmask := slice w 16 4
  let dir := Dir.ofBits (slice w 23 1)
  let s := w.getLsbD 20
  let rn := RegNum.ofBits (slice w 16 4)
  let rd := RegNum.ofBits (slice w 12 4)
  let rm := RegNum.ofBits (slice w 0 4)
  let rot := slice w 8 4
  let imm8 := slice w 0 8
  match f with
  | .bx => .bx c rm
  | .mrs => .mrs c psr rd
  | .msrReg => .msrReg c psr fmask rm
  | .msrImm => .msrImm c psr fmask rot imm8
  | .ldrh => .ldrh c dir rn rd (slice w 8 4) (slice w 0 4)
  | .strh => .strh c dir rn rd (slice w 8 4) (slice w 0 4)
  | .subImm => .subImm c s rn rd rot imm8
  | .subReg => .subReg c s rn rd rm
  | .movImm => .movImm c s rd rot imm8
  | .movReg => .movReg c s rd rm
  | .cmpImm => .cmpImm c rn rot imm8
  | .cmpReg => .cmpReg c rn rm
  | .cmnImm => .cmnImm c rn rot imm8
  | .cmnReg => .cmnReg c rn rm
  | .ldr => .ldr c dir rn rd (slice w 0 12)
  | .str => .str c dir rn rd (slice w 0 12)
  | .ldrb => .ldrb c dir rn rd (slice w 0 12)
  | .strb => .strb c dir rn rd (slice w 0 12)
  | .und => .und c (slice w 5 20) (slice w 0 4)
  | .b => .b c (slice w 0 24)
  | .bl => .bl c (slice w 0 24)
  | .swi => .swi c (slice w 0 24)

/-- Decoding a 32-bit word fetched in ARM state (R100). -/
def decodeArm (w : Word) : Decoded :=
  match Cond.ofBits (slice w 28 4) with
  | none => .reject .condNV
  | some c =>
    match armTable.find? (·.accepts w) with
    | some r => .ok (armFields r.form c w)
    | none => .reject .notSpecified

/-! ## Thumb state -/

/-- The rows 1 to 7 of R101; `cond1110` is the refused row 2. -/
inductive ThumbForm where
  | swi | cond1110 | bcond | bx | b | blPrefix | blSuffix
  deriving DecidableEq, Repr

/-- Rows 1 to 7 of R101, in the order they are tested. -/
def thumbTable : List (Row 16 ThumbForm) :=
  [⟨0xFF00, 0xDF00, .swi⟩,
   ⟨0xFF00, 0xDE00, .cond1110⟩,
   ⟨0xF000, 0xD000, .bcond⟩,
   ⟨0xFF87, 0x4700, .bx⟩,
   ⟨0xF800, 0xE000, .b⟩,
   ⟨0xF800, 0xF000, .blPrefix⟩,
   ⟨0xF800, 0xF800, .blSuffix⟩]

/-- The operand fields of each format (R98). -/
def thumbFields (f : ThumbForm) (h : Half) : Decoded :=
  match f with
  | .swi => .ok (.tSwi (slice h 0 8))
  | .cond1110 => .reject .thumbCond1110
  | .bcond =>
    match Cond.ofBits (slice h 8 4) with
    | some c => .ok (.tBcond c (slice h 0 8))
    | none => .reject .notSpecified
  | .bx => .ok (.tBx (RegNum.ofBits (slice h 3 4)))
  | .b => .ok (.tB (slice h 0 11))
  | .blPrefix => .ok (.tBlPrefix (slice h 0 11))
  | .blSuffix => .ok (.tBlSuffix (slice h 0 11))

/-- Decoding a 16-bit halfword fetched in Thumb state (R101). -/
def decodeThumb (h : Half) : Decoded :=
  match thumbTable.find? (·.accepts h) with
  | some r => thumbFields r.form h
  | none => .reject .notSpecified

/-! ## Byte order (R65 to R68): decided here, once, for data and for fetches alike -/

/-- A halfword from its two bytes, lowest address first; `big` is `bigend` of R64. -/
def halfOfBytes (big : Bool) (b0 b1 : Byte) : Half :=
  if big then b0 ++ b1 else b1 ++ b0

/-- A word from its four bytes, lowest address first (R67). -/
def wordOfBytes (big : Bool) (b0 b1 b2 b3 : Byte) : Word :=
  if big then b0 ++ b1 ++ b2 ++ b3 else b3 ++ b2 ++ b1 ++ b0

/-- The two bytes of a halfword, lowest address first (R68). -/
def bytesOfHalf (big : Bool) (v : Half) : List Byte :=
  if big then [slice v 8 8, slice v 0 8] else [slice v 0 8, slice v 8 8]

/-- The four bytes of a word, lowest address first (R68). -/
def bytesOfWord (big : Bool) (v : Word) : List Byte :=
  if big then [slice v 24 8, slice v 16 8, slice v 8 8, slice v 0 8]
  else [slice v 0 8, slice v 8 8, slice v 16 8, slice v 24 8]

/-- Decoding bytes as they lie in memory, in ARM state (`thumb = false`) or Thumb state. Total: fewer bytes than
the state's instruction length (R90) are no instruction. -/
def decodeBytes (big thumb : Bool) (bytes : List Byte) : Decoded :=
  match thumb, bytes with
  | false, b0 :: b1 :: b2 :: b3 :: _ => decodeArm (wordOfBytes big b0 b1 b2 b3)
  | true, b0 :: b1 :: _ => decodeThumb (halfOfBytes big b0 b1)
  | _, _ => .reject .notSpecified

/-- The instruction read from a row of spec/opcode_table.json: 32 bits are an ARM row, 16 bits a Thumb row, laid
out in little-endian order and decoded; no row has another width (log 18). -/
def decodeTableWord (nbits w : Nat) : Option Instr :=
  if nbits = 32 then
    (decodeBytes false false (bytesOfWord false (BitVec.ofNat 32 w))).toOption
  else if nbits = 16 then
    (decodeBytes false true (bytesOfHalf false (BitVec.ofNat 16 w))).toOption
  else none

/-! ## The encoder -/

/-- An encoded instruction: a word for ARM state or a halfword for Thumb state (R90). -/
inductive Encoded where
  | arm (w : Word)
  | thumb (h : Half)
  deriving DecidableEq, Repr

/-- The decoder of the state the encoding belongs to. -/
def Encoded.decode : Encoded → Decoded
  | .arm w => decodeArm w
  | .thumb h => decodeThumb h

/-- The bit S (R94). -/
def sBit (s : Bool) : BitVec 1 :=
  BitVec.ofBool s

/-- The words of an instruction, field by field from the formats of R94 and R98, most significant bits first. -/
def encode : Instr → Encoded
  | .bx c rm => .arm (c.toBits ++ 0b000100101111111111110001#24 ++ rm.toBits)
  | .mrs c r rd => .arm (c.toBits ++ 0b00010#5 ++ r.toBits ++ 0b00#2 ++ 0b1111#4 ++ rd.toBits ++ 0#12)
  | .msrReg c r fmask rm =>
    .arm (c.toBits ++ 0b00010#5 ++ r.toBits ++ 0b10#2 ++ fmask ++ 0b1111#4 ++ 0#8 ++ rm.toBits)
  | .msrImm c r fmask rot imm8 =>
    .arm (c.toBits ++ 0b00110#5 ++ r.toBits ++ 0b10#2 ++ fmask ++ 0b1111#4 ++ rot ++ imm8)
  | .ldrh c u rn rd immH immL =>
    .arm (c.toBits ++ 0b0001#4 ++ u.toBits ++ 0b101#3 ++ rn.toBits ++ rd.toBits ++ immH ++ 0b1011#4 ++ immL)
  | .strh c u rn rd immH immL =>
    .arm (c.toBits ++ 0b0001#4 ++ u.toBits ++ 0b100#3 ++ rn.toBits ++ rd.toBits ++ immH ++ 0b1011#4 ++ immL)
  | .subImm c s rn rd rot imm8 =>
    .arm (c.toBits ++ 0b001#3 ++ 0b0010#4 ++ sBit s ++ rn.toBits ++ rd.toBits ++ rot ++ imm8)
  | .subReg c s rn rd rm =>
    .arm (c.toBits ++ 0b000#3 ++ 0b0010#4 ++ sBit s ++ rn.toBits ++ rd.toBits ++ 0#8 ++ rm.toBits)
  | .movImm c s rd rot imm8 =>
    .arm (c.toBits ++ 0b001#3 ++ 0b1101#4 ++ sBit s ++ 0#4 ++ rd.toBits ++ rot ++ imm8)
  | .movReg c s rd rm =>
    .arm (c.toBits ++ 0b000#3 ++ 0b1101#4 ++ sBit s ++ 0#4 ++ rd.toBits ++ 0#8 ++ rm.toBits)
  | .cmpImm c rn rot imm8 => .arm (c.toBits ++ 0b001#3 ++ 0b1010#4 ++ 1#1 ++ rn.toBits ++ 0#4 ++ rot ++ imm8)
  | .cmpReg c rn rm => .arm (c.toBits ++ 0b000#3 ++ 0b1010#4 ++ 1#1 ++ rn.toBits ++ 0#12 ++ rm.toBits)
  | .cmnImm c rn rot imm8 => .arm (c.toBits ++ 0b001#3 ++ 0b1011#4 ++ 1#1 ++ rn.toBits ++ 0#4 ++ rot ++ imm8)
  | .cmnReg c rn rm => .arm (c.toBits ++ 0b000#3 ++ 0b1011#4 ++ 1#1 ++ rn.toBits ++ 0#12 ++ rm.toBits)
  | .ldr c u rn rd imm12 => .arm (c.toBits ++ 0b0101#4 ++ u.toBits ++ 0b001#3 ++ rn.toBits ++ rd.toBits ++ imm12)
  | .str c u rn rd imm12 => .arm (c.toBits ++ 0b0101#4 ++ u.toBits ++ 0b000#3 ++ rn.toBits ++ rd.toBits ++ imm12)
  | .ldrb c u rn rd imm12 => .arm (c.toBits ++ 0b0101#4 ++ u.toBits ++ 0b101#3 ++ rn.toBits ++ rd.toBits ++ imm12)
  | .strb c u rn rd imm12 => .arm (c.toBits ++ 0b0101#4 ++ u.toBits ++ 0b100#3 ++ rn.toBits ++ rd.toBits ++ imm12)
  | .und c high low => .arm (c.toBits ++ 0b011#3 ++ high ++ 1#1 ++ low)
  | .b c imm24 => .arm (c.toBits ++ 0b1010#4 ++ imm24)
  | .bl c imm24 => .arm (c.toBits ++ 0b1011#4 ++ imm24)
  | .swi c comment => .arm (c.toBits ++ 0b1111#4 ++ comment)
  | .tSwi value8 => .thumb (0b11011111#8 ++ value8)
  | .tBcond c soff8 => .thumb (0b1101#4 ++ c.toBits ++ soff8)
  | .tBx rm => .thumb (0b01000111#8 ++ 0#1 ++ rm.toBits ++ 0#3)
  | .tB off11 => .thumb (0b11100#5 ++ off11)
  | .tBlPrefix off11 => .thumb (0b1111#4 ++ 0#1 ++ off11)
  | .tBlSuffix off11 => .thumb (0b1111#4 ++ 1#1 ++ off11)

end Sys2Proof
end

