-- ==== Sys2Proof/Config.lean ====
section
/-! DEFINITION. The free values: what the spec says is written or read without saying which value. Each is a
constant with no body, applied to the counter `draws` of the state, so that nothing can be proved of it. -/

namespace Sys2Proof.Config

/-- PSR bits 27:8 as MRS reads them: "draw" in R155, R47 (log 4). -/
opaque freeReserved : Nat → BitVec 20

/-- What a reset step leaves in R14_svc: "unspecified" in R261 (log 3). -/
opaque freeResetLink : Nat → Word

/-- What a reset step leaves in SPSR_svc, read as a PSR word: "unspecified" in R261 (log 3). -/
opaque freeResetPsr : Nat → Word

end Sys2Proof.Config
end

