-- ==== Sys2Proof/Machine/State.lean ====
section
/-! DEFINITION. The state of the machine as plain data, the reasons a step can stop, and the state after reset
(spec 10_state.md, 20_memory.md, 00_scope.md R5, R11). -/

namespace Sys2Proof.Machine

/-- The 30 physical general registers besides the PC, by the names of R21. -/
inductive PhysReg where
  | r0 | r1 | r2 | r3 | r4 | r5 | r6 | r7
  | r8 | r9 | r10 | r11 | r12
  | r8Fiq | r9Fiq | r10Fiq | r11Fiq | r12Fiq
  | r13 | r14
  | r13Fiq | r14Fiq | r13Irq | r14Irq | r13Svc | r14Svc | r13Abt | r14Abt | r13Und | r14Und
  deriving DecidableEq, Repr

/-- The seven operating modes (R45). -/
inductive Mode where
  | usr | fiq | irq | svc | abt | und | sys
  deriving DecidableEq, Repr

/-- The seven exception types (R200). -/
inductive Exc where
  | reset | undefined | swi | prefetchAbort | dataAbort | irq | fiq
  deriving DecidableEq, Repr

/-- A program status register: its twelve defined bits (R36); the reserved bits are not state (R47). -/
structure Psr where
  n : Bool
  z : Bool
  c : Bool
  v : Bool
  i : Bool
  f : Bool
  t : Bool
  m : BitVec 5
  deriving DecidableEq, Repr

/-- The five saved program status registers (R35). -/
structure SavedPsrs where
  fiq : Psr
  irq : Psr
  svc : Psr
  abt : Psr
  und : Psr
  deriving DecidableEq, Repr

/-- The widths of an access in bytes: 1, 2, 4 (R62, R76). -/
inductive Size where
  | byte | half | word
  deriving DecidableEq, Repr

/-- The kinds of access (R73). -/
inductive Access where
  | fetch | read | write
  deriving DecidableEq, Repr

/-- The input levels of one instruction boundary, true for high (R49, R209). -/
structure Pins where
  nReset : Bool
  nFiq : Bool
  nIrq : Bool
  isync : Bool
  lock : Bool
  deriving DecidableEq, Repr

/-- An input as plain data: the values to come, and the values that repeat for ever after those. With both empty it
is quiet from now on (log 8, log 9). -/
structure Trace (α : Type) where
  coming : List α
  cycle : List α
  deriving DecidableEq, Repr

/-- Part of the platform's memory map: an access lying wholly in `first` to `last`, of a kind and width marked
true, is admitted (`mem_admit` of R75; log 7). -/
structure Window where
  first : Nat
  last : Nat
  fetch : Bool
  read : Bool
  write : Bool
  byte : Bool
  half : Bool
  word : Bool
  deriving DecidableEq, Repr

/-- Addresses `first` to `last`, declared to hold program text (R81; log 12). -/
structure Span where
  first : Nat
  last : Nat
  deriving DecidableEq, Repr

/-- Memory in canonical form (R60): addresses strictly rising, no listed byte 0; an unlisted byte reads 0. -/
abbrev Memory := List Host.Cell

/-- The whole machine. The docstring of each field names the rule of spec/ that gives it. -/
structure State where
  /-- The general registers but the PC, each at `PhysReg.index` (R20, R21). -/
  regs : Vector Word 30
  /-- R15: the address of the instruction being executed (R28, R29). -/
  pc : Word
  /-- The current program status register (R35, R36). -/
  cpsr : Psr
  /-- The saved program status registers (R35). -/
  spsr : SavedPsrs
  /-- Memory (R60). -/
  mem : Memory
  /-- The byte addresses stores have written so far, strictly rising: what R81 asks of a later fetch (log 12). -/
  stored : List Nat
  /-- The declared program text (R81; log 12). -/
  text : List Span
  /-- What the platform admits (R75; log 7). -/
  windows : List Window
  /-- The byte order in force, fixed for a run: true is big-endian (R64; log 6). -/
  bigend : Bool
  /-- The input levels of this boundary and those to come (R49, R209; log 9). -/
  pins : Trace Pins
  /-- The memory system's answer, true for ABORT, to this access and those to come (R73; log 8). -/
  aborts : Trace Bool
  /-- The model's own counter of free values taken (log 4). -/
  draws : Nat
  deriving DecidableEq, Repr

/-- Why the machine stops for good. -/
inductive Fault where
  /-- `stuck(Unrecoverable)` of R11, R46: raised by a step of a state whose CPSR.M holds no mode number while
  nRESET is high. Safe: the spec says no step but reset follows. -/
  | unrecoverable
  deriving DecidableEq, Repr

/-- Why the spec gives a step no meaning (R11 b). All are safe: a refused run proves nothing. -/
inductive Refusal where
  /-- Raised by exec's arm of an instruction without a meaning; no arm raises it. Safe. -/
  | notModelled (mnemonic : String)
  /-- Raised by step: no row of the decode tables matches (R104). Safe. -/
  | notSpecified
  /-- Raised by step: ARM condition field 0b1111 (R103). Safe. -/
  | condNV
  /-- Raised by step: Thumb conditional branch with condition 0b1110 (R103). Safe. -/
  | thumbCond1110
  /-- Raised by the ARM BX with Rm = 15 (R120). Safe. -/
  | bxPc
  /-- Raised by every write of a misaligned value to the pc (R30). Safe. -/
  | misalignedBranchTarget
  /-- Raised by a sequential advance past the top of the address space (R30). Safe. -/
  | pcWrap
  /-- Raised by MRS, MSR and the exception-return form in User and System mode (R48). Safe. -/
  | noSpsr
  /-- Raised by a direct CPSR write that would change T (R158). Safe. -/
  | tBitWrite
  /-- Raised by MRS with Rd = 15 (R155). Safe. -/
  | mrsPc
  /-- Raised by MSR with Rm = 15 (R156). Safe. -/
  | msrPc
  /-- Raised by a load with Rd = 15 (R167, R169, R171). Safe. -/
  | loadPc
  /-- Raised by a store with Rd = 15 (R168, R170, R172). Safe. -/
  | storePc
  /-- Raised by a load or store whose address is misaligned for its width (R72). Safe. -/
  | misalignedAccess
  /-- Raised by a fetch, load or store the platform does not admit (R75). Safe. -/
  | unmappedAccess
  /-- Raised by a store to declared text, and by a fetch of a byte a store wrote (R81; log 12). Safe. -/
  | storeToCode
  deriving DecidableEq, Repr

/-- What running an instruction, or a step, answers. -/
abbrev Result := Host.Outcome State Fault Refusal

/-- A status register with every bit 0: the value the model names where R51 states none (log 1, log 2). -/
def Psr.zero : Psr :=
  { n := false, z := false, c := false, v := false, i := false, f := false, t := false, m := 0 }

/-- The whole address space, every kind and width of access (log 7). -/
def Window.everything : Window :=
  { first := 0, last := 2 ^ 32 - 1, fetch := true, read := true, write := true, byte := true, half := true, word := true }

/-- The machine right after reset: the table of R51, with the values named in log 1, 2, 4 to 9 and 12 where it
states none. -/
def State.reset : State :=
  { regs := Vector.replicate 30 0
    pc := 0x00000000
    cpsr := { n := false, z := false, c := false, v := false, i := true, f := true, t := false, m := 0b10011 }
    spsr := { fiq := Psr.zero, irq := Psr.zero, svc := Psr.zero, abt := Psr.zero, und := Psr.zero }
    mem := []
    stored := []
    text := []
    windows := [Window.everything]
    bigend := false
    pins := { coming := [], cycle := [] }
    aborts := { coming := [], cycle := [] }
    draws := 0 }

end Sys2Proof.Machine
end

