-- ==== Sys2Proof/Machine/Modes.lean ====
section
/-! DEFINITION. The mode numbers, the status-register format, and the bank a register number names in a mode
(spec 10_state.md R31, R36, R45, R48). -/

namespace Sys2Proof.Machine

/-! ## Modes -/

/-- The mode table of R45. -/
def Mode.toBits : Mode → BitVec 5
  | .usr => 0b10000
  | .fiq => 0b10001
  | .irq => 0b10010
  | .svc => 0b10011
  | .abt => 0b10111
  | .und => 0b11011
  | .sys => 0b11111

/-- The mode five bits name; none for the 25 invalid values (R46). -/
def Mode.ofBits (b : BitVec 5) : Option Mode :=
  match b.toNat with
  | 0b10000 => some .usr
  | 0b10001 => some .fiq
  | 0b10010 => some .irq
  | 0b10011 => some .svc
  | 0b10111 => some .abt
  | 0b11011 => some .und
  | 0b11111 => some .sys
  | _ => none

/-- The mode bits hold one of the seven values (R46). -/
def Psr.validMode (p : Psr) : Bool :=
  (Mode.ofBits p.m).isSome

/-- The current mode. A state whose CPSR.M is invalid runs no instruction (R46); for it this answers User (log 11). -/
def State.mode (s : State) : Mode :=
  (Mode.ofBits s.cpsr.m).getD .usr

/-- `stuck(Unrecoverable)` of R11: the CPSR's mode bits are invalid (R46; log 10). -/
def State.stuck (s : State) : Bool :=
  !s.cpsr.validMode

/-! ## The status-register format (R36) -/

/-- The twelve defined bits of a 32-bit PSR value; bits 27:8 are ignored (R36, R47). -/
def Psr.ofWord (w : Word) : Psr :=
  { n := w.getLsbD 31, z := w.getLsbD 30, c := w.getLsbD 29, v := w.getLsbD 28
    i := w.getLsbD 7, f := w.getLsbD 6, t := w.getLsbD 5, m := slice w 0 5 }

/-- A PSR as a 32-bit value, its reserved bits 27:8 as given (R36, R155). -/
def Psr.toWord (p : Psr) (reserved : BitVec 20) : Word :=
  BitVec.ofBool p.n ++ BitVec.ofBool p.z ++ BitVec.ofBool p.c ++ BitVec.ofBool p.v ++ reserved
    ++ BitVec.ofBool p.i ++ BitVec.ofBool p.f ++ BitVec.ofBool p.t ++ p.m

/-- `p` with the flags of `q` (bits 31:28 of R158). -/
def Psr.withFlagsOf (p q : Psr) : Psr :=
  { p with n := q.n, z := q.z, c := q.c, v := q.v }

/-- `p` with the control bits I, F, T and M of `q` (bits 7:0 of R158). -/
def Psr.withControlOf (p q : Psr) : Psr :=
  { p with i := q.i, f := q.f, t := q.t, m := q.m }

/-! ## The SPSR of a mode (R48) -/

/-- The SPSR of a mode; User and System have none. -/
def SavedPsrs.get (x : SavedPsrs) : Mode → Option Psr
  | .usr => none
  | .sys => none
  | .fiq => some x.fiq
  | .irq => some x.irq
  | .svc => some x.svc
  | .abt => some x.abt
  | .und => some x.und

/-- Writing the SPSR of a mode; User and System have none to write. -/
def SavedPsrs.set (x : SavedPsrs) (p : Psr) : Mode → SavedPsrs
  | .usr => x
  | .sys => x
  | .fiq => { x with fiq := p }
  | .irq => { x with irq := p }
  | .svc => { x with svc := p }
  | .abt => { x with abt := p }
  | .und => { x with und := p }

/-! ## Banks (R31) -/

/-- Where a physical register stands in `State.regs`. -/
def PhysReg.index : PhysReg → Fin 30
  | .r0 => 0 | .r1 => 1 | .r2 => 2 | .r3 => 3 | .r4 => 4 | .r5 => 5 | .r6 => 6 | .r7 => 7
  | .r8 => 8 | .r9 => 9 | .r10 => 10 | .r11 => 11 | .r12 => 12
  | .r8Fiq => 13 | .r9Fiq => 14 | .r10Fiq => 15 | .r11Fiq => 16 | .r12Fiq => 17
  | .r13 => 18 | .r14 => 19
  | .r13Fiq => 20 | .r14Fiq => 21 | .r13Irq => 22 | .r14Irq => 23 | .r13Svc => 24 | .r14Svc => 25
  | .r13Abt => 26 | .r14Abt => 27 | .r13Und => 28 | .r14Und => 29

/-- The stack pointer a mode names by number 13 (R26, R31). -/
def stackReg : Mode → PhysReg
  | .usr => .r13 | .sys => .r13
  | .fiq => .r13Fiq | .irq => .r13Irq | .svc => .r13Svc | .abt => .r13Abt | .und => .r13Und

/-- The link register a mode names by number 14 (R27, R31). -/
def linkReg : Mode → PhysReg
  | .usr => .r14 | .sys => .r14
  | .fiq => .r14Fiq | .irq => .r14Irq | .svc => .r14Svc | .abt => .r14Abt | .und => .r14Und

/-- `Reg(m, i)` of R31; none for number 15, the PC, which is not banked. -/
def physReg (m : Mode) : RegNum → Option PhysReg
  | .r0 => some .r0 | .r1 => some .r1 | .r2 => some .r2 | .r3 => some .r3
  | .r4 => some .r4 | .r5 => some .r5 | .r6 => some .r6 | .r7 => some .r7
  | .r8 => some (if m = .fiq then .r8Fiq else .r8)
  | .r9 => some (if m = .fiq then .r9Fiq else .r9)
  | .r10 => some (if m = .fiq then .r10Fiq else .r10)
  | .r11 => some (if m = .fiq then .r11Fiq else .r11)
  | .r12 => some (if m = .fiq then .r12Fiq else .r12)
  | .r13 => some (stackReg m)
  | .r14 => some (linkReg m)
  | .r15 => none

end Sys2Proof.Machine
end

