-- ==== Sys2Proof/Machine/Flags.lean ====
section
/-! DEFINITION. Flag computations and condition tests (spec 41_data_processing.md R137, R144, 30_encoding.md R92). -/

namespace Sys2Proof.Machine

/-- A result with its carry and overflow. -/
structure Alu where
  result : Word
  c : Bool
  v : Bool
  deriving DecidableEq, Repr

/-- `AddFlags(a, b)` of R144. -/
def addFlags (a b : Word) : Alu :=
  let result := BitVec.ofNat 32 (a.toNat + b.toNat)
  { result := result
    c := decide (2 ^ 32 ≤ a.toNat + b.toNat)
    v := a.msb == b.msb && result.msb != a.msb }

/-- `SubFlags(a, b)` of R144: C = 1 means no borrow. -/
def subFlags (a b : Word) : Alu :=
  let result := a - b
  { result := result
    c := decide (b.toNat ≤ a.toNat)
    v := a.msb != b.msb && result.msb != a.msb }

/-- `NZCV <- (result[31], result = 0, c, v)` of R137, R142, R143. -/
def Psr.setNZCV (p : Psr) (x : Alu) : Psr :=
  { p with n := x.result.msb, z := x.result == 0, c := x.c, v := x.v }

/-- `CondPassed(c)` of R92. -/
def condPassed (c : Cond) (p : Psr) : Bool :=
  match c with
  | .eq => p.z
  | .ne => !p.z
  | .cs => p.c
  | .cc => !p.c
  | .mi => p.n
  | .pl => !p.n
  | .vs => p.v
  | .vc => !p.v
  | .hi => p.c && !p.z
  | .ls => !p.c || p.z
  | .ge => p.n == p.v
  | .lt => p.n != p.v
  | .gt => !p.z && p.n == p.v
  | .le => p.z || p.n != p.v
  | .al => true

end Sys2Proof.Machine
end

