-- ==== Sys2Proof/Machine/Memory.lean ====
section
/-! DEFINITION. Memory as a list of cells in canonical form, and the list of addresses stored to (spec 20_memory.md
R60, R81). -/

namespace Sys2Proof.Machine

/-- What an address reads as when nothing is listed for it (log 5). -/
def unlistedByte : Byte := 0

/-- The canonical form: addresses strictly rising and inside the space, no entry equal to the unlisted byte. -/
abbrev Memory.wf (m : Memory) : Prop :=
  m.Pairwise (fun x y => x.1 < y.1) ∧ ∀ x ∈ m, x.2 ≠ unlistedByte ∧ x.1 < 2 ^ 32

/-- `Mem[a]` (R60). -/
def Memory.read : Memory → Nat → Byte
  | [], _ => unlistedByte
  | (b, v) :: rest, a => if a = b then v else Memory.read rest a

/-- `Mem[a] <- v` (R68), keeping the canonical form. -/
def Memory.write : Memory → Nat → Byte → Memory
  | [], a, v => if v = unlistedByte then [] else [(a, v)]
  | (b, w) :: rest, a, v =>
    if a < b then (if v = unlistedByte then (b, w) :: rest else (a, v) :: (b, w) :: rest)
    else if a = b then (if v = unlistedByte then rest else (a, v) :: rest)
    else (b, w) :: Memory.write rest a v

/-- The form of `State.stored`: addresses strictly rising. -/
abbrev Marks.wf (l : List Nat) : Prop :=
  l.Pairwise (· < ·)

/-- Marking an address as stored to. -/
def Marks.add : List Nat → Nat → List Nat
  | [], a => [a]
  | b :: rest, a =>
    if a < b then a :: b :: rest
    else if a = b then b :: rest
    else b :: Marks.add rest a

/-- Taking a mark away: a program is loaded there (log 13). -/
def Marks.remove (l : List Nat) (a : Nat) : List Nat :=
  l.filter (· != a)

end Sys2Proof.Machine
end

