-- ==== Sys2Proof/Machine/Ops.lean ====
section
/-! DEFINITION. The named operations over registers, memory, inputs and exceptions that the meanings share (spec
10_state.md R29 to R31, 20_memory.md R67 to R75, 43_load_store.md R166, 60_exceptions.md R201 to R209, R221). -/

namespace Sys2Proof.Machine

/-! ## Registers -/

/-- A physical register (R21). -/
def State.getPhys (s : State) (p : PhysReg) : Word :=
  s.regs[p.index]

def State.setPhys (s : State) (p : PhysReg) (v : Word) : State :=
  { s with regs := s.regs.set p.index v }

def State.setPc (s : State) (v : Word) : State :=
  { s with pc := v }

def State.setCpsr (s : State) (p : Psr) : State :=
  { s with cpsr := p }

/-- Writing the SPSR of mode `m` (R48). -/
def State.setSpsr (s : State) (m : Mode) (p : Psr) : State :=
  { s with spsr := s.spsr.set p m }

/-- What register number 15 reads as: two instructions ahead (R29). -/
def State.pcOperand (s : State) : Word :=
  if s.cpsr.t then s.pc + 4 else s.pc + 8

/-- `x[i]` of R7. -/
def State.readReg (s : State) (i : RegNum) : Word :=
  match physReg s.mode i with
  | some p => s.getPhys p
  | none => s.pcOperand

/-- `x[i] <- v` of R7. The meanings write number 15 by `branchTo`, which checks the value first (R30). -/
def State.writeReg (s : State) (i : RegNum) (v : Word) : State :=
  match physReg s.mode i with
  | some p => s.setPhys p v
  | none => s.setPc v

/-! ## The program counter -/

/-- `v` is aligned for the operating state `t` (R28, R30). -/
def pcAligned (t : Bool) (v : Word) : Bool :=
  if t then slice v 0 1 == 0 else slice v 0 2 == 0

/-- `pc <- pc + size`, the end of an instruction that writes no pc; refused past the top of the space (R10, R30;
log 19). -/
def advance (size : Nat) (s : State) : Result :=
  if s.pc.toNat + size < 2 ^ 32 then .next (s.setPc (s.pc + BitVec.ofNat 32 size))
  else .refused .pcWrap

/-- `pc <- v`, refused unless `v` is aligned for the state in force (R30). -/
def branchTo (v : Word) (s : State) : Result :=
  if pcAligned s.cpsr.t v then .next (s.setPc v)
  else .refused .misalignedBranchTarget

/-- The ARM condition check: a failed condition only advances (R93). -/
def conditional (c : Cond) (s : State) (run : Result) : Result :=
  if condPassed c s.cpsr then run else advance 4 s

/-! ## Free values -/

/-- One free value has been taken: the next one is another (log 4). -/
def State.countDraw (s : State) : State :=
  { s with draws := s.draws + 1 }

/-! ## Exceptions -/

/-- The mode an exception enters (R201). -/
def Exc.mode : Exc → Mode
  | .reset => .svc
  | .undefined => .und
  | .swi => .svc
  | .prefetchAbort => .abt
  | .dataAbort => .abt
  | .irq => .irq
  | .fiq => .fiq

/-- The vector address (R202). -/
def Exc.vector : Exc → Word
  | .reset => 0x00000000
  | .undefined => 0x00000004
  | .swi => 0x00000008
  | .prefetchAbort => 0x0000000C
  | .dataAbort => 0x00000010
  | .irq => 0x00000018
  | .fiq => 0x0000001C

/-- The exceptions that set F (R205). -/
def Exc.masksFiq : Exc → Bool
  | .reset => true
  | .fiq => true
  | .undefined => false
  | .swi => false
  | .prefetchAbort => false
  | .dataAbort => false
  | .irq => false

/-- The CPSR on entry: mode, T, I and F as R203 writes them, the flags kept (R207). -/
def Psr.onEntry (p : Psr) (x : Exc) : Psr :=
  { p with m := x.mode.toBits, t := false, i := true, f := p.f || x.masksFiq }

/-- The entry sequence of R203, with the link value `link` and the saved status `old` as arguments: the link register
and SPSR of the mode entered are written, the CPSR changes, the pc goes to the vector. -/
def enterException (x : Exc) (link : Word) (old : Psr) (s : State) : State :=
  { s.setPhys (linkReg x.mode) link with
    spsr := s.spsr.set old x.mode
    cpsr := s.cpsr.onEntry x
    pc := x.vector }

/-- `raise X(L)` of R203, for every exception but Reset: the saved status is the CPSR. -/
def takeException (x : Exc) (link : Word) (s : State) : State :=
  enterException x link s.cpsr s

/-- The reset sequence of R261: `raise Reset(L)` with the link value and the saved status free (log 3). -/
def takeReset (s : State) : State :=
  enterException .reset (Config.freeResetLink s.draws) (Psr.ofWord (Config.freeResetPsr s.draws)) s.countDraw

/-- The exception-return form of R139 (and R221): `result` is the instruction's result, the SPSR of the current mode
goes to the CPSR. An SPSR with an invalid mode leaves the stuck state, pc unchanged (R46; log 10). -/
def exceptionReturn (result : Word) (s : State) : Result :=
  match s.spsr.get s.mode with
  | none => .refused .noSpsr
  | some p =>
    if !p.validMode then .next (s.setCpsr p)
    else branchTo result (s.setCpsr p)

/-! ## Inputs (log 8, log 9) -/

/-- The value of the input now: the next of those to come, else the first of those that repeat, else `quiet`. -/
def Trace.now {α : Type} (quiet : α) (x : Trace α) : α :=
  x.coming.headD (x.cycle.headD quiet)

/-- The input after its value now has been used: with none to come, the repetition starts. -/
def Trace.next {α : Type} (x : Trace α) : Trace α :=
  { x with coming := if x.coming.isEmpty then x.cycle.tail else x.coming.tail }

/-- The input with one value before all the others. -/
def Trace.cons {α : Type} (v : α) (x : Trace α) : Trace α :=
  { x with coming := v :: x.coming }

/-- The input that has one value for ever. -/
def Trace.always {α : Type} (v : α) : Trace α :=
  { coming := [], cycle := [v] }

/-! ## Memory accesses -/

/-- The width in bytes (R62). -/
def Size.bytes : Size → Nat
  | .byte => 1
  | .half => 2
  | .word => 4

/-- An access is aligned for its width (R63). -/
def Size.aligned (n : Size) (a : Word) : Bool :=
  match n with
  | .byte => true
  | .half => slice a 0 1 == 0
  | .word => slice a 0 2 == 0

def Window.allows (w : Window) (n : Size) (k : Access) : Bool :=
  (match k with | .fetch => w.fetch | .read => w.read | .write => w.write)
    && (match n with | .byte => w.byte | .half => w.half | .word => w.word)

/-- The window admits the access (R75). -/
def Window.admits (w : Window) (a : Word) (n : Size) (k : Access) : Bool :=
  decide (w.first ≤ a.toNat) && decide (a.toNat + n.bytes ≤ w.last + 1) && w.allows n k

/-- `mem_admit(addr, n, kind)` of R75 (log 7). -/
def State.admits (s : State) (a : Word) (n : Size) (k : Access) : Bool :=
  s.windows.any (·.admits a n k)

/-- Some byte of the access is declared program text (R81). -/
def State.isText (s : State) (a : Word) (n : Size) : Bool :=
  s.text.any (fun x => decide (x.first < a.toNat + n.bytes) && decide (a.toNat ≤ x.last))

/-- Some byte of the access has been stored to (R81). -/
def State.isStored (s : State) (a : Word) (n : Size) : Bool :=
  s.stored.any (fun x => decide (a.toNat ≤ x) && decide (x < a.toNat + n.bytes))

/-- `abort_oracle` for this access: the memory system's next answer; a quiet trace is no abort (R73; log 8). -/
def State.abortAnswer (s : State) : Bool :=
  s.aborts.now false

/-- The answer is used up: the next access gets the next one (R76). -/
def State.nextAnswer (s : State) : State :=
  { s with aborts := s.aborts.next }

/-- `Mem[a]` (R60). -/
def State.readByte (s : State) (a : Word) : Byte :=
  s.mem.read a.toNat

/-- `MemRead(a, 2)` of R67. -/
def State.readHalf (s : State) (a : Word) : Half :=
  halfOfBytes s.bigend (s.readByte a) (s.readByte (a + 1))

/-- `MemRead(a, 4)` of R67. -/
def State.readWord (s : State) (a : Word) : Word :=
  wordOfBytes s.bigend (s.readByte a) (s.readByte (a + 1)) (s.readByte (a + 2)) (s.readByte (a + 3))

/-- Storing one byte, and marking its address as stored to (R68, R81). -/
def State.storeByte (s : State) (a : Word) (v : Byte) : State :=
  { s with mem := s.mem.write a.toNat v, stored := Marks.add s.stored a.toNat }

/-- Storing bytes at rising addresses. -/
def State.storeBytes (s : State) (a : Word) : List Byte → State
  | [] => s
  | v :: rest => (s.storeByte a v).storeBytes (a + 1) rest

/-- `MemWrite(a, 2, v)` of R68. -/
def State.storeHalf (s : State) (a : Word) (v : Half) : State :=
  s.storeBytes a (bytesOfHalf s.bigend v)

/-- `MemWrite(a, 4, v)` of R68. -/
def State.storeWord (s : State) (a : Word) (v : Word) : State :=
  s.storeBytes a (bytesOfWord s.bigend v)

/-- The common access sequence of R166, steps 1 to 4 in its order; `go` is step 5 and the rest of the instruction.
An abort takes the Data abort exception with link pc + 8 and does nothing else (R74, R215). -/
def access (n : Size) (k : Access) (a : Word) (s : State) (go : State → Result) : Result :=
  if !n.aligned a then .refused .misalignedAccess
  else if s.abortAnswer then .next (takeException .dataAbort (s.pc + 8) s.nextAnswer)
  else if !s.admits a n k then .refused .unmappedAccess
  else if k = .write ∧ s.isText a n then .refused .storeToCode
  else go s.nextAnswer

end Sys2Proof.Machine
end

