-- ==== Sys2Proof/Machine/Cycle.lean ====
section
/-! DEFINITION. The parts of one step around the instruction: the boundary (reset, stuck, FIQ, IRQ) and the fetch
(spec 60_exceptions.md R209), and how a program is placed where step fetches it. -/

namespace Sys2Proof.Machine

/-! ## The boundary: steps 0 to 3 of R209 -/

/-- The levels of a quiet trace: every input high (log 9). -/
def Pins.idle : Pins :=
  { nReset := true, nFiq := true, nIrq := true, isync := true, lock := true }

/-- The input levels of this boundary (R49, R209). -/
def State.levels (s : State) : Pins :=
  s.pins.now Pins.idle

/-- The boundary is past: the next step sees the next levels. -/
def State.nextBoundary (s : State) : State :=
  { s with pins := s.pins.next }

/-- What happens at a boundary. -/
inductive Boundary where
  /-- A reset or an interrupt is taken; it is the whole step. -/
  | taken (t : State)
  /-- The state is stuck and nRESET is high. -/
  | stuck
  /-- The instruction at the pc is fetched next. -/
  | run (t : State)
  deriving DecidableEq, Repr

/-- Steps 0 to 3 of R209. ISYNC and LOCK have no effect (R80, R212; log 15). -/
def boundary (s : State) : Boundary :=
  let t := s.nextBoundary
  if !s.levels.nReset then .taken (takeReset t)
  else if s.stuck then .stuck
  else if !s.levels.nFiq && !s.cpsr.f then .taken (takeException .fiq (s.pc + 4) t)
  else if !s.levels.nIrq && !s.cpsr.i then .taken (takeException .irq (s.pc + 4) t)
  else .run t

/-! ## The fetch: steps 4 and 5 of R209 -/

/-- What a fetch gives. -/
inductive Fetched where
  /-- The fetch is aborted: the Prefetch abort is taken. -/
  | aborted (t : State)
  | refused (r : Refusal)
  | got (i : Instr) (t : State)
  deriving DecidableEq, Repr

/-- The name of the refusal of a word the decoder rejects (R100, R101). -/
def DecodeError.refusal : DecodeError → Refusal
  | .condNV => .condNV
  | .thumbCond1110 => .thumbCond1110
  | .notSpecified => .notSpecified

/-- `InstrSize` of R7: the width of a fetch in the current state (R90). -/
def State.fetchSize (s : State) : Size :=
  if s.cpsr.t then .half else .word

/-- The word or halfword at the pc, decoded for the current state (R70, R71, R100, R101). -/
def State.decodeAtPc (s : State) : Decoded :=
  if s.cpsr.t then decodeThumb (s.readHalf s.pc) else decodeArm (s.readWord s.pc)

/-- Steps 4 and 5 of R209: abort, admission, stored bytes (R81; log 12), decode. -/
def fetchInstr (s : State) : Fetched :=
  if s.abortAnswer then .aborted (takeException .prefetchAbort (s.pc + 4) s.nextAnswer)
  else if !s.admits s.pc s.fetchSize .fetch then .refused .unmappedAccess
  else if s.isStored s.pc s.fetchSize then .refused .storeToCode
  else
    match s.decodeAtPc with
    | .ok i => .got i s.nextAnswer
    | .reject e => .refused (DecodeError.refusal e)

/-! ## Loading from outside (log 13) -/

/-- Bytes placed in memory from outside the machine: a load, not a store, so no address is marked. -/
def State.placeBytes (s : State) (a : Word) : List Byte → State
  | [] => s
  | v :: rest =>
    { s with mem := s.mem.write a.toNat v, stored := Marks.remove s.stored a.toNat }.placeBytes (a + 1) rest

/-- The machine ready to run one instruction: 32 bits in ARM state, 16 in Thumb state, placed at the pc (aligned for
the state) in the byte order in force, with quiet inputs at this boundary and no abort of this fetch. -/
def placeInstr (s : State) (nbits w : Nat) : State :=
  let thumb := nbits == 16
  let pc := if thumb then s.pc &&& 0xFFFFFFFE else s.pc &&& 0xFFFFFFFC
  let bytes :=
    if thumb then bytesOfHalf s.bigend (BitVec.ofNat 16 w) else bytesOfWord s.bigend (BitVec.ofNat 32 w)
  let t := s.placeBytes pc bytes
  { t with
    pc := pc
    cpsr := { s.cpsr with t := thumb }
    pins := s.pins.cons Pins.idle
    aborts := s.aborts.cons false }

end Sys2Proof.Machine
end

