-- ==== Sys2Proof/Machine/Operands.lean ====
section
/-! DEFINITION. The operand forms: operand 2 of data processing, load/store addresses, branch offsets (spec
30_encoding.md R95 to R97, R99, 41_data_processing.md R136, 43_load_store.md R165). -/

namespace Sys2Proof.Machine

/-- `ROR32(zext_32(imm8), 2 * rot)` of R95, R136. -/
def rotatedImm (rot : BitVec 4) (imm8 : BitVec 8) : Word :=
  (imm8.setWidth 32).rotateRight (2 * rot.toNat)

/-- `shifter_carry` of an immediate operand 2 (R136). -/
def immCarry (rot : BitVec 4) (imm8 : BitVec 8) (p : Psr) : Bool :=
  if rot = 0 then p.c else (rotatedImm rot imm8).msb

/-- `base ± offset`, modulo 2^32 (R165). -/
def offsetAddress (s : State) (u : Dir) (rn : RegNum) (offset : Word) : Word :=
  match u with
  | .up => s.readReg rn + offset
  | .down => s.readReg rn - offset

/-- The address of format LS (R97, R165). -/
def wordFormAddress (s : State) (u : Dir) (rn : RegNum) (imm12 : BitVec 12) : Word :=
  offsetAddress s u rn (imm12.setWidth 32)

/-- The address of format LSH: the offset is `immH :: immL` (R97, R165). -/
def halfFormAddress (s : State) (u : Dir) (rn : RegNum) (immH immL : BitVec 4) : Word :=
  offsetAddress s u rn ((immH ++ immL).setWidth 32)

/-- The byte offset of B and BL, ARM state (R96). -/
def armBranchOffset (imm24 : BitVec 24) : Word :=
  (imm24 ++ 0#2).signExtend 32

/-- The byte offset of the Thumb B<cond> (R99). -/
def thumbCondOffset (soff8 : BitVec 8) : Word :=
  (soff8 ++ 0#1).signExtend 32

/-- The byte offset of the Thumb B (R99). -/
def thumbBranchOffset (off11 : BitVec 11) : Word :=
  (off11 ++ 0#1).signExtend 32

/-- What the Thumb BL prefix adds to pc + 4: `sext_32(off11) << 12` (R99). -/
def blHighOffset (off11 : BitVec 11) : Word :=
  off11.signExtend 32 <<< 12

/-- What the Thumb BL suffix adds to R14: `zext_32(off11) << 1` (R99). -/
def blLowOffset (off11 : BitVec 11) : Word :=
  off11.setWidth 32 <<< 1

end Sys2Proof.Machine
end

