-- ==== Sys2Proof/Machine/Branch.lean ====
section
/-! DEFINITION. Branch and exchange, branch, branch with link, in both states (spec 40_branch_and_exchange.md). -/

namespace Sys2Proof.Machine

/-- BX to the value `v`: bit 0 is the new T, the rest the target, judged by the new T (R30, R120, R121). -/
def exchangeTo (v : Word) (s : State) : Result :=
  branchTo (slice v 1 31 ++ 0#1) (s.setCpsr { s.cpsr with t := v.getLsbD 0 })

/-- BX, ARM state (R120). -/
def execBx (c : Cond) (rm : RegNum) (s : State) : Result :=
  conditional c s (if rm = .r15 then .refused .bxPc else exchangeTo (s.readReg rm) s)

/-- B, ARM state (R122). -/
def execB (c : Cond) (imm24 : BitVec 24) (s : State) : Result :=
  conditional c s (branchTo (s.pc + 8 + armBranchOffset imm24) s)

/-- BL, ARM state (R123). -/
def execBl (c : Cond) (imm24 : BitVec 24) (s : State) : Result :=
  conditional c s (branchTo (s.pc + 8 + armBranchOffset imm24) (s.writeReg .r14 (s.pc + 4)))

/-- BX, Thumb state (R121). -/
def execTBx (rm : RegNum) (s : State) : Result :=
  exchangeTo (s.readReg rm) s

/-- B<cond>, Thumb state (R124). -/
def execTBcond (c : Cond) (soff8 : BitVec 8) (s : State) : Result :=
  if condPassed c s.cpsr then branchTo (s.pc + 4 + thumbCondOffset soff8) s else advance 2 s

/-- B, Thumb state (R125). -/
def execTB (off11 : BitVec 11) (s : State) : Result :=
  branchTo (s.pc + 4 + thumbBranchOffset off11) s

/-- BL, Thumb state, first halfword (R126). -/
def execTBlPrefix (off11 : BitVec 11) (s : State) : Result :=
  advance 2 (s.writeReg .r14 (s.pc + 4 + blHighOffset off11))

/-- BL, Thumb state, second halfword (R127): the link value is the next address with bit 0 set. -/
def execTBlSuffix (off11 : BitVec 11) (s : State) : Result :=
  branchTo (s.readReg .r14 + blLowOffset off11) (s.writeReg .r14 ((s.pc + 2) ||| 1))

end Sys2Proof.Machine
end

