-- ==== Sys2Proof/Machine/DataProcessing.lean ====
section
/-! DEFINITION. SUB, MOV, CMP, CMN with immediate and register operands (spec 41_data_processing.md). -/

namespace Sys2Proof.Machine

/-- Where the result of SUB and MOV goes: a register (R137), the pc (R138), or pc and CPSR, the exception return
(R139). -/
def finishResult (sBit : Bool) (rd : RegNum) (x : Alu) (s : State) : Result :=
  if rd = .r15 then
    if sBit then exceptionReturn x.result s else branchTo x.result s
  else
    let written := s.writeReg rd x.result
    advance 4 (if sBit then written.setCpsr (s.cpsr.setNZCV x) else written)

/-- The result of MOV: C is the shifter carry, V unchanged (R141). -/
def moveFlags (b : Word) (carry : Bool) (p : Psr) : Alu :=
  { result := b, c := carry, v := p.v }

/-- CMP and CMN write the four flags and nothing else (R142, R143). -/
def finishCompare (x : Alu) (s : State) : Result :=
  advance 4 (s.setCpsr (s.cpsr.setNZCV x))

/-- SUB, immediate (R140). -/
def execSubImm (c : Cond) (sBit : Bool) (rn rd : RegNum) (rot : BitVec 4) (imm8 : BitVec 8) (s : State) : Result :=
  conditional c s (finishResult sBit rd (subFlags (s.readReg rn) (rotatedImm rot imm8)) s)

/-- SUB, register (R140). -/
def execSubReg (c : Cond) (sBit : Bool) (rn rd rm : RegNum) (s : State) : Result :=
  conditional c s (finishResult sBit rd (subFlags (s.readReg rn) (s.readReg rm)) s)

/-- MOV, immediate (R141). -/
def execMovImm (c : Cond) (sBit : Bool) (rd : RegNum) (rot : BitVec 4) (imm8 : BitVec 8) (s : State) : Result :=
  conditional c s (finishResult sBit rd (moveFlags (rotatedImm rot imm8) (immCarry rot imm8 s.cpsr) s.cpsr) s)

/-- MOV, register: no shift, so C is unchanged (R136, R141). -/
def execMovReg (c : Cond) (sBit : Bool) (rd rm : RegNum) (s : State) : Result :=
  conditional c s (finishResult sBit rd (moveFlags (s.readReg rm) s.cpsr.c s.cpsr) s)

/-- CMP, immediate (R142). -/
def execCmpImm (c : Cond) (rn : RegNum) (rot : BitVec 4) (imm8 : BitVec 8) (s : State) : Result :=
  conditional c s (finishCompare (subFlags (s.readReg rn) (rotatedImm rot imm8)) s)

/-- CMP, register (R142). -/
def execCmpReg (c : Cond) (rn rm : RegNum) (s : State) : Result :=
  conditional c s (finishCompare (subFlags (s.readReg rn) (s.readReg rm)) s)

/-- CMN, immediate (R143). -/
def execCmnImm (c : Cond) (rn : RegNum) (rot : BitVec 4) (imm8 : BitVec 8) (s : State) : Result :=
  conditional c s (finishCompare (addFlags (s.readReg rn) (rotatedImm rot imm8)) s)

/-- CMN, register (R143). -/
def execCmnReg (c : Cond) (rn rm : RegNum) (s : State) : Result :=
  conditional c s (finishCompare (addFlags (s.readReg rn) (s.readReg rm)) s)

end Sys2Proof.Machine
end

