-- ==== Sys2Proof/Machine/LoadStore.lean ====
section
/-! DEFINITION. LDR, STR, LDRB, STRB, LDRH, STRH (spec 43_load_store.md). -/

namespace Sys2Proof.Machine

/-- LDR (R167). -/
def execLdr (c : Cond) (u : Dir) (rn rd : RegNum) (imm12 : BitVec 12) (s : State) : Result :=
  let a := wordFormAddress s u rn imm12
  conditional c s
    (if rd = .r15 then .refused .loadPc
     else access .word .read a s (fun t => advance 4 (t.writeReg rd (t.readWord a))))

/-- STR (R168). -/
def execStr (c : Cond) (u : Dir) (rn rd : RegNum) (imm12 : BitVec 12) (s : State) : Result :=
  let a := wordFormAddress s u rn imm12
  conditional c s
    (if rd = .r15 then .refused .storePc
     else access .word .write a s (fun t => advance 4 (t.storeWord a (t.readReg rd))))

/-- LDRB (R169): the byte zero-extended. -/
def execLdrb (c : Cond) (u : Dir) (rn rd : RegNum) (imm12 : BitVec 12) (s : State) : Result :=
  let a := wordFormAddress s u rn imm12
  conditional c s
    (if rd = .r15 then .refused .loadPc
     else access .byte .read a s (fun t => advance 4 (t.writeReg rd ((t.readByte a).setWidth 32))))

/-- STRB (R170): the low byte of the register. -/
def execStrb (c : Cond) (u : Dir) (rn rd : RegNum) (imm12 : BitVec 12) (s : State) : Result :=
  let a := wordFormAddress s u rn imm12
  conditional c s
    (if rd = .r15 then .refused .storePc
     else access .byte .write a s (fun t => advance 4 (t.storeByte a (slice (t.readReg rd) 0 8))))

/-- LDRH (R171): the halfword zero-extended. -/
def execLdrh (c : Cond) (u : Dir) (rn rd : RegNum) (immH immL : BitVec 4) (s : State) : Result :=
  let a := halfFormAddress s u rn immH immL
  conditional c s
    (if rd = .r15 then .refused .loadPc
     else access .half .read a s (fun t => advance 4 (t.writeReg rd ((t.readHalf a).setWidth 32))))

/-- STRH (R172): the low halfword of the register. -/
def execStrh (c : Cond) (u : Dir) (rn rd : RegNum) (immH immL : BitVec 4) (s : State) : Result :=
  let a := halfFormAddress s u rn immH immL
  conditional c s
    (if rd = .r15 then .refused .storePc
     else access .half .write a s (fun t => advance 4 (t.storeHalf a (slice (t.readReg rd) 0 16))))

end Sys2Proof.Machine
end

