-- ==== Sys2Proof/Machine/PsrTransfer.lean ====
section
/-! DEFINITION. MRS and MSR (spec 42_psr_transfer.md). -/

namespace Sys2Proof.Machine

/-- The PSR that MRS and MSR name: the CPSR, or the current mode's SPSR where it has one (R48, R155). -/
def State.selectedPsr (s : State) : PsrSel → Option Psr
  | .cpsr => some s.cpsr
  | .spsr => s.spsr.get s.mode

/-- The fields of `p` that `fmask` selects, replaced by those of `q`: bit 3 the flags, bit 0 the control bits; bits 2
and 1 select only reserved bits (R156, R158). -/
def Psr.writeFields (p : Psr) (fmask : BitVec 4) (q : Psr) : Psr :=
  let p := if fmask.getLsbD 3 then p.withFlagsOf q else p
  if fmask.getLsbD 0 then p.withControlOf q else p

/-- The fields a CPSR write reaches: in User mode the control bits are left alone (R158). -/
def State.cpsrMask (s : State) (fmask : BitVec 4) : BitVec 4 :=
  if s.mode = .usr then fmask &&& 0b1000 else fmask

/-- The CPSR half of `PsrWrite` (R158), and the advance after it: T may not change, an invalid mode is the stuck
state, pc unchanged (R46, R156; log 10). -/
def writeCpsr (fmask : BitVec 4) (operand : Word) (s : State) : Result :=
  let mask := s.cpsrMask fmask
  let written := s.cpsr.writeFields mask (Psr.ofWord operand)
  if written.t ≠ s.cpsr.t then .refused .tBitWrite
  else if mask.getLsbD 0 ∧ !written.validMode then .next (s.setCpsr written)
  else advance 4 (s.setCpsr written)

/-- `PsrWrite(R, fmask, operand)` of R158, and the advance after it. An SPSR takes any value. -/
def psrWrite (r : PsrSel) (fmask : BitVec 4) (operand : Word) (s : State) : Result :=
  match r with
  | .cpsr => writeCpsr fmask operand s
  | .spsr =>
    match s.spsr.get s.mode with
    | none => .refused .noSpsr
    | some p => advance 4 (s.setSpsr s.mode (p.writeFields fmask (Psr.ofWord operand)))

/-- MRS (R155): bits 27:8 of the value are free (log 4). -/
def execMrs (c : Cond) (r : PsrSel) (rd : RegNum) (s : State) : Result :=
  conditional c s
    (if rd = .r15 then .refused .mrsPc
     else
      match s.selectedPsr r with
      | none => .refused .noSpsr
      | some p => advance 4 (s.countDraw.writeReg rd (p.toWord (Config.freeReserved s.draws))))

/-- MSR, register operand (R156). -/
def execMsrReg (c : Cond) (r : PsrSel) (fmask : BitVec 4) (rm : RegNum) (s : State) : Result :=
  conditional c s (if rm = .r15 then .refused .msrPc else psrWrite r fmask (s.readReg rm) s)

/-- MSR, immediate operand (R157). -/
def execMsrImm (c : Cond) (r : PsrSel) (fmask : BitVec 4) (rot : BitVec 4) (imm8 : BitVec 8) (s : State) : Result :=
  conditional c s (psrWrite r fmask (rotatedImm rot imm8) s)

end Sys2Proof.Machine
end

