-- ==== Sys2Proof/Machine/Traps.lean ====
section
/-! DEFINITION. SWI in both states and the undefined-instruction space (spec 44_swi_and_undefined.md). -/

namespace Sys2Proof.Machine

/-- SWI, ARM state (R180): the comment field is ignored. -/
def execSwi (c : Cond) (_comment : BitVec 24) (s : State) : Result :=
  conditional c s (.next (takeException .swi (s.pc + 4) s))

/-- The undefined-instruction space (R182): the bits outside the pattern are ignored. -/
def execUnd (c : Cond) (_high : BitVec 20) (_low : BitVec 4) (s : State) : Result :=
  conditional c s (.next (takeException .undefined (s.pc + 4) s))

/-- SWI, Thumb state (R181). -/
def execTSwi (_value8 : BitVec 8) (s : State) : Result :=
  .next (takeException .swi (s.pc + 2) s)

end Sys2Proof.Machine
end

