-- ==== Sys2Proof/Machine/Dispatch.lean ====
section
/-! DEFINITION. The meaning of each instruction: one arm per constructor of Instr. -/

namespace Sys2Proof.Machine

def exec (i : Instr) (s : State) : Host.Outcome State Fault Refusal :=
  match i with
  -- ARM state
  | .bx c rm => Sys2Proof.Machine.execBx c rm s
  | .mrs c r rd => Sys2Proof.Machine.execMrs c r rd s
  | .msrReg c r fmask rm => Sys2Proof.Machine.execMsrReg c r fmask rm s
  | .msrImm c r fmask rot imm8 => Sys2Proof.Machine.execMsrImm c r fmask rot imm8 s
  | .ldrh c u rn rd immH immL => Sys2Proof.Machine.execLdrh c u rn rd immH immL s
  | .strh c u rn rd immH immL => Sys2Proof.Machine.execStrh c u rn rd immH immL s
  | .subImm c sBit rn rd rot imm8 => Sys2Proof.Machine.execSubImm c sBit rn rd rot imm8 s
  | .subReg c sBit rn rd rm => Sys2Proof.Machine.execSubReg c sBit rn rd rm s
  | .movImm c sBit rd rot imm8 => Sys2Proof.Machine.execMovImm c sBit rd rot imm8 s
  | .movReg c sBit rd rm => Sys2Proof.Machine.execMovReg c sBit rd rm s
  | .cmpImm c rn rot imm8 => Sys2Proof.Machine.execCmpImm c rn rot imm8 s
  | .cmpReg c rn rm => Sys2Proof.Machine.execCmpReg c rn rm s
  | .cmnImm c rn rot imm8 => Sys2Proof.Machine.execCmnImm c rn rot imm8 s
  | .cmnReg c rn rm => Sys2Proof.Machine.execCmnReg c rn rm s
  | .ldr c u rn rd imm12 => Sys2Proof.Machine.execLdr c u rn rd imm12 s
  | .str c u rn rd imm12 => Sys2Proof.Machine.execStr c u rn rd imm12 s
  | .ldrb c u rn rd imm12 => Sys2Proof.Machine.execLdrb c u rn rd imm12 s
  | .strb c u rn rd imm12 => Sys2Proof.Machine.execStrb c u rn rd imm12 s
  | .und c high low => Sys2Proof.Machine.execUnd c high low s
  | .b c imm24 => Sys2Proof.Machine.execB c imm24 s
  | .bl c imm24 => Sys2Proof.Machine.execBl c imm24 s
  | .swi c comment => Sys2Proof.Machine.execSwi c comment s
  -- Thumb state
  | .tSwi value8 => Sys2Proof.Machine.execTSwi value8 s
  | .tBcond c soff8 => Sys2Proof.Machine.execTBcond c soff8 s
  | .tBx rm => Sys2Proof.Machine.execTBx rm s
  | .tB off11 => Sys2Proof.Machine.execTB off11 s
  | .tBlPrefix off11 => Sys2Proof.Machine.execTBlPrefix off11 s
  | .tBlSuffix off11 => Sys2Proof.Machine.execTBlSuffix off11 s

end Sys2Proof.Machine
end

