-- ==== Sys2Proof/Machine/Step.lean ====
section
/-! DEFINITION. One step of the machine (spec 60_exceptions.md R209). -/

namespace Sys2Proof.Machine

/-- One step: the boundary, the fetch, the instruction (R209). Steps 6 and 7 of R209, the condition check and the
instruction's rule, are `exec`. -/
def step (s : State) : Host.Outcome State Fault Refusal :=
  match boundary s with
  | .taken t => .next t
  | .stuck => .fault .unrecoverable
  | .run t =>
    match fetchInstr t with
    | .aborted u => .next u
    | .refused r => .refused r
    | .got i u => exec i u

/-- `s` with one instruction placed where step fetches next (log 13). -/
def State.withFetchWord (s : State) (nbits w : Nat) : State :=
  placeInstr s nbits w

end Sys2Proof.Machine
end

