-- ==== Sys2Proof/Safety.lean ====
section
/-! DEFINITION. The terms claims use: what a good state is, when a step runs an instruction, and what an instruction
leaves unchanged. -/

namespace Sys2Proof.Machine

/-! ## Good states -/

/-- Every step keeps this: memory and the marks are in canonical form, and the pc is aligned for the operating state
(20_memory.md R60, 10_state.md R28, R29). -/
structure State.Inv (s : State) : Prop where
  mem : Memory.wf s.mem
  stored : Marks.wf s.stored
  pc : pcAligned s.cpsr.t s.pc = true

/-- The CPSR holds a mode number (R45, R46): the state is not stuck. -/
def State.validMode (s : State) : Prop :=
  s.cpsr.validMode = true

/-- No reset and no unmasked interrupt at this boundary (R209 steps 1 to 3). -/
structure State.quiet (s : State) : Prop where
  noReset : s.levels.nReset = true
  noFiq : s.levels.nFiq = true ∨ s.cpsr.f = true
  noIrq : s.levels.nIrq = true ∨ s.cpsr.i = true

/-- The fetch of this step goes through: not aborted, admitted, no byte of it stored to (R209 step 4, R81). -/
structure State.fetches (s : State) : Prop where
  noAbort : s.abortAnswer = false
  admitted : s.admits s.pc s.fetchSize .fetch = true
  notStored : s.isStored s.pc s.fetchSize = false

/-- A step is safe when it answers a next state: it neither stops the machine for good nor is refused (R11). Whether
reaching an exception handler counts as wrong is for a claim to say. -/
def SafeStep (s : State) : Prop :=
  ∃ t, step s = .next t

/-! ## Frames -/

/-- Every physical register but those listed is unchanged. -/
def RegsKept (but : List PhysReg) (s t : State) : Prop :=
  ∀ p, p ∉ but → t.getPhys p = s.getPhys p

/-- Every byte of memory reads as before, and no further byte is marked as stored to. -/
def MemoryKept (s t : State) : Prop :=
  (∀ a, t.mem.read a = s.mem.read a) ∧ t.stored = s.stored

/-- The platform's parameters are unchanged: byte order, memory map, declared text (R64, R75, R81). -/
def PlatformKept (s t : State) : Prop :=
  t.bigend = s.bigend ∧ t.windows = s.windows ∧ t.text = s.text

/-- The inputs to come are unchanged. -/
def InputsKept (s t : State) : Prop :=
  t.pins = s.pins ∧ t.aborts = s.aborts

/-- The bits I, F, T and M of the CPSR are unchanged (R42). -/
def ControlKept (s t : State) : Prop :=
  t.cpsr.i = s.cpsr.i ∧ t.cpsr.f = s.cpsr.f ∧ t.cpsr.t = s.cpsr.t ∧ t.cpsr.m = s.cpsr.m

/-- The flags of the CPSR are unchanged. -/
def FlagsKept (s t : State) : Prop :=
  t.cpsr.n = s.cpsr.n ∧ t.cpsr.z = s.cpsr.z ∧ t.cpsr.c = s.cpsr.c ∧ t.cpsr.v = s.cpsr.v

/-- Everything but the registers listed, the pc and the CPSR is unchanged. -/
structure OthersKept (but : List PhysReg) (s t : State) : Prop where
  regs : RegsKept but s t
  spsr : t.spsr = s.spsr
  memory : MemoryKept s t
  platform : PlatformKept s t
  inputs : InputsKept s t
  draws : t.draws = s.draws

/-- The physical register a number names in the current mode, as a list for the frames: none for number 15. -/
def State.named (s : State) (i : RegNum) : List PhysReg :=
  (physReg s.mode i).toList

/-- `t` is `s` after the entry of exception `x` with link value `link` (R203): what R203 writes, and nothing else but
the inputs the step has used. -/
structure Entered (x : Exc) (link : Word) (s t : State) : Prop where
  link : t.getPhys (linkReg x.mode) = link
  spsr : t.spsr = s.spsr.set s.cpsr x.mode
  flags : FlagsKept s t
  mode : t.cpsr.m = x.mode.toBits
  thumb : t.cpsr.t = false
  irqMask : t.cpsr.i = true
  fiqMask : t.cpsr.f = (s.cpsr.f || x.masksFiq)
  pc : t.pc = x.vector
  regs : RegsKept [linkReg x.mode] s t
  memory : MemoryKept s t
  platform : PlatformKept s t

/-! ## The forms of an instruction, with the operand or address its rule names -/

/-- A rotated immediate (R95). -/
def immOperand (rot : BitVec 4) (imm8 : BitVec 8) : Word :=
  (imm8.setWidth 32).rotateRight (2 * rot.toNat)

/-- `i` is SUB with second operand `b` in state `s` (R140). -/
def SubForm (i : Instr) (c : Cond) (sBit : Bool) (rn rd : RegNum) (s : State) (b : Word) : Prop :=
  (∃ rot imm8, i = .subImm c sBit rn rd rot imm8 ∧ b = immOperand rot imm8)
    ∨ ∃ rm, i = .subReg c sBit rn rd rm ∧ b = s.readReg rm

/-- `i` is MOV with operand `b` and shifter carry `carry` in state `s` (R136, R141). -/
def MovForm (i : Instr) (c : Cond) (sBit : Bool) (rd : RegNum) (s : State) (b : Word) (carry : Bool) : Prop :=
  (∃ rot imm8, i = .movImm c sBit rd rot imm8 ∧ b = immOperand rot imm8
      ∧ carry = (if rot = 0 then s.cpsr.c else b.msb))
    ∨ ∃ rm, i = .movReg c sBit rd rm ∧ b = s.readReg rm ∧ carry = s.cpsr.c

/-- `i` is CMP with second operand `b` in state `s` (R142). -/
def CmpForm (i : Instr) (c : Cond) (rn : RegNum) (s : State) (b : Word) : Prop :=
  (∃ rot imm8, i = .cmpImm c rn rot imm8 ∧ b = immOperand rot imm8)
    ∨ ∃ rm, i = .cmpReg c rn rm ∧ b = s.readReg rm

/-- `i` is CMN with second operand `b` in state `s` (R143). -/
def CmnForm (i : Instr) (c : Cond) (rn : RegNum) (s : State) (b : Word) : Prop :=
  (∃ rot imm8, i = .cmnImm c rn rot imm8 ∧ b = immOperand rot imm8)
    ∨ ∃ rm, i = .cmnReg c rn rm ∧ b = s.readReg rm

/-- `i` is SUB or MOV with destination R15 and result `v` in state `s` (R138, R139). -/
def ToPcForm (i : Instr) (c : Cond) (sBit : Bool) (s : State) (v : Word) : Prop :=
  (∃ rn b, SubForm i c sBit rn .r15 s b ∧ v = s.readReg rn - b)
    ∨ ∃ carry, MovForm i c sBit .r15 s v carry

/-- `i` is MSR with operand `v` in state `s`, and not the refused register form with Rm = 15 (R156, R157). -/
def MsrForm (i : Instr) (c : Cond) (r : PsrSel) (fmask : BitVec 4) (s : State) (v : Word) : Prop :=
  (∃ rot imm8, i = .msrImm c r fmask rot imm8 ∧ v = immOperand rot imm8)
    ∨ ∃ rm, rm ≠ .r15 ∧ i = .msrReg c r fmask rm ∧ v = s.readReg rm

/-- `i` is a load of `n` bytes into Rd from address `a`, computed in state `s` (R165, R167, R169, R171). -/
def LoadForm (i : Instr) (c : Cond) (n : Size) (rd : RegNum) (s : State) (a : Word) : Prop :=
  (∃ u rn imm12, n = .word ∧ i = .ldr c u rn rd imm12 ∧ a = wordFormAddress s u rn imm12)
    ∨ (∃ u rn imm12, n = .byte ∧ i = .ldrb c u rn rd imm12 ∧ a = wordFormAddress s u rn imm12)
    ∨ ∃ u rn immH immL, n = .half ∧ i = .ldrh c u rn rd immH immL ∧ a = halfFormAddress s u rn immH immL

/-- `i` is a store of `n` bytes of Rd to address `a`, computed in state `s` (R165, R168, R170, R172). -/
def StoreForm (i : Instr) (c : Cond) (n : Size) (rd : RegNum) (s : State) (a : Word) : Prop :=
  (∃ u rn imm12, n = .word ∧ i = .str c u rn rd imm12 ∧ a = wordFormAddress s u rn imm12)
    ∨ (∃ u rn imm12, n = .byte ∧ i = .strb c u rn rd imm12 ∧ a = wordFormAddress s u rn imm12)
    ∨ ∃ u rn immH immL, n = .half ∧ i = .strh c u rn rd immH immL ∧ a = halfFormAddress s u rn immH immL

/-! ## Values in memory, byte by byte (R67, R68) -/

/-- The `n`-byte value at `a`, zero-extended, in the byte order in force (R65 to R67). -/
def State.valueAt (s : State) (n : Size) (a : Nat) : Word :=
  match n with
  | .byte => (s.mem.read a).setWidth 32
  | .half =>
    if s.bigend then (s.mem.read a ++ s.mem.read (a + 1)).setWidth 32
    else (s.mem.read (a + 1) ++ s.mem.read a).setWidth 32
  | .word =>
    if s.bigend then s.mem.read a ++ s.mem.read (a + 1) ++ s.mem.read (a + 2) ++ s.mem.read (a + 3)
    else s.mem.read (a + 3) ++ s.mem.read (a + 2) ++ s.mem.read (a + 1) ++ s.mem.read a

/-- Byte `k`, counted from the lowest address, of the low `n` bytes of `v` as memory holds them (R68). -/
def byteAt (big : Bool) (n : Size) (v : Word) (k : Nat) : Byte :=
  v.extractLsb' (8 * (if big then n.bytes - 1 - k else k)) 8

/-- The four flags as R137, R142 and R143 write them. -/
def FlagsAre (p : Psr) (result : Word) (c v : Bool) : Prop :=
  p.n = result.msb ∧ p.z = decide (result = 0) ∧ p.c = c ∧ p.v = v

/-- Signed overflow of a subtraction (R144). -/
def subOverflow (a b : Word) : Bool :=
  a.msb != b.msb && (a - b).msb != a.msb

/-- Signed overflow of an addition (R144). -/
def addOverflow (a b : Word) : Bool :=
  a.msb == b.msb && (a + b).msb != a.msb

/-- An exception has been taken from `s`: the CPSR is that of its entry and the pc its vector (R203). -/
def EntryFrom (x : Exc) (s t : State) : Prop :=
  t.cpsr = s.cpsr.onEntry x ∧ t.pc = x.vector

/-- The outcome of an instruction with one register blanked, for comparing two runs. -/
def blank (p : PhysReg) : Result → Result
  | .next t => .next (t.setPhys p 0)
  | .fault r => .fault r
  | .refused r => .refused r

end Sys2Proof.Machine

namespace Sys2Proof

/-! ## Instructions by what the spec says of whole groups -/


/-- The condition field of an ARM instruction (R91); a Thumb instruction is none. -/
def Instr.armCond : Instr → Option Cond
  | .bx c _ | .mrs c _ _ | .msrReg c _ _ _ | .msrImm c _ _ _ _ | .ldrh c _ _ _ _ _ | .strh c _ _ _ _ _
  | .subImm c _ _ _ _ _ | .subReg c _ _ _ _ | .movImm c _ _ _ _ | .movReg c _ _ _ | .cmpImm c _ _ _
  | .cmpReg c _ _ | .cmnImm c _ _ _ | .cmnReg c _ _ | .ldr c _ _ _ _ | .str c _ _ _ _ | .ldrb c _ _ _ _
  | .strb c _ _ _ _ | .und c _ _ | .b c _ | .bl c _ | .swi c _ => some c
  | .tSwi _ | .tBcond _ _ | .tBx _ | .tB _ | .tBlPrefix _ | .tBlSuffix _ => none

/-- The stores (R168, R170, R172). -/
def Instr.isStore : Instr → Bool
  | .str _ _ _ _ _ | .strb _ _ _ _ _ | .strh _ _ _ _ _ _ => true
  | .bx _ _ | .mrs _ _ _ | .msrReg _ _ _ _ | .msrImm _ _ _ _ _ | .ldrh _ _ _ _ _ _
  | .subImm _ _ _ _ _ _ | .subReg _ _ _ _ _ | .movImm _ _ _ _ _ | .movReg _ _ _ _ | .cmpImm _ _ _ _
  | .cmpReg _ _ _ | .cmnImm _ _ _ _ | .cmnReg _ _ _ | .ldr _ _ _ _ _ | .ldrb _ _ _ _ _
  | .und _ _ _ | .b _ _ | .bl _ _ | .swi _ _
  | .tSwi _ | .tBcond _ _ | .tBx _ | .tB _ | .tBlPrefix _ | .tBlSuffix _ => false

/-- The exception-return form: SUB or MOV with S = 1 and destination R15 (R139, R221). -/
def Instr.isExceptionReturn : Instr → Bool
  | .subImm _ s _ rd _ _ => s && rd == .r15
  | .subReg _ s _ rd _ => s && rd == .r15
  | .movImm _ s rd _ _ => s && rd == .r15
  | .movReg _ s rd _ => s && rd == .r15
  | .bx _ _ | .mrs _ _ _ | .msrReg _ _ _ _ | .msrImm _ _ _ _ _ | .ldrh _ _ _ _ _ _ | .strh _ _ _ _ _ _
  | .cmpImm _ _ _ _ | .cmpReg _ _ _ | .cmnImm _ _ _ _ | .cmnReg _ _ _ | .ldr _ _ _ _ _ | .str _ _ _ _ _
  | .ldrb _ _ _ _ _ | .strb _ _ _ _ _ | .und _ _ _ | .b _ _ | .bl _ _ | .swi _ _
  | .tSwi _ | .tBcond _ _ | .tBx _ | .tB _ | .tBlPrefix _ | .tBlSuffix _ => false

/-- BX in either state: the instruction that carries the operating state in its operand (R44, R120, R121). -/
def Instr.isExchange : Instr → Bool
  | .bx _ _ | .tBx _ => true
  | .mrs _ _ _ | .msrReg _ _ _ _ | .msrImm _ _ _ _ _ | .ldrh _ _ _ _ _ _ | .strh _ _ _ _ _ _
  | .subImm _ _ _ _ _ _ | .subReg _ _ _ _ _ | .movImm _ _ _ _ _ | .movReg _ _ _ _ | .cmpImm _ _ _ _
  | .cmpReg _ _ _ | .cmnImm _ _ _ _ | .cmnReg _ _ _ | .ldr _ _ _ _ _ | .str _ _ _ _ _ | .ldrb _ _ _ _ _
  | .strb _ _ _ _ _ | .und _ _ _ | .b _ _ | .bl _ _ | .swi _ _
  | .tSwi _ | .tBcond _ _ | .tB _ | .tBlPrefix _ | .tBlSuffix _ => false

/-- A write of the CPSR's control field: MSR naming the CPSR with `fmask[0]` set (R158). -/
def Instr.writesControl : Instr → Bool
  | .msrReg _ r fmask _ => r == .cpsr && fmask.getLsbD 0
  | .msrImm _ r fmask _ _ => r == .cpsr && fmask.getLsbD 0
  | .bx _ _ | .mrs _ _ _ | .ldrh _ _ _ _ _ _ | .strh _ _ _ _ _ _ | .subImm _ _ _ _ _ _ | .subReg _ _ _ _ _
  | .movImm _ _ _ _ _ | .movReg _ _ _ _ | .cmpImm _ _ _ _ | .cmpReg _ _ _ | .cmnImm _ _ _ _ | .cmnReg _ _ _
  | .ldr _ _ _ _ _ | .str _ _ _ _ _ | .ldrb _ _ _ _ _ | .strb _ _ _ _ _ | .und _ _ _ | .b _ _ | .bl _ _
  | .swi _ _ | .tSwi _ | .tBcond _ _ | .tBx _ | .tB _ | .tBlPrefix _ | .tBlSuffix _ => false

end Sys2Proof
end

