-- ==== Sys2Proof/Certificates/Slice0/Obligations.lean ====
section
/-! DEFINITION. The statements about the model, for the provers. Each docstring names the rules of spec/ it is about. -/

open Sys2Proof Sys2Proof.Machine

/-! ## Encoding and decoding -/

/-- Decoding an encoded well-formed instruction gives it back: no bit of an encoding is dropped (R94, R98, R100,
R101). The encodings are the spec's from general knowledge (log 17). -/
def Obligations.DecodeOfEncodeIsTheInstruction : Prop :=
  ∀ i : Instr, i.wellFormed = true → (encode i).decode = .ok i

/-- A word or halfword that decodes is the encoding of what it decodes to, and that is well-formed: each word has one
meaning (R100, R101). The encodings are the spec's from general knowledge (log 17). -/
def Obligations.EncodeOfDecodeIsTheWord : Prop :=
  (∀ (w : Word) (i : Instr), decodeArm w = .ok i → encode i = .arm w ∧ i.wellFormed = true)
    ∧ ∀ (h : Half) (i : Instr), decodeThumb h = .ok i → encode i = .thumb h ∧ i.wellFormed = true

/-- At most one of the rows 2 to 23 of R100 accepts a word. The spec marks this as derived and its patterns as general
knowledge (log 17). -/
def Obligations.ArmRowsArePairwiseDisjoint : Prop :=
  ∀ (w : Word) (r q : Row 32 ArmForm), r ∈ armTable → q ∈ armTable →
    r.accepts w = true → q.accepts w = true → r = q

/-- The condition codes of R92, and the value 0b1111 refused. The table is the spec's from general knowledge (log 17).
-/
def Obligations.ConditionCodesTestTheFlags : Prop :=
  (∀ p : Psr,
    (condPassed .eq p = true ↔ p.z = true) ∧ (condPassed .ne p = true ↔ p.z = false)
    ∧ (condPassed .cs p = true ↔ p.c = true) ∧ (condPassed .cc p = true ↔ p.c = false)
    ∧ (condPassed .mi p = true ↔ p.n = true) ∧ (condPassed .pl p = true ↔ p.n = false)
    ∧ (condPassed .vs p = true ↔ p.v = true) ∧ (condPassed .vc p = true ↔ p.v = false)
    ∧ (condPassed .hi p = true ↔ p.c = true ∧ p.z = false)
    ∧ (condPassed .ls p = true ↔ p.c = false ∨ p.z = true)
    ∧ (condPassed .ge p = true ↔ p.n = p.v) ∧ (condPassed .lt p = true ↔ p.n ≠ p.v)
    ∧ (condPassed .gt p = true ↔ p.z = false ∧ p.n = p.v)
    ∧ (condPassed .le p = true ↔ p.z = true ∨ p.n ≠ p.v)
    ∧ condPassed .al p = true)
  ∧ ([Cond.eq, .ne, .cs, .cc, .mi, .pl, .vs, .vc, .hi, .ls, .ge, .lt, .gt, .le, .al].map Cond.toBits
      = [0b0000, 0b0001, 0b0010, 0b0011, 0b0100, 0b0101, 0b0110, 0b0111, 0b1000, 0b1001, 0b1010, 0b1011, 0b1100,
          0b1101, 0b1110])
  ∧ (∀ (w : Word) (i : Instr) (c : Cond), decodeArm w = .ok i → i.armCond = some c → w.extractLsb' 28 4 = c.toBits)
  ∧ ∀ w : Word, w.extractLsb' 28 4 = 0b1111#4 → decodeArm w = .reject .condNV

/-- Words written out from the spec's encodings (95_test_vectors.md) decode to the instructions they stand for. The
encodings are the spec's from general knowledge (log 17). -/
def Obligations.SpecWordsDecode : Prop :=
  decodeArm 0xE12FFF10 = .ok (.bx .al .r0)
  ∧ decodeArm 0xE25EF004 = .ok (.subImm .al true .r14 .r15 0 4)
  ∧ decodeArm 0xE1B0F00E = .ok (.movReg .al true .r15 .r14)
  ∧ decodeArm 0xE328F20F = .ok (.msrImm .al .cpsr 0b1000 2 0x0F)
  ∧ decodeArm 0xE5110004 = .ok (.ldr .al .down .r1 .r0 4)
  ∧ decodeArm 0xE1D101B2 = .ok (.ldrh .al .up .r1 .r0 1 2)
  ∧ decodeArm 0x1AFFFFFD = .ok (.b .ne 0xFFFFFD)
  ∧ decodeThumb 0xD101 = .ok (.tBcond .ne 1)
  ∧ decodeThumb 0xF806 = .ok (.tBlSuffix 6)
  ∧ decodeArm 0xE0800001 = .reject .notSpecified
  ∧ decodeThumb 0xDE00 = .reject .thumbCond1110

/-! ## State: banks, status registers, memory -/

/-- The bank table of R31 and what register number 15 reads as (R29). What number 15 reads as is the spec's decision
D8, from general knowledge (log 17). -/
def Obligations.RegisterNumbersNameTheModesBank : Prop :=
  (∀ m : Mode,
    [RegNum.r0, .r1, .r2, .r3, .r4, .r5, .r6, .r7].map (physReg m)
      = [some .r0, some .r1, some .r2, some .r3, some .r4, some .r5, some .r6, some .r7]
    ∧ (m = .fiq → [RegNum.r8, .r9, .r10, .r11, .r12].map (physReg m)
        = [some .r8Fiq, some .r9Fiq, some .r10Fiq, some .r11Fiq, some .r12Fiq])
    ∧ (m ≠ .fiq → [RegNum.r8, .r9, .r10, .r11, .r12].map (physReg m)
        = [some .r8, some .r9, some .r10, some .r11, some .r12])
    ∧ physReg m .r15 = none)
  ∧ ([Mode.usr, .sys, .fiq, .irq, .svc, .abt, .und].map (physReg · .r13)
      = [some .r13, some .r13, some .r13Fiq, some .r13Irq, some .r13Svc, some .r13Abt, some .r13Und])
  ∧ ([Mode.usr, .sys, .fiq, .irq, .svc, .abt, .und].map (physReg · .r14)
      = [some .r14, some .r14, some .r14Fiq, some .r14Irq, some .r14Svc, some .r14Abt, some .r14Und])
  ∧ ∀ s : State, s.readReg .r15 = if s.cpsr.t then s.pc + 4 else s.pc + 8

/-- The status-register format of R36: the twelve defined bits stand where R36 puts them and nothing else is kept. The
places of N, Z, C and V are the spec's from general knowledge, those of I, F and T derived (log 17). -/
def Obligations.PsrFormatHoldsTwelveBits : Prop :=
  (∀ (p : Psr) (r : BitVec 20), Psr.ofWord (p.toWord r) = p ∧ (p.toWord r).extractLsb' 8 20 = r)
  ∧ (∀ w : Word, (Psr.ofWord w).toWord (w.extractLsb' 8 20) = w)
  ∧ ∀ (p : Psr) (r : BitVec 20),
      (p.toWord r).getLsbD 31 = p.n ∧ (p.toWord r).getLsbD 30 = p.z ∧ (p.toWord r).getLsbD 29 = p.c
      ∧ (p.toWord r).getLsbD 28 = p.v ∧ (p.toWord r).getLsbD 7 = p.i ∧ (p.toWord r).getLsbD 6 = p.f
      ∧ (p.toWord r).getLsbD 5 = p.t ∧ (p.toWord r).extractLsb' 0 5 = p.m

/-- The mode table of R45 and the count of the invalid values (R46). -/
def Obligations.SevenModeNumbersAreValid : Prop :=
  (∀ (b : BitVec 5) (m : Mode), Mode.ofBits b = some m ↔ b = m.toBits)
  ∧ ([Mode.usr, .fiq, .irq, .svc, .abt, .und, .sys].map Mode.toBits
      = [0b10000, 0b10001, 0b10010, 0b10011, 0b10111, 0b11011, 0b11111])
  ∧ ((List.range 32).filter (fun n => (Mode.ofBits (BitVec.ofNat 5 n)).isNone)).length = 25

/-- The two byte orders of a word in memory (R65, R66). -/
def Obligations.WordBytesLieInTheByteOrder : Prop :=
  ∀ (s : State) (a : Word), a.toNat % 4 = 0 →
    (s.bigend = true →
      s.mem.read a.toNat = (s.readWord a).extractLsb' 24 8 ∧ s.mem.read (a.toNat + 1) = (s.readWord a).extractLsb' 16 8
      ∧ s.mem.read (a.toNat + 2) = (s.readWord a).extractLsb' 8 8
      ∧ s.mem.read (a.toNat + 3) = (s.readWord a).extractLsb' 0 8)
    ∧ (s.bigend = false →
      s.mem.read a.toNat = (s.readWord a).extractLsb' 0 8 ∧ s.mem.read (a.toNat + 1) = (s.readWord a).extractLsb' 8 8
      ∧ s.mem.read (a.toNat + 2) = (s.readWord a).extractLsb' 16 8
      ∧ s.mem.read (a.toNat + 3) = (s.readWord a).extractLsb' 24 8)

/-- A stored value reads back at its width, in either byte order, and no other byte changes (R67, R68). The spec marks
both rules as derived; the byte order of a halfword is general knowledge (log 17). -/
def Obligations.MemoryReadsBackWhatWasStored : Prop :=
  ∀ (s : State) (a v : Word), Memory.wf s.mem →
    (s.storeByte a (v.extractLsb' 0 8)).readByte a = v.extractLsb' 0 8
    ∧ (∀ x, x ≠ a.toNat → (s.storeByte a (v.extractLsb' 0 8)).mem.read x = s.mem.read x)
    ∧ (a.toNat % 2 = 0 → (s.storeHalf a (v.extractLsb' 0 16)).readHalf a = v.extractLsb' 0 16
        ∧ ∀ x, x < a.toNat ∨ a.toNat + 2 ≤ x → (s.storeHalf a (v.extractLsb' 0 16)).mem.read x = s.mem.read x)
    ∧ (a.toNat % 4 = 0 → (s.storeWord a v).readWord a = v
        ∧ ∀ x, x < a.toNat ∨ a.toNat + 4 ≤ x → (s.storeWord a v).mem.read x = s.mem.read x)

/-- Narrow reads of a stored word, in both byte orders (R69), for every word. The spec marks the rule as derived (log
17). -/
def Obligations.NarrowReadsOfAStoredWord : Prop :=
  ∀ (s : State) (a v : Word), Memory.wf s.mem → a.toNat % 4 = 0 →
    let t := s.storeWord a v
    (s.bigend = false → t.readByte a = v.extractLsb' 0 8 ∧ t.readByte (a + 3) = v.extractLsb' 24 8
      ∧ t.readHalf a = v.extractLsb' 0 16 ∧ t.readHalf (a + 2) = v.extractLsb' 16 16)
    ∧ (s.bigend = true → t.readByte a = v.extractLsb' 24 8 ∧ t.readByte (a + 3) = v.extractLsb' 0 8
      ∧ t.readHalf a = v.extractLsb' 16 16 ∧ t.readHalf (a + 2) = v.extractLsb' 0 16)

/-- In Thumb state bit 1 of the pc selects the halfword of the word that is the instruction (R71). The spec marks the
two halves selected as derived (log 17). -/
def Obligations.ThumbFetchSelectsAHalfword : Prop :=
  ∀ s : State, s.pc.toNat % 2 = 0 →
    let w := s.readWord (s.pc &&& 0xFFFFFFFC)
    s.readHalf s.pc =
      (if s.pc.getLsbD 1 = s.bigend then w.extractLsb' 0 16 else w.extractLsb' 16 16)

/-- Two canonical memories that read alike are the same list (log 5: the model's form). -/
def Obligations.CanonicalMemoryIsUnique : Prop :=
  ∀ m n : Memory, Memory.wf m → Memory.wf n → (∀ a, m.read a = n.read a) → m = n

/-! ## Data processing -/

/-- The arithmetic of R144: result, carry, no-borrow, and V exactly when the signed result does not fit. The reading
of V is marked derived in the spec (log 17). -/
def Obligations.ArithmeticFlagsAreExact : Prop :=
  ∀ a b : Word,
    (addFlags a b).result.toNat = (a.toNat + b.toNat) % 2 ^ 32
    ∧ ((addFlags a b).c = true ↔ 2 ^ 32 ≤ a.toNat + b.toNat)
    ∧ ((addFlags a b).v = true ↔ a.toInt + b.toInt < -2 ^ 31 ∨ 2 ^ 31 ≤ a.toInt + b.toInt)
    ∧ ((addFlags a b).v = true ↔ a.msb = b.msb ∧ (addFlags a b).result.msb ≠ a.msb)
    ∧ ((subFlags a b).result.toNat : Int) = ((a.toNat : Int) - b.toNat) % 2 ^ 32
    ∧ ((subFlags a b).c = true ↔ b.toNat ≤ a.toNat)
    ∧ ((subFlags a b).v = true ↔ a.toInt - b.toInt < -2 ^ 31 ∨ 2 ^ 31 ≤ a.toInt - b.toInt)
    ∧ ((subFlags a b).v = true ↔ a.msb ≠ b.msb ∧ (subFlags a b).result.msb ≠ a.msb)

/-- SUB, both operand forms, destination not R15: result, flags, frame (R137, R140). At the top of the space the advance
is refused (R30, the spec's decision D18; log 19). The operand forms and what number 15 reads as are the spec's from
general knowledge (log 17). -/
def Obligations.SubWritesItsDestination : Prop :=
  ∀ (i : Instr) (c : Cond) (sBit : Bool) (rn rd : RegNum) (s : State) (b : Word),
    SubForm i c sBit rn rd s b → condPassed c s.cpsr = true → rd ≠ .r15 →
    (s.pc.toNat + 4 < 2 ^ 32 → ∃ t, exec i s = .next t
      ∧ t.readReg rd = s.readReg rn - b ∧ t.pc = s.pc + 4
      ∧ ControlKept s t ∧ OthersKept (s.named rd) s t
      ∧ (sBit = false → FlagsKept s t)
      ∧ (sBit = true → FlagsAre t.cpsr (s.readReg rn - b)
          (decide (b.toNat ≤ (s.readReg rn).toNat)) (subOverflow (s.readReg rn) b)))
    ∧ (2 ^ 32 ≤ s.pc.toNat + 4 → exec i s = .refused .pcWrap)

/-- MOV, both operand forms, destination not R15: result, flags, frame (R136, R137, R141). At the top of the space the
advance is refused (R30, the spec's decision D18; log 19). The operand forms and the carry of a rotated immediate are
the spec's from general knowledge (log 17). -/
def Obligations.MovWritesItsDestination : Prop :=
  ∀ (i : Instr) (c : Cond) (sBit : Bool) (rd : RegNum) (s : State) (b : Word) (carry : Bool),
    MovForm i c sBit rd s b carry → condPassed c s.cpsr = true → rd ≠ .r15 →
    (s.pc.toNat + 4 < 2 ^ 32 → ∃ t, exec i s = .next t
      ∧ t.readReg rd = b ∧ t.pc = s.pc + 4
      ∧ ControlKept s t ∧ OthersKept (s.named rd) s t
      ∧ (sBit = false → FlagsKept s t)
      ∧ (sBit = true → FlagsAre t.cpsr b carry s.cpsr.v))
    ∧ (2 ^ 32 ≤ s.pc.toNat + 4 → exec i s = .refused .pcWrap)

/-- SUB and MOV with destination R15 and S = 0: a branch that leaves the CPSR alone (R138), refused when the result is
misaligned (R30). The form is the spec's from general knowledge, the refusal its decision D17 (log 17). -/
def Obligations.PcResultWithoutSIsABranch : Prop :=
  ∀ (i : Instr) (c : Cond) (s : State) (v : Word),
    ToPcForm i c false s v → condPassed c s.cpsr = true → s.cpsr.t = false →
    (v.toNat % 4 = 0 → exec i s = .next { s with pc := v })
    ∧ (v.toNat % 4 ≠ 0 → exec i s = .refused .misalignedBranchTarget)

/-- The exception-return form (R139): SUB and MOV with destination R15 and S = 1. An SPSR that holds no mode number
leaves the stuck state, which this model answers as a next state (log 10). That it is S with destination R15 that
restores the CPSR is the spec's from general knowledge; the refusals are its decisions D17 and D19 (log 17). -/
def Obligations.PcResultWithSIsTheExceptionReturn : Prop :=
  ∀ (i : Instr) (c : Cond) (s : State) (v : Word),
    ToPcForm i c true s v → condPassed c s.cpsr = true →
    (s.spsr.get s.mode = none → exec i s = .refused .noSpsr)
    ∧ ∀ p, s.spsr.get s.mode = some p →
      (p.validMode = false → exec i s = .next { s with cpsr := p } ∧ State.stuck { s with cpsr := p } = true)
      ∧ (p.validMode = true → p.t = false → v.toNat % 4 ≠ 0 → exec i s = .refused .misalignedBranchTarget)
      ∧ (p.validMode = true → p.t = true → v.toNat % 2 ≠ 0 → exec i s = .refused .misalignedBranchTarget)
      ∧ (p.validMode = true → p.t = false → v.toNat % 4 = 0 → exec i s = .next { s with cpsr := p, pc := v })
      ∧ (p.validMode = true → p.t = true → v.toNat % 2 = 0 → exec i s = .next { s with cpsr := p, pc := v })

/-- CMP and CMN, both operand forms: the four flags and nothing else (R142, R143). At the top of the space the advance
is refused (R30, the spec's decision D18; log 19). The operand forms are the spec's from general knowledge (log 17). -/
def Obligations.ComparesWriteOnlyTheFlags : Prop :=
  ∀ (i : Instr) (c : Cond) (rn : RegNum) (s : State) (b : Word),
    condPassed c s.cpsr = true →
    (CmpForm i c rn s b → s.pc.toNat + 4 < 2 ^ 32 →
      ∃ t, exec i s = .next t ∧ t.pc = s.pc + 4 ∧ ControlKept s t ∧ OthersKept [] s t
        ∧ FlagsAre t.cpsr (s.readReg rn - b) (decide (b.toNat ≤ (s.readReg rn).toNat)) (subOverflow (s.readReg rn) b))
    ∧ (CmnForm i c rn s b → s.pc.toNat + 4 < 2 ^ 32 →
      ∃ t, exec i s = .next t ∧ t.pc = s.pc + 4 ∧ ControlKept s t ∧ OthersKept [] s t
        ∧ FlagsAre t.cpsr (s.readReg rn + b) (decide (2 ^ 32 ≤ (s.readReg rn).toNat + b.toNat))
            (addOverflow (s.readReg rn) b))
    ∧ (CmpForm i c rn s b ∨ CmnForm i c rn s b → 2 ^ 32 ≤ s.pc.toNat + 4 → exec i s = .refused .pcWrap)

/-- A failed condition: whatever the ARM instruction, only the pc advances (R93). That a failed condition is a no-op
is the spec's decision D24, the refusal at the top of the space D18 (log 17, log 19). -/
def Obligations.FailedConditionOnlyAdvances : Prop :=
  ∀ (i : Instr) (c : Cond) (s : State),
    i.armCond = some c → condPassed c s.cpsr = false →
    (s.pc.toNat + 4 < 2 ^ 32 → exec i s = .next { s with pc := s.pc + 4 })
    ∧ (2 ^ 32 ≤ s.pc.toNat + 4 → exec i s = .refused .pcWrap)

/-! ## Branches -/

/-- BX, ARM state (R120). The two refusals are the spec's from general knowledge (D17; log 17). -/
def Obligations.BxInArmStateSetsThumbAndPc : Prop :=
  ∀ (c : Cond) (rm : RegNum) (s : State), condPassed c s.cpsr = true →
    (rm = .r15 → exec (.bx c rm) s = .refused .bxPc)
    ∧ (rm ≠ .r15 → (s.readReg rm).toNat % 4 = 2 → exec (.bx c rm) s = .refused .misalignedBranchTarget)
    ∧ (rm ≠ .r15 → (s.readReg rm).toNat % 4 ≠ 2 → ∃ t, exec (.bx c rm) s = .next t
        ∧ t.cpsr.t = decide ((s.readReg rm).toNat % 2 = 1)
        ∧ t.pc.toNat = (s.readReg rm).toNat - (s.readReg rm).toNat % 2
        ∧ FlagsKept s t ∧ t.cpsr.i = s.cpsr.i ∧ t.cpsr.f = s.cpsr.f ∧ t.cpsr.m = s.cpsr.m
        ∧ OthersKept [] s t)

/-- BX, Thumb state, every register number, R15 reading pc + 4 (R121). Number 15 as the operand is the spec's decision
D31 (log 17). -/
def Obligations.BxInThumbStateSetsThumbAndPc : Prop :=
  ∀ (rm : RegNum) (s : State), s.cpsr.t = true →
    (rm = .r15 → s.readReg rm = s.pc + 4)
    ∧ ((s.readReg rm).toNat % 4 = 2 → exec (.tBx rm) s = .refused .misalignedBranchTarget)
    ∧ ((s.readReg rm).toNat % 4 ≠ 2 → ∃ t, exec (.tBx rm) s = .next t
        ∧ t.cpsr.t = decide ((s.readReg rm).toNat % 2 = 1)
        ∧ t.pc.toNat = (s.readReg rm).toNat - (s.readReg rm).toNat % 2
        ∧ FlagsKept s t ∧ t.cpsr.i = s.cpsr.i ∧ t.cpsr.f = s.cpsr.f ∧ t.cpsr.m = s.cpsr.m
        ∧ OthersKept [] s t)

/-- B, ARM state: the target is pc + 8 plus the sign-extended word offset, modulo 2^32, and always word-aligned
(R122). The offset is the spec's from general knowledge (log 17). -/
def Obligations.ArmBranchAddsItsOffset : Prop :=
  ∀ (c : Cond) (imm24 : BitVec 24) (s : State),
    condPassed c s.cpsr = true → s.cpsr.t = false → s.pc.toNat % 4 = 0 →
    ∃ t, exec (.b c imm24) s = .next t
      ∧ t = { s with pc := t.pc } ∧ t.pc.toNat % 4 = 0
      ∧ (t.pc.toNat : Int) = ((s.pc.toNat : Int) + 8 + 4 * imm24.toInt) % 2 ^ 32

/-- BL, ARM state: the link register of the mode receives the return point (R123). The value linked is derived, the
offset general knowledge in the spec (log 17); at the top of the space the link wraps (log 20). -/
def Obligations.ArmBranchWithLinkWritesR14 : Prop :=
  ∀ (c : Cond) (imm24 : BitVec 24) (s : State),
    condPassed c s.cpsr = true → s.cpsr.t = false → s.pc.toNat % 4 = 0 →
    ∃ t, exec (.bl c imm24) s = .next t
      ∧ t.readReg .r14 = s.pc + 4 ∧ t.cpsr = s.cpsr ∧ OthersKept [linkReg s.mode] s t
      ∧ (t.pc.toNat : Int) = ((s.pc.toNat : Int) + 8 + 4 * imm24.toInt) % 2 ^ 32

/-- B<cond> and B, Thumb state (R124, R125). The offsets are the spec's from general knowledge (log 17). -/
def Obligations.ThumbBranchesAddTheirOffsets : Prop :=
  (∀ (c : Cond) (soff8 : BitVec 8) (s : State), s.cpsr.t = true → s.pc.toNat % 2 = 0 →
    (condPassed c s.cpsr = true → ∃ t, exec (.tBcond c soff8) s = .next t ∧ t = { s with pc := t.pc }
      ∧ (t.pc.toNat : Int) = ((s.pc.toNat : Int) + 4 + 2 * soff8.toInt) % 2 ^ 32)
    ∧ (condPassed c s.cpsr = false → s.pc.toNat + 2 < 2 ^ 32 →
        exec (.tBcond c soff8) s = .next { s with pc := s.pc + 2 })
    ∧ (condPassed c s.cpsr = false → 2 ^ 32 ≤ s.pc.toNat + 2 →
        exec (.tBcond c soff8) s = .refused .pcWrap))
  ∧ ∀ (off11 : BitVec 11) (s : State), s.cpsr.t = true → s.pc.toNat % 2 = 0 →
    ∃ t, exec (.tB off11) s = .next t ∧ t = { s with pc := t.pc }
      ∧ (t.pc.toNat : Int) = ((s.pc.toNat : Int) + 4 + 2 * off11.toInt) % 2 ^ 32

/-- The BL prefix, Thumb state (R126). At the top of the space the advance is refused (R30, the spec's decision D18; log
19). The arithmetic is the spec's from general knowledge (log 17). -/
def Obligations.ThumbBlPrefixWritesR14 : Prop :=
  ∀ (off11 : BitVec 11) (s : State),
    (s.pc.toNat + 2 < 2 ^ 32 → ∃ t, exec (.tBlPrefix off11) s = .next t
      ∧ t.pc = s.pc + 2 ∧ t.cpsr = s.cpsr ∧ OthersKept [linkReg s.mode] s t
      ∧ ((t.readReg .r14).toNat : Int) = ((s.pc.toNat : Int) + 4 + 4096 * off11.toInt) % 2 ^ 32)
    ∧ (2 ^ 32 ≤ s.pc.toNat + 2 → exec (.tBlPrefix off11) s = .refused .pcWrap)

/-- The BL suffix, Thumb state: the target from R14, the link value with bit 0 set (R127). The arithmetic and the link
value are the spec's from general knowledge (log 17, log 20). -/
def Obligations.ThumbBlSuffixBranchesAndLinks : Prop :=
  ∀ (off11 : BitVec 11) (s : State), s.cpsr.t = true → s.pc.toNat % 2 = 0 →
    ((s.readReg .r14).toNat % 2 = 0 → ∃ t, exec (.tBlSuffix off11) s = .next t
      ∧ t.pc.toNat = ((s.readReg .r14).toNat + 2 * off11.toNat) % 2 ^ 32
      ∧ t.cpsr = s.cpsr ∧ OthersKept [linkReg s.mode] s t
      ∧ (t.readReg .r14).toNat = (s.pc.toNat + 2) % 2 ^ 32 + 1)
    ∧ ((s.readReg .r14).toNat % 2 = 1 → exec (.tBlSuffix off11) s = .refused .misalignedBranchTarget)

/-- The two halves of a Thumb BL together: a call of pc + 4 plus a 22-bit halfword offset, linked to pc + 4 in Thumb
state (R126, R127). The arithmetic is the spec's from general knowledge (log 17, log 20). -/
def Obligations.ThumbBlPairCalls : Prop :=
  ∀ (hi lo : BitVec 11) (s : State), s.cpsr.t = true → s.pc.toNat % 2 = 0 → s.pc.toNat + 2 < 2 ^ 32 →
    ∃ t u, exec (.tBlPrefix hi) s = .next t ∧ exec (.tBlSuffix lo) t = .next u
      ∧ (u.pc.toNat : Int) = ((s.pc.toNat : Int) + 4 + 2 * (hi ++ lo).toInt) % 2 ^ 32
      ∧ (u.readReg .r14).toNat = (s.pc.toNat + 4) % 2 ^ 32 + 1
      ∧ u.cpsr = s.cpsr ∧ OthersKept [linkReg s.mode] s u

/-- Returning from a subroutine: `MOV PC, R14` after the ARM BL, `BX R14` after the Thumb BL (R128). Both returns are
the spec's from general knowledge (log 17). -/
def Obligations.SubroutineReturnsToTheLink : Prop :=
  (∀ (imm24 : BitVec 24) (s t : State), s.cpsr.t = false → s.pc.toNat % 4 = 0 →
    exec (.bl .al imm24) s = .next t →
    exec (.movReg .al false .r15 .r14) t = .next { t with pc := s.pc + 4 })
  ∧ ∀ (off11 : BitVec 11) (s t : State), s.cpsr.t = true → s.pc.toNat % 2 = 0 →
    exec (.tBlSuffix off11) s = .next t →
    exec (.tBx .r14) t = .next { t with pc := s.pc + 2 }

/-! ## Status register transfer -/

/-- MRS (R155): the twelve defined bits; bits 27:8 are free, so nothing is said of them. At the top of the space the
advance is refused (R30, the spec's decision D18; log 19). The instruction is the spec's from general knowledge; that
bits 27:8 are a draw is its decision D12 (log 4, log 17). -/
def Obligations.MrsReadsTheDefinedBits : Prop :=
  ∀ (c : Cond) (r : PsrSel) (rd : RegNum) (s : State), condPassed c s.cpsr = true →
    (rd = .r15 → exec (.mrs c r rd) s = .refused .mrsPc)
    ∧ (rd ≠ .r15 → r = .spsr → s.spsr.get s.mode = none → exec (.mrs c r rd) s = .refused .noSpsr)
    ∧ ∀ p, rd ≠ .r15 → (r = .cpsr ∧ p = s.cpsr ∨ r = .spsr ∧ s.spsr.get s.mode = some p) →
      (2 ^ 32 ≤ s.pc.toNat + 4 → exec (.mrs c r rd) s = .refused .pcWrap)
      ∧ (s.pc.toNat + 4 < 2 ^ 32 → ∃ t, exec (.mrs c r rd) s = .next t
        ∧ (t.readReg rd).getLsbD 31 = p.n ∧ (t.readReg rd).getLsbD 30 = p.z
        ∧ (t.readReg rd).getLsbD 29 = p.c ∧ (t.readReg rd).getLsbD 28 = p.v
        ∧ (t.readReg rd).getLsbD 7 = p.i ∧ (t.readReg rd).getLsbD 6 = p.f
        ∧ (t.readReg rd).getLsbD 5 = p.t ∧ (t.readReg rd).extractLsb' 0 5 = p.m
        ∧ t.pc = s.pc + 4 ∧ t.cpsr = s.cpsr ∧ t.spsr = s.spsr
        ∧ RegsKept (s.named rd) s t ∧ MemoryKept s t ∧ PlatformKept s t ∧ InputsKept s t)

/-- MSR to the CPSR, both operand forms (R156, R157, R158): the flags in any mode; the control bits in a privileged mode
only; T may not change; an invalid mode number leaves the stuck state, which this model answers as a next state with the
pc unchanged (log 10). At the top of the space the advance is refused (R30, the spec's decision D18; log 19). The
instruction is the spec's from general knowledge, what it refuses or ignores its decisions D9 to D11 (log 17). -/
def Obligations.MsrWritesTheCpsr : Prop :=
  (∀ (c : Cond) (r : PsrSel) (fmask : BitVec 4) (s : State), condPassed c s.cpsr = true →
    exec (.msrReg c r fmask .r15) s = .refused .msrPc)
  ∧ ∀ (i : Instr) (c : Cond) (fmask : BitVec 4) (s : State) (v : Word),
    MsrForm i c .cpsr fmask s v → condPassed c s.cpsr = true →
    let flagsDone := fun t : State =>
      (fmask.getLsbD 3 = false → FlagsKept s t)
      ∧ (fmask.getLsbD 3 = true → t.cpsr.n = v.getLsbD 31 ∧ t.cpsr.z = v.getLsbD 30 ∧ t.cpsr.c = v.getLsbD 29
          ∧ t.cpsr.v = v.getLsbD 28)
    let control := fmask.getLsbD 0 = true ∧ s.mode ≠ .usr
    (¬ control → s.pc.toNat + 4 < 2 ^ 32 → ∃ t, exec i s = .next t
      ∧ flagsDone t ∧ ControlKept s t ∧ t.pc = s.pc + 4 ∧ OthersKept [] s t)
    ∧ (¬ control → 2 ^ 32 ≤ s.pc.toNat + 4 → exec i s = .refused .pcWrap)
    ∧ (control → v.getLsbD 5 ≠ s.cpsr.t → exec i s = .refused .tBitWrite)
    ∧ (control → v.getLsbD 5 = s.cpsr.t → (Mode.ofBits (v.extractLsb' 0 5)).isSome = true → s.pc.toNat + 4 < 2 ^ 32 →
        ∃ t, exec i s = .next t ∧ flagsDone t
          ∧ t.cpsr.i = v.getLsbD 7 ∧ t.cpsr.f = v.getLsbD 6 ∧ t.cpsr.t = s.cpsr.t ∧ t.cpsr.m = v.extractLsb' 0 5
          ∧ t.pc = s.pc + 4 ∧ OthersKept [] s t)
    ∧ (control → v.getLsbD 5 = s.cpsr.t → (Mode.ofBits (v.extractLsb' 0 5)).isSome = true →
        2 ^ 32 ≤ s.pc.toNat + 4 → exec i s = .refused .pcWrap)
    ∧ (control → v.getLsbD 5 = s.cpsr.t → Mode.ofBits (v.extractLsb' 0 5) = none →
        ∃ t, exec i s = .next t ∧ t.stuck = true ∧ flagsDone t
          ∧ t.cpsr.i = v.getLsbD 7 ∧ t.cpsr.f = v.getLsbD 6 ∧ t.cpsr.t = s.cpsr.t ∧ t.cpsr.m = v.extractLsb' 0 5
          ∧ t.pc = s.pc ∧ OthersKept [] s t)

/-- MSR to the SPSR, both operand forms (R156, R157, R158): the selected fields of the current mode's SPSR take any
value; User and System mode have none. At the top of the space the advance is refused (R30, the spec's decision D18; log
19). The instruction is the spec's from general knowledge, the refusal its decision D19 (log 17). -/
def Obligations.MsrWritesTheSpsr : Prop :=
  ∀ (i : Instr) (c : Cond) (fmask : BitVec 4) (s : State) (v : Word),
    MsrForm i c .spsr fmask s v → condPassed c s.cpsr = true →
    (s.mode = .usr ∨ s.mode = .sys → exec i s = .refused .noSpsr)
    ∧ ∀ p, s.spsr.get s.mode = some p →
      (2 ^ 32 ≤ s.pc.toNat + 4 → exec i s = .refused .pcWrap)
      ∧ (s.pc.toNat + 4 < 2 ^ 32 → ∃ t q, exec i s = .next t ∧ t.spsr.get s.mode = some q
        ∧ (fmask.getLsbD 3 = true → q.n = v.getLsbD 31 ∧ q.z = v.getLsbD 30 ∧ q.c = v.getLsbD 29 ∧ q.v = v.getLsbD 28)
        ∧ (fmask.getLsbD 3 = false → q.n = p.n ∧ q.z = p.z ∧ q.c = p.c ∧ q.v = p.v)
        ∧ (fmask.getLsbD 0 = true →
            q.i = v.getLsbD 7 ∧ q.f = v.getLsbD 6 ∧ q.t = v.getLsbD 5 ∧ q.m = v.extractLsb' 0 5)
        ∧ (fmask.getLsbD 0 = false → q.i = p.i ∧ q.f = p.f ∧ q.t = p.t ∧ q.m = p.m)
        ∧ (∀ m, m ≠ s.mode → t.spsr.get m = s.spsr.get m)
        ∧ t.pc = s.pc + 4 ∧ t.cpsr = s.cpsr
        ∧ RegsKept [] s t ∧ MemoryKept s t ∧ PlatformKept s t ∧ InputsKept s t ∧ t.draws = s.draws)

/-! ## Loads and stores -/

/-- LDR, LDRB, LDRH complete (R165 to R167, R169, R171): aligned, not aborted, admitted, Rd not R15. At the top of the
space the advance is refused (R30, the spec's decision D18; log 19). The instructions are the spec's from general
knowledge (log 17). -/
def Obligations.LoadsReadMemoryIntoRd : Prop :=
  ∀ (i : Instr) (c : Cond) (n : Size) (rd : RegNum) (s : State) (a : Word),
    LoadForm i c n rd s a → condPassed c s.cpsr = true → rd ≠ .r15 → a.toNat % n.bytes = 0 →
    s.abortAnswer = false → s.admits a n .read = true →
    (2 ^ 32 ≤ s.pc.toNat + 4 → exec i s = .refused .pcWrap)
    ∧ (s.pc.toNat + 4 < 2 ^ 32 → ∃ t, exec i s = .next t
      ∧ t.readReg rd = s.valueAt n a.toNat
      ∧ t.pc = s.pc + 4 ∧ t.cpsr = s.cpsr ∧ t.spsr = s.spsr ∧ RegsKept (s.named rd) s t
      ∧ MemoryKept s t ∧ PlatformKept s t ∧ t.pins = s.pins ∧ t.aborts = s.aborts.next ∧ t.draws = s.draws)

/-- STR, STRB, STRH complete (R165, R166, R168, R170, R172): the bytes stored, and every other byte kept; the bytes
stored to are marked (R81). At the top of the space the advance is refused (R30, the spec's decision D18; log 19). The
instructions are the spec's from general knowledge (log 17); the marks are the model's form of R81 (log 12). -/
def Obligations.StoresWriteRdToMemory : Prop :=
  ∀ (i : Instr) (c : Cond) (n : Size) (rd : RegNum) (s : State) (a : Word),
    StoreForm i c n rd s a → Memory.wf s.mem → condPassed c s.cpsr = true → rd ≠ .r15 → a.toNat % n.bytes = 0 →
    s.abortAnswer = false → s.admits a n .write = true → s.isText a n = false →
    (2 ^ 32 ≤ s.pc.toNat + 4 → exec i s = .refused .pcWrap)
    ∧ (s.pc.toNat + 4 < 2 ^ 32 → ∃ t, exec i s = .next t
      ∧ (∀ k, k < n.bytes → t.mem.read (a.toNat + k) = byteAt s.bigend n (s.readReg rd) k)
      ∧ (∀ x, x < a.toNat ∨ a.toNat + n.bytes ≤ x → t.mem.read x = s.mem.read x)
      ∧ (∀ x, x ∈ t.stored ↔ x ∈ s.stored ∨ a.toNat ≤ x ∧ x < a.toNat + n.bytes)
      ∧ t.pc = s.pc + 4 ∧ t.cpsr = s.cpsr ∧ t.spsr = s.spsr ∧ RegsKept [] s t
      ∧ PlatformKept s t ∧ t.pins = s.pins ∧ t.aborts = s.aborts.next ∧ t.draws = s.draws)

/-- An aborted load or store takes the Data abort with link pc + 8 and has no other effect (R74, R166, R215). That an
aborted access does nothing else is the spec's decision D22 (log 17). -/
def Obligations.AbortedAccessTakesTheDataAbort : Prop :=
  ∀ (i : Instr) (c : Cond) (n : Size) (rd : RegNum) (s : State) (a : Word),
    LoadForm i c n rd s a ∨ StoreForm i c n rd s a → condPassed c s.cpsr = true → rd ≠ .r15 →
    a.toNat % n.bytes = 0 → s.abortAnswer = true →
    ∃ t, exec i s = .next t ∧ Entered .dataAbort (s.pc + 8) s t
      ∧ t.pins = s.pins ∧ t.aborts = s.aborts.next ∧ t.draws = s.draws

/-- Where loads and stores are refused, in the order of R166: Rd = R15 (R167 to R172), misaligned (R72), not admitted
(R75), a store to declared text (R81). The refusals are the spec's decisions D3, D4 and D15 (log 17, log 7, log 12).
-/
def Obligations.AccessesAreRefusedInOrder : Prop :=
  ∀ (i : Instr) (c : Cond) (n : Size) (k : Access) (rd : RegNum) (s : State) (a : Word),
    (LoadForm i c n rd s a ∧ k = .read ∨ StoreForm i c n rd s a ∧ k = .write) → condPassed c s.cpsr = true →
    (rd = .r15 → k = .read → exec i s = .refused .loadPc)
    ∧ (rd = .r15 → k = .write → exec i s = .refused .storePc)
    ∧ (rd ≠ .r15 → a.toNat % n.bytes ≠ 0 → exec i s = .refused .misalignedAccess)
    ∧ (rd ≠ .r15 → a.toNat % n.bytes = 0 → s.abortAnswer = false → s.admits a n k = false →
        exec i s = .refused .unmappedAccess)
    ∧ (rd ≠ .r15 → a.toNat % n.bytes = 0 → s.abortAnswer = false → s.admits a n k = true → k = .write →
        s.isText a n = true → exec i s = .refused .storeToCode)

/-! ## Software interrupt and undefined instructions -/

/-- SWI in ARM and Thumb state (R180, R181). The encodings, and the link value in Thumb state, are the spec's from
general knowledge (log 17, log 20). -/
def Obligations.SwiEntersSupervisorMode : Prop :=
  (∀ (c : Cond) (comment : BitVec 24) (s : State), condPassed c s.cpsr = true →
    ∃ t, exec (.swi c comment) s = .next t ∧ Entered .swi (s.pc + 4) s t ∧ InputsKept s t ∧ t.draws = s.draws)
  ∧ ∀ (value8 : BitVec 8) (s : State),
    ∃ t, exec (.tSwi value8) s = .next t ∧ Entered .swi (s.pc + 2) s t ∧ InputsKept s t ∧ t.draws = s.draws

/-- The undefined-instruction space (R182). The pattern is the spec's from general knowledge (log 17). -/
def Obligations.UndefinedSpaceEntersUndefinedMode : Prop :=
  ∀ (c : Cond) (high : BitVec 20) (low : BitVec 4) (s : State), condPassed c s.cpsr = true →
    ∃ t, exec (.und c high low) s = .next t ∧ Entered .undefined (s.pc + 4) s t ∧ InputsKept s t
      ∧ t.draws = s.draws

/-! ## Exceptions, interrupts, reset -/

/-- The mode and the vector of each exception (R201, R202). Every vector but Reset's is the spec's decision D5, from
general knowledge (log 17). -/
def Obligations.ExceptionModesAndVectors : Prop :=
  ([Exc.reset, .undefined, .swi, .prefetchAbort, .dataAbort, .irq, .fiq].map Exc.mode
      = [Mode.svc, .und, .svc, .abt, .abt, .irq, .fiq])
  ∧ ([Exc.reset, .undefined, .swi, .prefetchAbort, .dataAbort, .irq, .fiq].map Exc.vector
      = [0x00000000, 0x00000004, 0x00000008, 0x0000000C, 0x00000010, 0x00000018, 0x0000001C])

/-- The entry sequence (R203, R205, R207): what is written, and what is kept, for every exception but Reset; for Reset
(R261) the same but for the link value and the saved status, which are unspecified, so nothing is said of them (log 3).
That the flags are kept, and which masks are set, are the spec's from general knowledge; what Reset keeps is derived
there (log 17). -/
def Obligations.ExceptionEntryWritesWhatItSaves : Prop :=
  (∀ (x : Exc) (link : Word) (s : State), x ≠ .reset →
    Entered x link s (takeException x link s)
    ∧ ((takeException x link s).cpsr.f = true ↔ s.cpsr.f = true ∨ x = .fiq)
    ∧ (takeException x link s).spsr.get x.mode = some s.cpsr
    ∧ ∀ m, m ≠ x.mode → (takeException x link s).spsr.get m = s.spsr.get m)
  ∧ ∀ s : State, let t := takeReset s
    t.cpsr.m = Exc.reset.mode.toBits ∧ t.cpsr.t = false ∧ t.cpsr.i = true ∧ t.cpsr.f = true ∧ t.pc = Exc.reset.vector
    ∧ FlagsKept s t ∧ RegsKept [.r14Svc] s t ∧ (∀ m, m ≠ .svc → t.spsr.get m = s.spsr.get m) ∧ MemoryKept s t

/-- Every handler starts in ARM state, the old T saved, and the exception-return form restores it (R206): an exception
taken in Thumb state returns to Thumb state. -/
def Obligations.HandlersStartInArmState : Prop :=
  (∀ (x : Exc) (link : Word) (s : State), x ≠ .reset → let t := takeException x link s
    t.cpsr.t = false ∧ (∃ p, t.spsr.get x.mode = some p ∧ p.t = s.cpsr.t)
    ∧ t.decodeAtPc = decodeArm (t.readWord x.vector)
    ∧ ∀ (i : Instr) (c : Cond) (v : Word), ToPcForm i c true t v → condPassed c t.cpsr = true →
      s.cpsr.validMode = true → pcAligned s.cpsr.t v = true →
      ∃ u, exec i t = .next u ∧ u.cpsr.t = s.cpsr.t ∧ u.pc = v)
  ∧ ∀ s : State, (takeReset s).cpsr.t = false
    ∧ (takeReset s).decodeAtPc = decodeArm ((takeReset s).readWord Exc.reset.vector)

/-- A boundary with nRESET low: the reset sequence, from every state, stuck or not (R209, R260, R261). R14_svc and
SPSR_svc receive free values, so nothing is said of them. That reset is one step at a boundary is the spec's decision
D26 (log 14); what a warm reset keeps is derived there. -/
def Obligations.ResetStepForcesSupervisorAtZero : Prop :=
  ∀ s : State, s.levels.nReset = false →
    ∃ t, step s = .next t
      ∧ t.pc = 0 ∧ t.cpsr.m = 0b10011#5 ∧ t.cpsr.i = true ∧ t.cpsr.f = true ∧ t.cpsr.t = false
      ∧ FlagsKept s t ∧ RegsKept [.r14Svc] s t ∧ (∀ m, m ≠ .svc → t.spsr.get m = s.spsr.get m)
      ∧ MemoryKept s t ∧ PlatformKept s t ∧ t.pins = s.pins.next ∧ t.aborts = s.aborts

/-- The state the model starts from agrees with the values R51 states; the others are the model's own (log 1, log 2,
log 5 to 9). -/
def Obligations.ResetStateHasTheStatedValues : Prop :=
  State.reset.pc = 0 ∧ State.reset.mode = .svc ∧ State.reset.cpsr.m = 0b10011#5
  ∧ State.reset.cpsr.i = true ∧ State.reset.cpsr.f = true ∧ State.reset.cpsr.t = false ∧ State.reset.mem = []

/-- A state whose CPSR holds no mode number takes no step while nRESET is high (R11, R46, R209 step 0). The stuck
state as a state without a mode number is the model's form of it (log 10). -/
def Obligations.StuckStateTakesNoStepButReset : Prop :=
  ∀ s : State, s.cpsr.validMode = false → s.levels.nReset = true → step s = .fault .unrecoverable

/-- FIQ before IRQ, each only while its mask is clear, each with link pc + 4 and before the instruction at the pc is
fetched (R209 to R211, R218). That IRQ is tested where FIQ is, and when, is the spec's decision D16 (log 17, log 9).
-/
def Obligations.InterruptsAreTakenByPriority : Prop :=
  ∀ s : State, s.cpsr.validMode = true → s.levels.nReset = true →
    (s.levels.nFiq = false → s.cpsr.f = false →
      ∃ t, step s = .next t ∧ Entered .fiq (s.pc + 4) s t ∧ t.pins = s.pins.next ∧ t.aborts = s.aborts
        ∧ t.draws = s.draws)
    ∧ (s.levels.nFiq = true ∨ s.cpsr.f = true → s.levels.nIrq = false → s.cpsr.i = false →
      ∃ t, step s = .next t ∧ Entered .irq (s.pc + 4) s t ∧ t.pins = s.pins.next ∧ t.aborts = s.aborts
        ∧ t.draws = s.draws)

/-- The interrupt disable bits (R43): while its mask is set an input's level makes no difference to the step, and a
boundary at which each input is high or masked takes no interrupt; while the mask is clear the interrupt is taken (R209
to R211); and in a step only exception entry (reset among them), the exception-return form and an MSR of the control
field in a privileged mode change the masks. When IRQ is tested, and at what level, is the spec's decision D16 and from
general knowledge (log 17); the levels are a trace in the state (log 9). -/
def Obligations.InterruptMasksDisableTheInputs : Prop :=
  (∀ (s : State) (p : Pins) (rest : Trace Pins) (level : Bool),
    (s.cpsr.i = true →
      step { s with pins := rest.cons p } = step { s with pins := rest.cons { p with nIrq := level } })
    ∧ (s.cpsr.f = true →
      step { s with pins := rest.cons p } = step { s with pins := rest.cons { p with nFiq := level } }))
  ∧ (∀ s : State, s.cpsr.validMode = true → s.levels.nReset = true →
    (s.levels.nFiq = false → s.cpsr.f = false → ∃ t, step s = .next t ∧ t.mode = .fiq ∧ t.pc = Exc.fiq.vector)
    ∧ (s.levels.nFiq = true → s.levels.nIrq = false → s.cpsr.i = false →
      ∃ t, step s = .next t ∧ t.mode = .irq ∧ t.pc = Exc.irq.vector)
    ∧ (s.levels.nFiq = true ∨ s.cpsr.f = true → s.levels.nIrq = true ∨ s.cpsr.i = true →
      boundary s = .run s.nextBoundary))
  ∧ ∀ s t : State, step s = .next t → t.cpsr.i ≠ s.cpsr.i ∨ t.cpsr.f ≠ s.cpsr.f →
    (∃ x, EntryFrom x s t)
    ∨ ∃ i, s.decodeAtPc = .ok i ∧
      ((i.isExceptionReturn = true ∧ s.spsr.get s.mode = some t.cpsr)
        ∨ (i.writesControl = true ∧ s.mode ≠ .usr))

/-- ISYNC and LOCK make no difference to the step (R80, R212). The spec's decision D29 (log 15). -/
def Obligations.IsyncAndLockHaveNoEffect : Prop :=
  ∀ (s : State) (p : Pins) (rest : Trace Pins) (isync lock : Bool),
    step { s with pins := rest.cons p } = step { s with pins := rest.cons { p with isync := isync, lock := lock } }

/-- An aborted fetch takes the Prefetch abort with link pc + 4, whatever the instruction (R209 step 4, R214). The oracle
is a trace of answers in this model (log 8). -/
def Obligations.AbortedFetchTakesThePrefetchAbort : Prop :=
  ∀ s : State, s.cpsr.validMode = true → s.quiet → s.abortAnswer = true →
    ∃ t, step s = .next t ∧ Entered .prefetchAbort (s.pc + 4) s t
      ∧ t.pins = s.pins.next ∧ t.aborts = s.aborts.next ∧ t.draws = s.draws

/-- Where a fetch is refused: not admitted (R75, R209), or of a byte that a store has written (R81; log 12). -/
def Obligations.FetchesAreRefused : Prop :=
  ∀ s : State, s.cpsr.validMode = true → s.quiet → s.abortAnswer = false →
    (s.admits s.pc s.fetchSize .fetch = false → step s = .refused .unmappedAccess)
    ∧ (s.admits s.pc s.fetchSize .fetch = true →
        (∃ x ∈ s.stored, s.pc.toNat ≤ x ∧ x < s.pc.toNat + (if s.cpsr.t then 2 else 4)) →
        step s = .refused .storeToCode)

/-- A step runs the decoded instruction: the bytes at the pc, decoded for the operating state, are what exec runs, with
this boundary's levels and this fetch's abort answer used up (R209, R70, R71). -/
def Obligations.StepRunsTheDecodedInstruction : Prop :=
  ∀ s : State, s.cpsr.validMode = true → s.quiet → s.fetches → pcAligned s.cpsr.t s.pc = true →
    let bytes := [s.mem.read s.pc.toNat, s.mem.read (s.pc.toNat + 1), s.mem.read (s.pc.toNat + 2),
      s.mem.read (s.pc.toNat + 3)]
    (∀ i, decodeBytes s.bigend s.cpsr.t bytes = .ok i →
      step s = exec i { s with pins := s.pins.next, aborts := s.aborts.next })
    ∧ ∀ e, decodeBytes s.bigend s.cpsr.t bytes = .reject e → step s = .refused (DecodeError.refusal e)

/-- A Data abort with FIQ: the abort is entered, the next step enters FIQ, and the FIQ's return resumes the abort
handler with its return address and saved status intact (R220). The abort and the interrupt come from the model's traces
of answers and levels (log 8, log 9). -/
def Obligations.FiqInterruptsTheDataAbortHandler : Prop :=
  ∀ (i : Instr) (c : Cond) (n : Size) (rd : RegNum) (s : State) (a : Word),
    LoadForm i c n rd s a ∨ StoreForm i c n rd s a → condPassed c s.cpsr = true → rd ≠ .r15 →
    a.toNat % n.bytes = 0 → s.abortAnswer = true → s.cpsr.f = false →
    s.levels.nReset = true → s.levels.nFiq = false →
    ∃ t u v, exec i s = .next t ∧ t.pc = 0x10 ∧ t.mode = .abt
      ∧ step t = .next u ∧ u.pc = 0x1C ∧ u.mode = .fiq ∧ u.getPhys .r14Fiq = 0x14 ∧ u.spsr.fiq = t.cpsr
      ∧ exec (.subImm .al true .r14 .r15 0 4) u = .next v ∧ v.pc = 0x10 ∧ v.cpsr = t.cpsr
      ∧ v.getPhys .r14Abt = s.pc + 8 ∧ v.spsr.abt = s.cpsr

/-- Each exception followed by the source's return instruction (R204, R221, R222): the pc lands where R204 says; the
CPSR, memory, every register but the link register used and every SPSR but that of the mode entered are as before. The
link values are derived in the spec, some from general knowledge (log 17, log 20). -/
def Obligations.ReturnInstructionsUndoTheEntry : Prop :=
  ∀ s : State, s.cpsr.validMode = true → pcAligned s.cpsr.t s.pc = true →
    let returns := fun (x : Exc) (link : Word) (i : Instr) (target : Word) =>
      ∃ t, exec i (takeException x link s) = .next t ∧ t.pc = target ∧ t.cpsr = s.cpsr
        ∧ RegsKept [linkReg x.mode] s t ∧ (∀ m, m ≠ x.mode → t.spsr.get m = s.spsr.get m)
        ∧ MemoryKept s t ∧ PlatformKept s t ∧ InputsKept s t
    returns .fiq (s.pc + 4) (.subImm .al true .r14 .r15 0 4) s.pc
    ∧ returns .irq (s.pc + 4) (.subImm .al true .r14 .r15 0 4) s.pc
    ∧ returns .prefetchAbort (s.pc + 4) (.subImm .al true .r14 .r15 0 4) s.pc
    ∧ returns .dataAbort (s.pc + 8) (.subImm .al true .r14 .r15 0 8) s.pc
    ∧ (s.cpsr.t = false → returns .swi (s.pc + 4) (.movReg .al true .r15 .r14) (s.pc + 4))
    ∧ (s.cpsr.t = true → returns .swi (s.pc + 2) (.movReg .al true .r15 .r14) (s.pc + 2))
    ∧ (s.cpsr.t = false → returns .undefined (s.pc + 4) (.movReg .al true .r15 .r14) (s.pc + 4))

/-! ## Invariants and rules of the whole machine -/

/-- The invariant holds at reset. The canonical form is the model's (log 5). -/
def Obligations.InvariantHoldsAtReset : Prop :=
  State.reset.Inv

/-- Every step keeps memory canonical and the pc aligned for the operating state (R28, R29, R30, R60). The canonical
form is the model's (log 5). -/
def Obligations.EveryStepKeepsTheInvariant : Prop :=
  ∀ s t : State, s.Inv → step s = .next t → t.Inv

/-- The byte order and the platform's parameters are constant for a run, and a stored byte stays marked (R64, R75,
R81). The parameters are fields of this model's state (log 6, log 7, log 12). -/
def Obligations.StepsKeepThePlatform : Prop :=
  ∀ s t : State, step s = .next t → PlatformKept s t ∧ ∀ x, x ∈ s.stored → x ∈ t.stored

/-- Every way the control bits I, F, T and M can change in a step (R42 to R44, R227, R228): exception entry (reset and
interrupts included), the exception-return form in a mode with an SPSR, an MSR to the control field in a privileged
mode, which keeps T, and BX, which keeps I, F and M. The instructions that write them are the spec's from general
knowledge (log 17). -/
def Obligations.ControlBitsChangeOnlyTheseWays : Prop :=
  ∀ s t : State, step s = .next t →
    (∃ x, EntryFrom x s t)
    ∨ ∃ i, s.decodeAtPc = .ok i ∧
      ((i.isExceptionReturn = true ∧ s.spsr.get s.mode = some t.cpsr)
        ∨ (i.writesControl = true ∧ s.mode ≠ .usr ∧ t.cpsr.t = s.cpsr.t)
        ∨ (i.isExchange = true ∧ t.cpsr.i = s.cpsr.i ∧ t.cpsr.f = s.cpsr.f ∧ t.cpsr.m = s.cpsr.m)
        ∨ ControlKept s t)

/-- No User-mode instruction changes the control bits but by causing an exception, BX's T apart (R42, R228). That the
attempt is ignored is the spec's decision D9 (log 17). -/
def Obligations.UserModeCannotWriteTheControlBits : Prop :=
  ∀ (i : Instr) (s t : State), s.mode = .usr → exec i s = .next t →
    (t.cpsr.i = s.cpsr.i ∧ t.cpsr.f = s.cpsr.f ∧ t.cpsr.m = s.cpsr.m ∧ (i.isExchange = false → t.cpsr.t = s.cpsr.t))
    ∨ ∃ x, (x = .swi ∨ x = .undefined ∨ x = .dataAbort) ∧ EntryFrom x s t

/-- A register the current mode does not name keeps its value, unless it is the link register of an exception the
instruction takes (R31, R203). The spec marks R31 as derived (log 17). -/
def Obligations.UnnamedRegistersKeepTheirValue : Prop :=
  ∀ (i : Instr) (s t : State) (p : PhysReg), exec i s = .next t → (∀ n, physReg s.mode n ≠ some p) →
    t.getPhys p = s.getPhys p ∨ ∃ x, EntryFrom x s t ∧ p = linkReg x.mode

/-- A register the current mode does not name cannot be read: two runs of an instruction that differ only in it differ
at most in it (R31). The spec marks R31 as derived (log 17). -/
def Obligations.UnnamedRegistersCannotBeRead : Prop :=
  ∀ (i : Instr) (s : State) (p : PhysReg) (v : Word), (∀ n, physReg s.mode n ≠ some p) →
    blank p (exec i (s.setPhys p v)) = blank p (exec i s)

/-- Only stores write memory, and only MSR to the SPSR and exception entry write an SPSR, that of the current mode or of
the mode entered (R74, R158, R203). -/
def Obligations.OnlyStoresWriteMemoryAndOnlyMsrSpsrs : Prop :=
  ∀ (i : Instr) (s t : State), exec i s = .next t →
    (i.isStore = false → MemoryKept s t)
    ∧ ∀ m, t.spsr.get m = s.spsr.get m
      ∨ (∃ x, EntryFrom x s t ∧ m = x.mode ∧ t.spsr.get m = some s.cpsr)
      ∨ (m = s.mode ∧ ((∃ c fmask rm, i = .msrReg c .spsr fmask rm)
          ∨ ∃ c fmask rot imm8, i = .msrImm c .spsr fmask rot imm8))
end

