-- ==== Sys2Proof/Laws/Decode.lean ====
section
/-! SUPPORT. The laws of the fields of an encoding, and of the byte order. -/

namespace Sys2Proof

/-! ### Fields -/

@[simp] theorem RegNum.ofBits_toBits (r : RegNum) : RegNum.ofBits r.toBits = r := by
  cases r <;> rfl

@[simp] theorem RegNum.toBits_ofBits (b : BitVec 4) : (RegNum.ofBits b).toBits = b := by
  revert b
  decide

@[simp] theorem Cond.ofBits_toBits (c : Cond) : Cond.ofBits c.toBits = some c := by
  cases c <;> rfl

theorem Cond.toBits_of_ofBits {b : BitVec 4} {c : Cond} (h : Cond.ofBits b = some c) : c.toBits = b := by
  revert b
  cases c <;> decide

@[simp] theorem PsrSel.ofBits_toBits (r : PsrSel) : PsrSel.ofBits r.toBits = r := by
  cases r <;> rfl

@[simp] theorem PsrSel.toBits_ofBits (b : BitVec 1) : (PsrSel.ofBits b).toBits = b := by
  revert b
  decide

@[simp] theorem Dir.ofBits_toBits (u : Dir) : Dir.ofBits u.toBits = u := by
  cases u <;> rfl

@[simp] theorem Dir.toBits_ofBits (b : BitVec 1) : (Dir.ofBits b).toBits = b := by
  revert b
  decide

/-! ### Byte order: a value laid out as bytes is read back (R67, R68) -/

theorem halfOfBytes_bytesOfHalf (big : Bool) (v : Half) :
    ∃ b0 b1, bytesOfHalf big v = [b0, b1] ∧ halfOfBytes big b0 b1 = v := by
  cases big <;>
    · refine ⟨_, _, rfl, ?_⟩
      simp only [halfOfBytes, slice]
      apply BitVec.eq_of_getLsbD_eq
      intro i hi
      interval_cases i <;> simp only [BitVec.getLsbD_append, BitVec.getLsbD_extractLsb', Bool.false_eq_true,
        ↓reduceIte] <;> simp

theorem wordOfBytes_bytesOfWord (big : Bool) (v : Word) :
    ∃ b0 b1 b2 b3, bytesOfWord big v = [b0, b1, b2, b3] ∧ wordOfBytes big b0 b1 b2 b3 = v := by
  cases big <;>
    · refine ⟨_, _, _, _, rfl, ?_⟩
      simp only [wordOfBytes, slice]
      apply BitVec.eq_of_getLsbD_eq
      intro i hi
      interval_cases i <;> simp only [BitVec.getLsbD_append, BitVec.getLsbD_extractLsb', Bool.false_eq_true,
        ↓reduceIte] <;> simp

/-! ### Tables -/

theorem Row.accepts_iff {width : Nat} {form : Type} (r : Row width form) (w : BitVec width) :
    r.accepts w = true ↔ w &&& r.mask = r.pattern := by
  simp [Row.accepts]

end Sys2Proof
end

