-- ==== Sys2Proof/Laws/Memory.lean ====
section
/-! SUPPORT. The laws of the canonical memory and of the marks: reading after writing, the form kept, and equal memories
that read alike at the head. -/

namespace Sys2Proof.Machine

/-! ### Reading -/

@[simp] theorem Memory.read_nil (a : Nat) : Memory.read [] a = unlistedByte := rfl

theorem Memory.read_cons (b : Nat) (v : Byte) (rest : Memory) (a : Nat) :
    Memory.read ((b, v) :: rest) a = if a = b then v else Memory.read rest a := rfl

/-- An address below every listed one reads as unlisted. -/
theorem Memory.read_of_lt (m : Memory) (a : Nat) (h : ∀ x ∈ m, a < x.1) : m.read a = unlistedByte := by
  induction m with
  | nil => rfl
  | cons x rest ih =>
    obtain ⟨b, v⟩ := x
    have hb : a < b := h (b, v) (by simp)
    rw [Memory.read_cons, if_neg (by omega)]
    exact ih fun y hy => h y (by simp [hy])

/-- The tail of a canonical memory is canonical. -/
theorem Memory.wf_tail {x : Host.Cell} {rest : Memory} (h : Memory.wf (x :: rest)) : Memory.wf rest :=
  ⟨(List.pairwise_cons.1 h.1).2, fun y hy => h.2 y (by simp [hy])⟩

/-- In a canonical memory every later cell lies above the first. -/
theorem Memory.wf_head_lt {b : Nat} {v : Byte} {rest : Memory} (h : Memory.wf ((b, v) :: rest)) :
    ∀ y ∈ rest, b < y.1 :=
  (List.pairwise_cons.1 h.1).1

/-! ### Writing -/

/-- A written byte reads back. -/
theorem Memory.read_write_same (m : Memory) (a : Nat) (v : Byte) (h : Memory.wf m) : (m.write a v).read a = v := by
  induction m with
  | nil =>
    unfold Memory.write
    split <;> simp_all [Memory.read_cons]
  | cons x rest ih =>
    obtain ⟨b, w⟩ := x
    have above := Memory.wf_head_lt h
    unfold Memory.write
    split_ifs with h1 h2 h3 h4
    · rw [h2]
      exact Memory.read_of_lt _ a fun y hy => by
        rcases List.mem_cons.1 hy with rfl | hy
        · exact h1
        · exact lt_trans h1 (above y hy)
    · simp [Memory.read_cons]
    · rw [h4]
      exact Memory.read_of_lt _ a fun y hy => h3 ▸ above y hy
    · simp [Memory.read_cons]
    · rw [Memory.read_cons, if_neg h3]
      exact ih (Memory.wf_tail h)

/-- Every other byte is left alone. -/
theorem Memory.read_write_other (m : Memory) (a b : Nat) (v : Byte) (h : b ≠ a) : (m.write a v).read b = m.read b := by
  induction m with
  | nil =>
    unfold Memory.write
    split <;> simp [Memory.read_cons, h]
  | cons x rest ih =>
    obtain ⟨c, w⟩ := x
    unfold Memory.write
    split_ifs with h1 h2 h3 h4
    · rfl
    · simp [Memory.read_cons, h]
    · rw [Memory.read_cons, if_neg (by omega)]
    · simp [Memory.read_cons, h, show b ≠ c from h3 ▸ h]
    · rw [Memory.read_cons, Memory.read_cons, ih]

/-- What a cell of a written memory can be. -/
theorem Memory.mem_write {m : Memory} {a : Nat} {v : Byte} {x : Host.Cell} (h : x ∈ m.write a v) :
    (x = (a, v) ∧ v ≠ unlistedByte) ∨ x ∈ m := by
  induction m with
  | nil =>
    unfold Memory.write at h
    split_ifs at h with h1
    · simp at h
    · exact .inl ⟨by simpa using h, h1⟩
  | cons y rest ih =>
    obtain ⟨c, w⟩ := y
    unfold Memory.write at h
    split_ifs at h with h1 h2 h3 h4
    · exact .inr h
    · rcases List.mem_cons.1 h with rfl | h
      · exact .inl ⟨rfl, h2⟩
      · exact .inr h
    · exact .inr (by simp [h])
    · rcases List.mem_cons.1 h with rfl | h
      · exact .inl ⟨rfl, h4⟩
      · exact .inr (by simp [h])
    · rcases List.mem_cons.1 h with rfl | h
      · exact .inr (by simp)
      · exact (ih h).imp_right fun h => by simp [h]

/-- Writing keeps the canonical form. -/
theorem Memory.wf_write (m : Memory) (a : Nat) (v : Byte) (h : Memory.wf m) (ha : a < 2 ^ 32) :
    Memory.wf (m.write a v) := by
  refine ⟨?_, fun x hx => ?_⟩
  · induction m with
    | nil =>
      unfold Memory.write
      split <;> simp
    | cons x rest ih =>
      obtain ⟨c, w⟩ := x
      have above := Memory.wf_head_lt h
      unfold Memory.write
      split_ifs with h1 h2 h3 h4
      · exact h.1
      · refine List.pairwise_cons.2 ⟨fun y hy => ?_, h.1⟩
        rcases List.mem_cons.1 hy with rfl | hy
        · exact h1
        · exact lt_trans h1 (above y hy)
      · exact (Memory.wf_tail h).1
      · exact List.pairwise_cons.2 ⟨fun y hy => h3 ▸ above y hy, (Memory.wf_tail h).1⟩
      · refine List.pairwise_cons.2 ⟨fun y hy => ?_, ih (Memory.wf_tail h)⟩
        rcases Memory.mem_write hy with ⟨rfl, -⟩ | hy
        · show c < a
          omega
        · exact above y hy
  · rcases Memory.mem_write hx with ⟨rfl, hv⟩ | hx
    · exact ⟨hv, ha⟩
    · exact h.2 x hx

/-! ### Marks -/

@[simp] theorem Marks.mem_add (l : List Nat) (a x : Nat) : x ∈ Marks.add l a ↔ x ∈ l ∨ x = a := by
  induction l with
  | nil => simp [Marks.add]
  | cons b rest ih =>
    unfold Marks.add
    split_ifs with h1 h2
    · simp only [List.mem_cons]
      tauto
    · simp only [List.mem_cons, h2]
      tauto
    · simp only [List.mem_cons, ih]
      tauto

theorem Marks.wf_add (l : List Nat) (a : Nat) (h : Marks.wf l) : Marks.wf (Marks.add l a) := by
  induction l with
  | nil => simp [Marks.add]
  | cons b rest ih =>
    obtain ⟨above, tail⟩ := List.pairwise_cons.1 h
    unfold Marks.add
    split_ifs with h1 h2
    · refine List.pairwise_cons.2 ⟨fun y hy => ?_, h⟩
      rcases List.mem_cons.1 hy with rfl | hy
      · exact h1
      · exact lt_trans h1 (above y hy)
    · exact h
    · refine List.pairwise_cons.2 ⟨fun y hy => ?_, ih tail⟩
      rcases (Marks.mem_add rest a y).1 hy with hy | rfl
      · exact above y hy
      · omega

theorem Marks.mem_remove (l : List Nat) (a x : Nat) : x ∈ Marks.remove l a ↔ x ∈ l ∧ x ≠ a := by
  simp [Marks.remove]

theorem Marks.wf_remove (l : List Nat) (a : Nat) (h : Marks.wf l) : Marks.wf (Marks.remove l a) :=
  h.filter _

end Sys2Proof.Machine
end

