-- ==== Sys2Proof/Laws/State.lean ====
section
/-! SUPPORT. One lemma per field per update of the state, so that no later proof unfolds a record update. -/

namespace Sys2Proof.Machine

/-! ### Writing a general register -/

@[simp] theorem State.setPhys_regs (s : State) (p : PhysReg) (v : Word) : (s.setPhys p v).regs = s.regs.set p.index v := rfl
@[simp] theorem State.setPhys_pc (s : State) (p : PhysReg) (v : Word) : (s.setPhys p v).pc = s.pc := rfl
@[simp] theorem State.setPhys_cpsr (s : State) (p : PhysReg) (v : Word) : (s.setPhys p v).cpsr = s.cpsr := rfl
@[simp] theorem State.setPhys_spsr (s : State) (p : PhysReg) (v : Word) : (s.setPhys p v).spsr = s.spsr := rfl
@[simp] theorem State.setPhys_mem (s : State) (p : PhysReg) (v : Word) : (s.setPhys p v).mem = s.mem := rfl
@[simp] theorem State.setPhys_stored (s : State) (p : PhysReg) (v : Word) : (s.setPhys p v).stored = s.stored := rfl
@[simp] theorem State.setPhys_text (s : State) (p : PhysReg) (v : Word) : (s.setPhys p v).text = s.text := rfl
@[simp] theorem State.setPhys_windows (s : State) (p : PhysReg) (v : Word) : (s.setPhys p v).windows = s.windows := rfl
@[simp] theorem State.setPhys_bigend (s : State) (p : PhysReg) (v : Word) : (s.setPhys p v).bigend = s.bigend := rfl
@[simp] theorem State.setPhys_pins (s : State) (p : PhysReg) (v : Word) : (s.setPhys p v).pins = s.pins := rfl
@[simp] theorem State.setPhys_aborts (s : State) (p : PhysReg) (v : Word) : (s.setPhys p v).aborts = s.aborts := rfl
@[simp] theorem State.setPhys_draws (s : State) (p : PhysReg) (v : Word) : (s.setPhys p v).draws = s.draws := rfl
@[simp] theorem State.setPhys_mode (s : State) (p : PhysReg) (v : Word) : (s.setPhys p v).mode = s.mode := rfl
@[simp] theorem State.setPhys_pcOperand (s : State) (p : PhysReg) (v : Word) : (s.setPhys p v).pcOperand = s.pcOperand := rfl
@[simp] theorem State.setPhys_admits (s : State) (p : PhysReg) (v : Word) (b : Word) (n : Size) (k : Access) :
    (s.setPhys p v).admits b n k = s.admits b n k := rfl

/-! ### Writing the pc -/

@[simp] theorem State.setPc_regs (s : State) (v : Word) : (s.setPc v).regs = s.regs := rfl
@[simp] theorem State.setPc_pc (s : State) (v : Word) : (s.setPc v).pc = v := rfl
@[simp] theorem State.setPc_cpsr (s : State) (v : Word) : (s.setPc v).cpsr = s.cpsr := rfl
@[simp] theorem State.setPc_spsr (s : State) (v : Word) : (s.setPc v).spsr = s.spsr := rfl
@[simp] theorem State.setPc_mem (s : State) (v : Word) : (s.setPc v).mem = s.mem := rfl
@[simp] theorem State.setPc_stored (s : State) (v : Word) : (s.setPc v).stored = s.stored := rfl
@[simp] theorem State.setPc_text (s : State) (v : Word) : (s.setPc v).text = s.text := rfl
@[simp] theorem State.setPc_windows (s : State) (v : Word) : (s.setPc v).windows = s.windows := rfl
@[simp] theorem State.setPc_bigend (s : State) (v : Word) : (s.setPc v).bigend = s.bigend := rfl
@[simp] theorem State.setPc_pins (s : State) (v : Word) : (s.setPc v).pins = s.pins := rfl
@[simp] theorem State.setPc_aborts (s : State) (v : Word) : (s.setPc v).aborts = s.aborts := rfl
@[simp] theorem State.setPc_draws (s : State) (v : Word) : (s.setPc v).draws = s.draws := rfl
@[simp] theorem State.setPc_mode (s : State) (v : Word) : (s.setPc v).mode = s.mode := rfl
@[simp] theorem State.setPc_getPhys (s : State) (v : Word) (q : PhysReg) : (s.setPc v).getPhys q = s.getPhys q := rfl
@[simp] theorem State.setPc_admits (s : State) (v : Word) (b : Word) (n : Size) (k : Access) :
    (s.setPc v).admits b n k = s.admits b n k := rfl

/-! ### Writing the CPSR -/

@[simp] theorem State.setCpsr_regs (s : State) (p : Psr) : (s.setCpsr p).regs = s.regs := rfl
@[simp] theorem State.setCpsr_pc (s : State) (p : Psr) : (s.setCpsr p).pc = s.pc := rfl
@[simp] theorem State.setCpsr_cpsr (s : State) (p : Psr) : (s.setCpsr p).cpsr = p := rfl
@[simp] theorem State.setCpsr_spsr (s : State) (p : Psr) : (s.setCpsr p).spsr = s.spsr := rfl
@[simp] theorem State.setCpsr_mem (s : State) (p : Psr) : (s.setCpsr p).mem = s.mem := rfl
@[simp] theorem State.setCpsr_stored (s : State) (p : Psr) : (s.setCpsr p).stored = s.stored := rfl
@[simp] theorem State.setCpsr_text (s : State) (p : Psr) : (s.setCpsr p).text = s.text := rfl
@[simp] theorem State.setCpsr_windows (s : State) (p : Psr) : (s.setCpsr p).windows = s.windows := rfl
@[simp] theorem State.setCpsr_bigend (s : State) (p : Psr) : (s.setCpsr p).bigend = s.bigend := rfl
@[simp] theorem State.setCpsr_pins (s : State) (p : Psr) : (s.setCpsr p).pins = s.pins := rfl
@[simp] theorem State.setCpsr_aborts (s : State) (p : Psr) : (s.setCpsr p).aborts = s.aborts := rfl
@[simp] theorem State.setCpsr_draws (s : State) (p : Psr) : (s.setCpsr p).draws = s.draws := rfl
@[simp] theorem State.setCpsr_getPhys (s : State) (p : Psr) (q : PhysReg) : (s.setCpsr p).getPhys q = s.getPhys q := rfl
@[simp] theorem State.setCpsr_admits (s : State) (p : Psr) (b : Word) (n : Size) (k : Access) :
    (s.setCpsr p).admits b n k = s.admits b n k := rfl

/-! ### Writing an SPSR -/

@[simp] theorem State.setSpsr_regs (s : State) (m : Mode) (p : Psr) : (s.setSpsr m p).regs = s.regs := rfl
@[simp] theorem State.setSpsr_pc (s : State) (m : Mode) (p : Psr) : (s.setSpsr m p).pc = s.pc := rfl
@[simp] theorem State.setSpsr_cpsr (s : State) (m : Mode) (p : Psr) : (s.setSpsr m p).cpsr = s.cpsr := rfl
@[simp] theorem State.setSpsr_spsr (s : State) (m : Mode) (p : Psr) : (s.setSpsr m p).spsr = s.spsr.set p m := rfl
@[simp] theorem State.setSpsr_mem (s : State) (m : Mode) (p : Psr) : (s.setSpsr m p).mem = s.mem := rfl
@[simp] theorem State.setSpsr_stored (s : State) (m : Mode) (p : Psr) : (s.setSpsr m p).stored = s.stored := rfl
@[simp] theorem State.setSpsr_text (s : State) (m : Mode) (p : Psr) : (s.setSpsr m p).text = s.text := rfl
@[simp] theorem State.setSpsr_windows (s : State) (m : Mode) (p : Psr) : (s.setSpsr m p).windows = s.windows := rfl
@[simp] theorem State.setSpsr_bigend (s : State) (m : Mode) (p : Psr) : (s.setSpsr m p).bigend = s.bigend := rfl
@[simp] theorem State.setSpsr_pins (s : State) (m : Mode) (p : Psr) : (s.setSpsr m p).pins = s.pins := rfl
@[simp] theorem State.setSpsr_aborts (s : State) (m : Mode) (p : Psr) : (s.setSpsr m p).aborts = s.aborts := rfl
@[simp] theorem State.setSpsr_draws (s : State) (m : Mode) (p : Psr) : (s.setSpsr m p).draws = s.draws := rfl
@[simp] theorem State.setSpsr_mode (s : State) (m : Mode) (p : Psr) : (s.setSpsr m p).mode = s.mode := rfl
@[simp] theorem State.setSpsr_getPhys (s : State) (m : Mode) (p : Psr) (q : PhysReg) : (s.setSpsr m p).getPhys q = s.getPhys q := rfl
@[simp] theorem State.setSpsr_pcOperand (s : State) (m : Mode) (p : Psr) : (s.setSpsr m p).pcOperand = s.pcOperand := rfl
@[simp] theorem State.setSpsr_readReg (s : State) (m : Mode) (p : Psr) (i : RegNum) : (s.setSpsr m p).readReg i = s.readReg i := rfl
@[simp] theorem State.setSpsr_admits (s : State) (m : Mode) (p : Psr) (b : Word) (n : Size) (k : Access) :
    (s.setSpsr m p).admits b n k = s.admits b n k := rfl

/-! ### Counting a free value -/

@[simp] theorem State.countDraw_regs (s : State) : (s.countDraw).regs = s.regs := rfl
@[simp] theorem State.countDraw_pc (s : State) : (s.countDraw).pc = s.pc := rfl
@[simp] theorem State.countDraw_cpsr (s : State) : (s.countDraw).cpsr = s.cpsr := rfl
@[simp] theorem State.countDraw_spsr (s : State) : (s.countDraw).spsr = s.spsr := rfl
@[simp] theorem State.countDraw_mem (s : State) : (s.countDraw).mem = s.mem := rfl
@[simp] theorem State.countDraw_stored (s : State) : (s.countDraw).stored = s.stored := rfl
@[simp] theorem State.countDraw_text (s : State) : (s.countDraw).text = s.text := rfl
@[simp] theorem State.countDraw_windows (s : State) : (s.countDraw).windows = s.windows := rfl
@[simp] theorem State.countDraw_bigend (s : State) : (s.countDraw).bigend = s.bigend := rfl
@[simp] theorem State.countDraw_pins (s : State) : (s.countDraw).pins = s.pins := rfl
@[simp] theorem State.countDraw_aborts (s : State) : (s.countDraw).aborts = s.aborts := rfl
@[simp] theorem State.countDraw_draws (s : State) : (s.countDraw).draws = s.draws + 1 := rfl
@[simp] theorem State.countDraw_mode (s : State) : (s.countDraw).mode = s.mode := rfl
@[simp] theorem State.countDraw_getPhys (s : State) (q : PhysReg) : (s.countDraw).getPhys q = s.getPhys q := rfl
@[simp] theorem State.countDraw_pcOperand (s : State) : (s.countDraw).pcOperand = s.pcOperand := rfl
@[simp] theorem State.countDraw_readReg (s : State) (i : RegNum) : (s.countDraw).readReg i = s.readReg i := rfl
@[simp] theorem State.countDraw_admits (s : State) (b : Word) (n : Size) (k : Access) :
    (s.countDraw).admits b n k = s.admits b n k := rfl

/-! ### Using up an abort answer -/

@[simp] theorem State.nextAnswer_regs (s : State) : (s.nextAnswer).regs = s.regs := rfl
@[simp] theorem State.nextAnswer_pc (s : State) : (s.nextAnswer).pc = s.pc := rfl
@[simp] theorem State.nextAnswer_cpsr (s : State) : (s.nextAnswer).cpsr = s.cpsr := rfl
@[simp] theorem State.nextAnswer_spsr (s : State) : (s.nextAnswer).spsr = s.spsr := rfl
@[simp] theorem State.nextAnswer_mem (s : State) : (s.nextAnswer).mem = s.mem := rfl
@[simp] theorem State.nextAnswer_stored (s : State) : (s.nextAnswer).stored = s.stored := rfl
@[simp] theorem State.nextAnswer_text (s : State) : (s.nextAnswer).text = s.text := rfl
@[simp] theorem State.nextAnswer_windows (s : State) : (s.nextAnswer).windows = s.windows := rfl
@[simp] theorem State.nextAnswer_bigend (s : State) : (s.nextAnswer).bigend = s.bigend := rfl
@[simp] theorem State.nextAnswer_pins (s : State) : (s.nextAnswer).pins = s.pins := rfl
@[simp] theorem State.nextAnswer_aborts (s : State) : (s.nextAnswer).aborts = s.aborts.next := rfl
@[simp] theorem State.nextAnswer_draws (s : State) : (s.nextAnswer).draws = s.draws := rfl
@[simp] theorem State.nextAnswer_mode (s : State) : (s.nextAnswer).mode = s.mode := rfl
@[simp] theorem State.nextAnswer_getPhys (s : State) (q : PhysReg) : (s.nextAnswer).getPhys q = s.getPhys q := rfl
@[simp] theorem State.nextAnswer_pcOperand (s : State) : (s.nextAnswer).pcOperand = s.pcOperand := rfl
@[simp] theorem State.nextAnswer_readReg (s : State) (i : RegNum) : (s.nextAnswer).readReg i = s.readReg i := rfl
@[simp] theorem State.nextAnswer_admits (s : State) (b : Word) (n : Size) (k : Access) :
    (s.nextAnswer).admits b n k = s.admits b n k := rfl

/-! ### Passing a boundary -/

@[simp] theorem State.nextBoundary_regs (s : State) : (s.nextBoundary).regs = s.regs := rfl
@[simp] theorem State.nextBoundary_pc (s : State) : (s.nextBoundary).pc = s.pc := rfl
@[simp] theorem State.nextBoundary_cpsr (s : State) : (s.nextBoundary).cpsr = s.cpsr := rfl
@[simp] theorem State.nextBoundary_spsr (s : State) : (s.nextBoundary).spsr = s.spsr := rfl
@[simp] theorem State.nextBoundary_mem (s : State) : (s.nextBoundary).mem = s.mem := rfl
@[simp] theorem State.nextBoundary_stored (s : State) : (s.nextBoundary).stored = s.stored := rfl
@[simp] theorem State.nextBoundary_text (s : State) : (s.nextBoundary).text = s.text := rfl
@[simp] theorem State.nextBoundary_windows (s : State) : (s.nextBoundary).windows = s.windows := rfl
@[simp] theorem State.nextBoundary_bigend (s : State) : (s.nextBoundary).bigend = s.bigend := rfl
@[simp] theorem State.nextBoundary_pins (s : State) : (s.nextBoundary).pins = s.pins.next := rfl
@[simp] theorem State.nextBoundary_aborts (s : State) : (s.nextBoundary).aborts = s.aborts := rfl
@[simp] theorem State.nextBoundary_draws (s : State) : (s.nextBoundary).draws = s.draws := rfl
@[simp] theorem State.nextBoundary_mode (s : State) : (s.nextBoundary).mode = s.mode := rfl
@[simp] theorem State.nextBoundary_getPhys (s : State) (q : PhysReg) : (s.nextBoundary).getPhys q = s.getPhys q := rfl
@[simp] theorem State.nextBoundary_pcOperand (s : State) : (s.nextBoundary).pcOperand = s.pcOperand := rfl
@[simp] theorem State.nextBoundary_readReg (s : State) (i : RegNum) : (s.nextBoundary).readReg i = s.readReg i := rfl
@[simp] theorem State.nextBoundary_admits (s : State) (b : Word) (n : Size) (k : Access) :
    (s.nextBoundary).admits b n k = s.admits b n k := rfl

/-! ### Storing a byte -/

@[simp] theorem State.storeByte_regs (s : State) (a : Word) (v : Byte) : (s.storeByte a v).regs = s.regs := rfl
@[simp] theorem State.storeByte_pc (s : State) (a : Word) (v : Byte) : (s.storeByte a v).pc = s.pc := rfl
@[simp] theorem State.storeByte_cpsr (s : State) (a : Word) (v : Byte) : (s.storeByte a v).cpsr = s.cpsr := rfl
@[simp] theorem State.storeByte_spsr (s : State) (a : Word) (v : Byte) : (s.storeByte a v).spsr = s.spsr := rfl
@[simp] theorem State.storeByte_mem (s : State) (a : Word) (v : Byte) : (s.storeByte a v).mem = s.mem.write a.toNat v := rfl
@[simp] theorem State.storeByte_stored (s : State) (a : Word) (v : Byte) : (s.storeByte a v).stored = Marks.add s.stored a.toNat := rfl
@[simp] theorem State.storeByte_text (s : State) (a : Word) (v : Byte) : (s.storeByte a v).text = s.text := rfl
@[simp] theorem State.storeByte_windows (s : State) (a : Word) (v : Byte) : (s.storeByte a v).windows = s.windows := rfl
@[simp] theorem State.storeByte_bigend (s : State) (a : Word) (v : Byte) : (s.storeByte a v).bigend = s.bigend := rfl
@[simp] theorem State.storeByte_pins (s : State) (a : Word) (v : Byte) : (s.storeByte a v).pins = s.pins := rfl
@[simp] theorem State.storeByte_aborts (s : State) (a : Word) (v : Byte) : (s.storeByte a v).aborts = s.aborts := rfl
@[simp] theorem State.storeByte_draws (s : State) (a : Word) (v : Byte) : (s.storeByte a v).draws = s.draws := rfl
@[simp] theorem State.storeByte_mode (s : State) (a : Word) (v : Byte) : (s.storeByte a v).mode = s.mode := rfl
@[simp] theorem State.storeByte_getPhys (s : State) (a : Word) (v : Byte) (q : PhysReg) : (s.storeByte a v).getPhys q = s.getPhys q := rfl
@[simp] theorem State.storeByte_pcOperand (s : State) (a : Word) (v : Byte) : (s.storeByte a v).pcOperand = s.pcOperand := rfl
@[simp] theorem State.storeByte_readReg (s : State) (a : Word) (v : Byte) (i : RegNum) : (s.storeByte a v).readReg i = s.readReg i := rfl
@[simp] theorem State.storeByte_admits (s : State) (a : Word) (v : Byte) (b : Word) (n : Size) (k : Access) :
    (s.storeByte a v).admits b n k = s.admits b n k := rfl

/-! ### The entry of an exception -/

@[simp] theorem enterException_pc (x : Exc) (link : Word) (old : Psr) (s : State) :
    (enterException x link old s).pc = x.vector := rfl
@[simp] theorem enterException_cpsr (x : Exc) (link : Word) (old : Psr) (s : State) :
    (enterException x link old s).cpsr = s.cpsr.onEntry x := rfl
@[simp] theorem enterException_spsr (x : Exc) (link : Word) (old : Psr) (s : State) :
    (enterException x link old s).spsr = s.spsr.set old x.mode := rfl
@[simp] theorem enterException_regs (x : Exc) (link : Word) (old : Psr) (s : State) :
    (enterException x link old s).regs = (s.setPhys (linkReg x.mode) link).regs := rfl
@[simp] theorem enterException_getPhys (x : Exc) (link : Word) (old : Psr) (s : State) (q : PhysReg) :
    (enterException x link old s).getPhys q = (s.setPhys (linkReg x.mode) link).getPhys q := rfl
@[simp] theorem enterException_mem (x : Exc) (link : Word) (old : Psr) (s : State) :
    (enterException x link old s).mem = s.mem := rfl
@[simp] theorem enterException_stored (x : Exc) (link : Word) (old : Psr) (s : State) :
    (enterException x link old s).stored = s.stored := rfl
@[simp] theorem enterException_text (x : Exc) (link : Word) (old : Psr) (s : State) :
    (enterException x link old s).text = s.text := rfl
@[simp] theorem enterException_windows (x : Exc) (link : Word) (old : Psr) (s : State) :
    (enterException x link old s).windows = s.windows := rfl
@[simp] theorem enterException_bigend (x : Exc) (link : Word) (old : Psr) (s : State) :
    (enterException x link old s).bigend = s.bigend := rfl
@[simp] theorem enterException_pins (x : Exc) (link : Word) (old : Psr) (s : State) :
    (enterException x link old s).pins = s.pins := rfl
@[simp] theorem enterException_aborts (x : Exc) (link : Word) (old : Psr) (s : State) :
    (enterException x link old s).aborts = s.aborts := rfl
@[simp] theorem enterException_draws (x : Exc) (link : Word) (old : Psr) (s : State) :
    (enterException x link old s).draws = s.draws := rfl

/-! ### The bits of the CPSR on entry (R203, R205, R207) -/

@[simp] theorem Psr.onEntry_n (p : Psr) (x : Exc) : (p.onEntry x).n = p.n := rfl
@[simp] theorem Psr.onEntry_z (p : Psr) (x : Exc) : (p.onEntry x).z = p.z := rfl
@[simp] theorem Psr.onEntry_c (p : Psr) (x : Exc) : (p.onEntry x).c = p.c := rfl
@[simp] theorem Psr.onEntry_v (p : Psr) (x : Exc) : (p.onEntry x).v = p.v := rfl
@[simp] theorem Psr.onEntry_i (p : Psr) (x : Exc) : (p.onEntry x).i = true := rfl
@[simp] theorem Psr.onEntry_f (p : Psr) (x : Exc) : (p.onEntry x).f = (p.f || x.masksFiq) := rfl
@[simp] theorem Psr.onEntry_t (p : Psr) (x : Exc) : (p.onEntry x).t = false := rfl
@[simp] theorem Psr.onEntry_m (p : Psr) (x : Exc) : (p.onEntry x).m = x.mode.toBits := rfl

/-! ### The flags written (R137) -/

@[simp] theorem Psr.setNZCV_n (p : Psr) (x : Alu) : (p.setNZCV x).n = x.result.msb := rfl
@[simp] theorem Psr.setNZCV_z (p : Psr) (x : Alu) : (p.setNZCV x).z = (x.result == 0) := rfl
@[simp] theorem Psr.setNZCV_c (p : Psr) (x : Alu) : (p.setNZCV x).c = x.c := rfl
@[simp] theorem Psr.setNZCV_v (p : Psr) (x : Alu) : (p.setNZCV x).v = x.v := rfl
@[simp] theorem Psr.setNZCV_i (p : Psr) (x : Alu) : (p.setNZCV x).i = p.i := rfl
@[simp] theorem Psr.setNZCV_f (p : Psr) (x : Alu) : (p.setNZCV x).f = p.f := rfl
@[simp] theorem Psr.setNZCV_t (p : Psr) (x : Alu) : (p.setNZCV x).t = p.t := rfl
@[simp] theorem Psr.setNZCV_m (p : Psr) (x : Alu) : (p.setNZCV x).m = p.m := rfl

end Sys2Proof.Machine
end

