-- ==== Sys2Proof/Laws/Registers.lean ====
section
/-! SUPPORT. The laws of the register file, the banks and the bits of register numbers, modes and status registers. -/

namespace Sys2Proof.Machine

/-! ### Physical registers -/

theorem PhysReg.index_injective : Function.Injective PhysReg.index := by
  intro p q h
  cases p <;> cases q <;> first | rfl | exact absurd h (by decide)

@[simp] theorem State.getPhys_setPhys_same (s : State) (p : PhysReg) (v : Word) : (s.setPhys p v).getPhys p = v := by
  simp [State.getPhys, State.setPhys]

theorem State.getPhys_setPhys_other (s : State) (p q : PhysReg) (v : Word) (h : q ≠ p) :
    (s.setPhys p v).getPhys q = s.getPhys q := by
  have : (p.index : Nat) ≠ q.index := fun e => h (PhysReg.index_injective (Fin.ext e)).symm
  simp [State.getPhys, State.setPhys, Vector.getElem_set_ne, this]

theorem State.getPhys_setPhys (s : State) (p q : PhysReg) (v : Word) :
    (s.setPhys p v).getPhys q = if q = p then v else s.getPhys q := by
  split
  · next h => rw [h, State.getPhys_setPhys_same]
  · next h => exact State.getPhys_setPhys_other s p q v h

/-- Writing one register twice is writing it once. -/
@[simp] theorem State.setPhys_setPhys (s : State) (p : PhysReg) (v w : Word) :
    (s.setPhys p v).setPhys p w = s.setPhys p w := by
  simp [State.setPhys]

/-- Writes of two registers may be exchanged. -/
theorem State.setPhys_comm (s : State) (p q : PhysReg) (v w : Word) (h : p ≠ q) :
    (s.setPhys p v).setPhys q w = (s.setPhys q w).setPhys p v := by
  have : (p.index : Nat) ≠ q.index := fun e => h (PhysReg.index_injective (Fin.ext e))
  simp only [State.setPhys, State.mk.injEq, and_true]
  exact Vector.set_comm v w this

/-! ### Banks (R31) -/

/-- Only number 15 names no general register. -/
theorem physReg_eq_none (m : Mode) (i : RegNum) : physReg m i = none ↔ i = .r15 := by
  cases i <;> simp [physReg]

/-- The number by which a physical register is named, in the modes that name it. -/
def PhysReg.number : PhysReg → RegNum
  | .r0 => .r0 | .r1 => .r1 | .r2 => .r2 | .r3 => .r3 | .r4 => .r4 | .r5 => .r5 | .r6 => .r6 | .r7 => .r7
  | .r8 | .r8Fiq => .r8
  | .r9 | .r9Fiq => .r9
  | .r10 | .r10Fiq => .r10
  | .r11 | .r11Fiq => .r11
  | .r12 | .r12Fiq => .r12
  | .r13 | .r13Fiq | .r13Irq | .r13Svc | .r13Abt | .r13Und => .r13
  | .r14 | .r14Fiq | .r14Irq | .r14Svc | .r14Abt | .r14Und => .r14

theorem PhysReg.number_of_physReg {m : Mode} {i : RegNum} {p : PhysReg} (h : physReg m i = some p) : p.number = i := by
  cases m <;> cases i <;> cases h <;> rfl

/-- In one mode two numbers never name one register. -/
theorem physReg_injective {m : Mode} {i j : RegNum} {p : PhysReg} (hi : physReg m i = some p)
    (hj : physReg m j = some p) : i = j := by
  rw [← PhysReg.number_of_physReg hi, PhysReg.number_of_physReg hj]

@[simp] theorem physReg_r14 (m : Mode) : physReg m .r14 = some (linkReg m) := rfl

theorem State.readReg_of_some {s : State} {i : RegNum} {p : PhysReg} (h : physReg s.mode i = some p) :
    s.readReg i = s.getPhys p := by
  simp [State.readReg, h]

theorem State.writeReg_of_some {s : State} {i : RegNum} {p : PhysReg} (h : physReg s.mode i = some p) (v : Word) :
    s.writeReg i v = s.setPhys p v := by
  simp [State.writeReg, h]

theorem State.writeReg_r14 (s : State) (v : Word) : s.writeReg .r14 v = s.setPhys (linkReg s.mode) v := rfl

theorem State.readReg_r14 (s : State) : s.readReg .r14 = s.getPhys (linkReg s.mode) := rfl

/-- A number other than 15 names some physical register. -/
theorem exists_physReg (m : Mode) {i : RegNum} (h : i ≠ .r15) : ∃ p, physReg m i = some p :=
  Option.ne_none_iff_exists'.1 fun hn => h ((physReg_eq_none m i).1 hn)

/-! ### Modes (R45, R46) -/

@[simp] theorem Mode.ofBits_toBits (m : Mode) : Mode.ofBits m.toBits = some m := by
  cases m <;> rfl

theorem Mode.toBits_of_ofBits {b : BitVec 5} {m : Mode} (h : Mode.ofBits b = some m) : b = m.toBits := by
  revert b m
  decide +revert

/-- A state with a mode number is in the mode it names. -/
theorem State.mode_of_ofBits {s : State} {m : Mode} (h : Mode.ofBits s.cpsr.m = some m) : s.mode = m := by
  simp [State.mode, h]

/-- After the entry of an exception the mode is that of R201. -/
@[simp] theorem enterException_mode (x : Exc) (link : Word) (old : Psr) (s : State) :
    (enterException x link old s).mode = x.mode := by
  simp [State.mode]

theorem SavedPsrs.get_set_same (y : SavedPsrs) (p : Psr) {m : Mode} (h : m ≠ .usr) (h' : m ≠ .sys) :
    (y.set p m).get m = some p := by
  cases m <;> first | rfl | contradiction

theorem SavedPsrs.get_set_other (y : SavedPsrs) (p : Psr) {m k : Mode} (h : k ≠ m) :
    (y.set p m).get k = y.get k := by
  cases m <;> cases k <;> first | rfl | contradiction

end Sys2Proof.Machine
end

