-- ==== Sys2Proof/Laws/Ops.lean ====
section
/-! SUPPORT. What each shared operation can answer, said once: the meanings' proofs cite these instead of unfolding. -/

namespace Sys2Proof.Machine

/-! ### The program counter -/

theorem pcAligned_thumb (v : Word) : pcAligned true v = true ↔ v.toNat % 2 = 0 := by
  simp [pcAligned, slice, ← BitVec.toNat_inj, BitVec.extractLsb'_toNat]

theorem pcAligned_arm (v : Word) : pcAligned false v = true ↔ v.toNat % 4 = 0 := by
  simp [pcAligned, slice, ← BitVec.toNat_inj, BitVec.extractLsb'_toNat]

/-- A word-aligned address is aligned for either state. -/
theorem pcAligned_of_arm {v : Word} (t : Bool) (h : pcAligned false v = true) : pcAligned t v = true := by
  cases t
  · exact h
  · rw [pcAligned_thumb]
    rw [pcAligned_arm] at h
    omega

theorem advance_of_fits {n : Nat} {s : State} (h : s.pc.toNat + n < 2 ^ 32) :
    advance n s = .next (s.setPc (s.pc + BitVec.ofNat 32 n)) :=
  if_pos h

theorem advance_of_wraps {n : Nat} {s : State} (h : ¬ s.pc.toNat + n < 2 ^ 32) : advance n s = .refused .pcWrap :=
  if_neg h

theorem advance_next {n : Nat} {s t : State} (h : advance n s = .next t) :
    s.pc.toNat + n < 2 ^ 32 ∧ t = s.setPc (s.pc + BitVec.ofNat 32 n) := by
  unfold advance at h
  split at h
  · next fits => exact ⟨fits, by cases h; rfl⟩
  · cases h

theorem branchTo_of_aligned {v : Word} {s : State} (h : pcAligned s.cpsr.t v = true) :
    branchTo v s = .next (s.setPc v) :=
  if_pos h

theorem branchTo_of_misaligned {v : Word} {s : State} (h : pcAligned s.cpsr.t v = false) :
    branchTo v s = .refused .misalignedBranchTarget := by
  simp [branchTo, h]

theorem branchTo_next {v : Word} {s t : State} (h : branchTo v s = .next t) :
    pcAligned s.cpsr.t v = true ∧ t = s.setPc v := by
  unfold branchTo at h
  split at h
  · next ok => exact ⟨ok, by cases h; rfl⟩
  · cases h

/-! ### The condition check (R93) -/

theorem conditional_of_passed {c : Cond} {s : State} {r : Result} (h : condPassed c s.cpsr = true) :
    conditional c s r = r :=
  if_pos h

theorem conditional_of_failed {c : Cond} {s : State} {r : Result} (h : condPassed c s.cpsr = false) :
    conditional c s r = advance 4 s := by
  simp [conditional, h]

theorem conditional_next {c : Cond} {s t : State} {r : Result} (h : conditional c s r = .next t) :
    (condPassed c s.cpsr = true ∧ r = .next t)
      ∨ (condPassed c s.cpsr = false ∧ s.pc.toNat + 4 < 2 ^ 32 ∧ t = s.setPc (s.pc + 4)) := by
  unfold conditional at h
  split at h
  · next passed => exact .inl ⟨passed, h⟩
  · next failed =>
    obtain ⟨fits, ht⟩ := advance_next h
    exact .inr ⟨by simpa using failed, fits, ht⟩

/-! ### Exception return (R139) -/

theorem exceptionReturn_next {v : Word} {s t : State} (h : exceptionReturn v s = .next t) :
    ∃ p, s.spsr.get s.mode = some p ∧
      ((p.validMode = false ∧ t = s.setCpsr p)
        ∨ (p.validMode = true ∧ pcAligned p.t v = true ∧ t = (s.setCpsr p).setPc v)) := by
  unfold exceptionReturn at h
  split at h
  · cases h
  · next p hp =>
    split at h
    · next bad =>
      cases h
      exact ⟨p, hp, .inl ⟨by simpa using bad, rfl⟩⟩
    · next good =>
      obtain ⟨ok, ht⟩ := branchTo_next h
      exact ⟨p, hp, .inr ⟨by simpa using good, ok, ht⟩⟩

/-! ### Memory accesses (R166) -/

theorem Size.aligned_iff (n : Size) (a : Word) : n.aligned a = true ↔ a.toNat % n.bytes = 0 := by
  cases n <;>
    simp [Size.aligned, Size.bytes, slice, ← BitVec.toNat_inj, BitVec.extractLsb'_toNat, Nat.mod_one]

/-- What an access that answers a next state has done. -/
theorem access_next {n : Size} {k : Access} {a : Word} {s t : State} {go : State → Result}
    (h : access n k a s go = .next t) :
    n.aligned a = true ∧
      ((s.abortAnswer = true ∧ t = takeException .dataAbort (s.pc + 8) s.nextAnswer)
        ∨ (s.abortAnswer = false ∧ s.admits a n k = true ∧ (k = .write → s.isText a n = false)
            ∧ go s.nextAnswer = .next t)) := by
  unfold access at h
  split_ifs at h with h1 h2 h3 h4
  · cases h
    exact ⟨by simpa using h1, .inl ⟨h2, rfl⟩⟩
  · refine ⟨by simpa using h1, .inr ⟨by simpa using h2, by simpa using h3, fun hk => ?_, h⟩⟩
    simpa [hk] using h4

/-- An access that nothing stands against runs its continuation. -/
theorem access_of_ok {n : Size} {k : Access} {a : Word} {s : State} {go : State → Result} (h1 : n.aligned a = true)
    (h2 : s.abortAnswer = false) (h3 : s.admits a n k = true) (h4 : k = .write → s.isText a n = false) :
    access n k a s go = go s.nextAnswer := by
  have h5 : ¬ (k = .write ∧ s.isText a n = true) := fun ⟨hk, ht⟩ => by simp [h4 hk] at ht
  simp [access, h1, h2, h3, h5]

/-- An aborted access takes the Data abort (R74, R215). -/
theorem access_of_abort {n : Size} {k : Access} {a : Word} {s : State} {go : State → Result} (h1 : n.aligned a = true)
    (h2 : s.abortAnswer = true) : access n k a s go = .next (takeException .dataAbort (s.pc + 8) s.nextAnswer) := by
  simp [access, h1, h2]

/-! ### Storing bytes -/

@[simp] theorem State.storeBytes_nil (s : State) (a : Word) : s.storeBytes a [] = s := rfl

@[simp] theorem State.storeBytes_cons (s : State) (a : Word) (v : Byte) (rest : List Byte) :
    s.storeBytes a (v :: rest) = (s.storeByte a v).storeBytes (a + 1) rest := rfl

/-- Storing bytes touches memory and the marks alone. -/
theorem State.storeBytes_frame (bs : List Byte) : ∀ (s : State) (a : Word),
    (s.storeBytes a bs).regs = s.regs ∧ (s.storeBytes a bs).pc = s.pc ∧ (s.storeBytes a bs).cpsr = s.cpsr
      ∧ (s.storeBytes a bs).spsr = s.spsr ∧ (s.storeBytes a bs).text = s.text
      ∧ (s.storeBytes a bs).windows = s.windows ∧ (s.storeBytes a bs).bigend = s.bigend
      ∧ (s.storeBytes a bs).pins = s.pins ∧ (s.storeBytes a bs).aborts = s.aborts
      ∧ (s.storeBytes a bs).draws = s.draws := by
  induction bs with
  | nil => simp
  | cons v rest ih => exact fun s a => ih (s.storeByte a v) (a + 1)

/-- Storing bytes keeps memory and the marks in canonical form. -/
theorem State.storeBytes_wf (bs : List Byte) : ∀ (s : State) (a : Word), Memory.wf s.mem → Marks.wf s.stored →
    Memory.wf (s.storeBytes a bs).mem ∧ Marks.wf (s.storeBytes a bs).stored := by
  induction bs with
  | nil => exact fun s a hm hs => ⟨hm, hs⟩
  | cons v rest ih =>
    exact fun s a hm hs =>
      ih (s.storeByte a v) (a + 1) (Memory.wf_write _ _ _ hm a.isLt) (Marks.wf_add _ _ hs)

/-- No mark is ever taken away by storing. -/
theorem State.storeBytes_stored (bs : List Byte) : ∀ (s : State) (a : Word) (x : Nat), x ∈ s.stored →
    x ∈ (s.storeBytes a bs).stored := by
  induction bs with
  | nil => exact fun s a x h => h
  | cons v rest ih => exact fun s a x h => ih (s.storeByte a v) (a + 1) x (by simp [h])

/-- What every address reads after storing bytes: the bytes in the range stored to, and what it read before outside. -/
theorem State.read_storeBytes (bs : List Byte) : ∀ (s : State) (a : Word), Memory.wf s.mem →
    a.toNat + bs.length ≤ 2 ^ 32 → ∀ x, (s.storeBytes a bs).mem.read x
      = if a.toNat ≤ x ∧ x < a.toNat + bs.length then bs.getD (x - a.toNat) 0 else s.mem.read x := by
  induction bs with
  | nil =>
    intro s a _ _ x
    rw [if_neg (by simp)]
    rfl
  | cons v rest ih =>
    intro s a hm fits x
    simp only [List.length_cons] at fits ⊢
    have head : (s.storeByte a v).mem.read x = if x = a.toNat then v else s.mem.read x := by
      split
      · next h => rw [h]; exact Memory.read_write_same _ _ _ hm
      · next h => exact Memory.read_write_other _ _ _ _ h
    rw [State.storeBytes_cons]
    by_cases hr : rest = []
    · subst hr
      rw [State.storeBytes_nil, head]
      by_cases hx : x = a.toNat
      · simp [hx]
      · rw [if_neg hx, if_neg (by simp; omega)]
    · have pos : 0 < rest.length := List.length_pos_of_ne_nil hr
      have next : (a + 1).toNat = a.toNat + 1 := by
        have one : (1 : Word).toNat = 1 := rfl
        rw [BitVec.toNat_add, one]
        omega
      rw [ih _ _ (Memory.wf_write _ _ _ hm a.isLt) (by omega), next, head]
      by_cases hx : x = a.toNat
      · rw [if_neg (by omega), if_pos hx, if_pos (by omega)]
        simp [hx]
      · by_cases hin : a.toNat + 1 ≤ x ∧ x < a.toNat + 1 + rest.length
        · rw [if_pos hin, if_pos (by omega), show x - a.toNat = x - (a.toNat + 1) + 1 by omega]
          rfl
        · rw [if_neg hin, if_neg hx, if_neg (by omega)]

/-- Storing bytes marks exactly the addresses stored to (R81; log 12). -/
theorem State.mem_stored_storeBytes (bs : List Byte) : ∀ (s : State) (a : Word), a.toNat + bs.length ≤ 2 ^ 32 →
    ∀ x, x ∈ (s.storeBytes a bs).stored ↔ x ∈ s.stored ∨ a.toNat ≤ x ∧ x < a.toNat + bs.length := by
  induction bs with
  | nil =>
    intro s a _ x
    simp only [State.storeBytes_nil, List.length_nil]
    exact ⟨.inl, fun h => h.elim id fun h => by omega⟩
  | cons v rest ih =>
    intro s a fits x
    simp only [List.length_cons] at fits ⊢
    rw [State.storeBytes_cons]
    by_cases hr : rest = []
    · subst hr
      simp only [State.storeBytes_nil, State.storeByte_stored, Marks.mem_add, List.length_nil]
      exact or_congr_right (by omega)
    · have pos : 0 < rest.length := List.length_pos_of_ne_nil hr
      have next : (a + 1).toNat = a.toNat + 1 := by
        have one : (1 : Word).toNat = 1 := rfl
        rw [BitVec.toNat_add, one]
        omega
      rw [ih _ _ (by omega), next, State.storeByte_stored, Marks.mem_add, or_assoc]
      exact or_congr_right (by omega)

end Sys2Proof.Machine
end

