-- ==== Sys2Proof/Laws/Meanings.lean ====
section
/-! SUPPORT. What each operation shared by the meanings of one family can answer (R120, R137 to R139, R142, R158),
and the arithmetic of the branch offsets (R96, R99). -/

namespace Sys2Proof.Machine

/-! ### Writing a numbered register -/

@[simp] theorem State.writeReg_cpsr (s : State) (i : RegNum) (v : Word) : (s.writeReg i v).cpsr = s.cpsr := by
  unfold State.writeReg
  split <;> rfl

@[simp] theorem State.writeReg_spsr (s : State) (i : RegNum) (v : Word) : (s.writeReg i v).spsr = s.spsr := by
  unfold State.writeReg
  split <;> rfl

@[simp] theorem State.writeReg_mem (s : State) (i : RegNum) (v : Word) : (s.writeReg i v).mem = s.mem := by
  unfold State.writeReg
  split <;> rfl

@[simp] theorem State.writeReg_stored (s : State) (i : RegNum) (v : Word) : (s.writeReg i v).stored = s.stored := by
  unfold State.writeReg
  split <;> rfl

theorem State.writeReg_pc {i : RegNum} (h : i ≠ .r15) (s : State) (v : Word) : (s.writeReg i v).pc = s.pc := by
  obtain ⟨p, hp⟩ := exists_physReg s.mode h
  rw [State.writeReg_of_some hp]
  rfl

/-! ### Branches -/

/-- BX that answers a next state has stripped bit 0, which is the new T (R120, R121). -/
theorem exchangeTo_next {v : Word} {s t : State} (h : exchangeTo v s = .next t) :
    pcAligned (v.getLsbD 0) (slice v 1 31 ++ 0#1) = true
      ∧ t = (s.setCpsr { s.cpsr with t := v.getLsbD 0 }).setPc (slice v 1 31 ++ 0#1) :=
  branchTo_next h

/-- A field shifted left and sign-extended, read as a signed number (R96, R99). -/
theorem toInt_signExtend_append_zeros {n : Nat} (k : Nat) (v : BitVec n) (h : n + k ≤ 32) :
    ((v ++ 0#k).signExtend 32).toInt = v.toInt * 2 ^ k := by
  rw [BitVec.toInt_signExtend_of_le h, BitVec.toInt_eq_toNat_cond, BitVec.toInt_eq_toNat_cond, BitVec.toNat_append]
  have shifted : v.toNat <<< k ||| (0#k).toNat = v.toNat * 2 ^ k := by simp [Nat.shiftLeft_eq]
  have sign : 2 * (v.toNat * 2 ^ k) < 2 ^ (n + k) ↔ 2 * v.toNat < 2 ^ n := by
    rw [pow_add, ← mul_assoc]
    exact Nat.mul_lt_mul_right (by positivity)
  rw [shifted]
  split <;> split <;> first | omega | (push_cast; ring)

/-- Adding a signed offset to an address, modulo 2^32. -/
theorem toNat_add_toInt (a b : Word) : ((a + b).toNat : Int) = ((a.toNat : Int) + b.toInt) % 2 ^ 32 := by
  rw [BitVec.toInt_eq_toNat_cond, BitVec.toNat_add]
  split <;> omega

/-! ### Data processing -/

/-- Where a result goes: the exception return, a branch, or a register (R137 to R139). -/
theorem finishResult_next {sBit : Bool} {rd : RegNum} {x : Alu} {s t : State} (h : finishResult sBit rd x s = .next t) :
    (rd = .r15 ∧ sBit = true ∧ exceptionReturn x.result s = .next t)
      ∨ (rd = .r15 ∧ sBit = false ∧ pcAligned s.cpsr.t x.result = true ∧ t = s.setPc x.result)
      ∨ (rd ≠ .r15 ∧ s.pc.toNat + 4 < 2 ^ 32 ∧
          t = (if sBit then (s.writeReg rd x.result).setCpsr (s.cpsr.setNZCV x)
            else s.writeReg rd x.result).setPc (s.pc + 4)) := by
  unfold finishResult at h
  split at h
  · next hd =>
    split at h
    · next hs => exact .inl ⟨hd, hs, h⟩
    · next hs =>
      obtain ⟨ok, rfl⟩ := branchTo_next h
      exact .inr (.inl ⟨hd, by simpa using hs, ok, rfl⟩)
  · next hd =>
    obtain ⟨fits, rfl⟩ := advance_next h
    refine .inr (.inr ⟨hd, ?_⟩)
    cases sBit <;> simpa [State.writeReg_pc hd] using fits

/-- A compare writes the flags and advances (R142, R143). -/
theorem finishCompare_next {x : Alu} {s t : State} (h : finishCompare x s = .next t) :
    s.pc.toNat + 4 < 2 ^ 32 ∧ t = (s.setCpsr (s.cpsr.setNZCV x)).setPc (s.pc + 4) :=
  advance_next h

/-! ### Status register transfer -/

/-- A CPSR write that answers a next state keeps T; an invalid mode number leaves the stuck state with the pc in place
(R158, R46; log 10). -/
theorem writeCpsr_next {fmask : BitVec 4} {v : Word} {s t : State} (h : writeCpsr fmask v s = .next t) :
    let written := s.cpsr.writeFields (s.cpsrMask fmask) (Psr.ofWord v)
    written.t = s.cpsr.t ∧
      (((s.cpsrMask fmask).getLsbD 0 = true ∧ written.validMode = false ∧ t = s.setCpsr written)
        ∨ (((s.cpsrMask fmask).getLsbD 0 = true → written.validMode = true) ∧ s.pc.toNat + 4 < 2 ^ 32
            ∧ t = (s.setCpsr written).setPc (s.pc + 4))) := by
  unfold writeCpsr at h
  dsimp only at h ⊢
  split_ifs at h with h1 h2
  · cases h
    exact ⟨by simpa using h1, .inl ⟨h2.1, by simpa using h2.2, rfl⟩⟩
  · obtain ⟨fits, rfl⟩ := advance_next h
    refine ⟨by simpa using h1, .inr ⟨fun hm => ?_, fits, rfl⟩⟩
    simpa [hm] using h2

/-- An SPSR write that answers a next state wrote the SPSR of the current mode, which has one (R158, R48). -/
theorem psrWrite_spsr_next {fmask : BitVec 4} {v : Word} {s t : State} (h : psrWrite .spsr fmask v s = .next t) :
    ∃ p, s.spsr.get s.mode = some p ∧ s.pc.toNat + 4 < 2 ^ 32
      ∧ t = (s.setSpsr s.mode (p.writeFields fmask (Psr.ofWord v))).setPc (s.pc + 4) := by
  unfold psrWrite at h
  dsimp only at h
  split at h
  · cases h
  · next p hp =>
    obtain ⟨fits, rfl⟩ := advance_next h
    exact ⟨p, hp, fits, rfl⟩

/-- The fields a write selects, bit by bit of the mask (R156). -/
theorem Psr.writeFields_flags (p q : Psr) (fmask : BitVec 4) :
    (p.writeFields fmask q).n = (if fmask.getLsbD 3 then q.n else p.n)
      ∧ (p.writeFields fmask q).z = (if fmask.getLsbD 3 then q.z else p.z)
      ∧ (p.writeFields fmask q).c = (if fmask.getLsbD 3 then q.c else p.c)
      ∧ (p.writeFields fmask q).v = (if fmask.getLsbD 3 then q.v else p.v) := by
  unfold Psr.writeFields
  cases fmask.getLsbD 3 <;> cases fmask.getLsbD 0 <;> simp [Psr.withFlagsOf, Psr.withControlOf]

theorem Psr.writeFields_control (p q : Psr) (fmask : BitVec 4) :
    (p.writeFields fmask q).i = (if fmask.getLsbD 0 then q.i else p.i)
      ∧ (p.writeFields fmask q).f = (if fmask.getLsbD 0 then q.f else p.f)
      ∧ (p.writeFields fmask q).t = (if fmask.getLsbD 0 then q.t else p.t)
      ∧ (p.writeFields fmask q).m = (if fmask.getLsbD 0 then q.m else p.m) := by
  unfold Psr.writeFields
  cases fmask.getLsbD 3 <;> cases fmask.getLsbD 0 <;> simp [Psr.withFlagsOf, Psr.withControlOf]

end Sys2Proof.Machine
end

