-- ==== Sys2Proof/Laws/PerInstr.lean ====
section
/-! SUPPORT. Per instruction: its encoding is accepted by its own row of the decode table (R100, R101). -/

namespace Sys2Proof

/-- The row of R100 an ARM instruction belongs to. -/
def Instr.armForm : Instr → Option ArmForm
  | .bx _ _ => some .bx
  | .mrs _ _ _ => some .mrs
  | .msrReg _ _ _ _ => some .msrReg
  | .msrImm _ _ _ _ _ => some .msrImm
  | .ldrh _ _ _ _ _ _ => some .ldrh
  | .strh _ _ _ _ _ _ => some .strh
  | .subImm _ _ _ _ _ _ => some .subImm
  | .subReg _ _ _ _ _ => some .subReg
  | .movImm _ _ _ _ _ => some .movImm
  | .movReg _ _ _ _ => some .movReg
  | .cmpImm _ _ _ _ => some .cmpImm
  | .cmpReg _ _ _ => some .cmpReg
  | .cmnImm _ _ _ _ => some .cmnImm
  | .cmnReg _ _ _ => some .cmnReg
  | .ldr _ _ _ _ _ => some .ldr
  | .str _ _ _ _ _ => some .str
  | .ldrb _ _ _ _ _ => some .ldrb
  | .strb _ _ _ _ _ => some .strb
  | .und _ _ _ => some .und
  | .b _ _ => some .b
  | .bl _ _ => some .bl
  | .swi _ _ => some .swi
  | .tSwi _ | .tBcond _ _ | .tBx _ | .tB _ | .tBlPrefix _ | .tBlSuffix _ => none

/-- The row of R101 a Thumb instruction belongs to. -/
def Instr.thumbForm : Instr → Option ThumbForm
  | .tSwi _ => some .swi
  | .tBcond _ _ => some .bcond
  | .tBx _ => some .bx
  | .tB _ => some .b
  | .tBlPrefix _ => some .blPrefix
  | .tBlSuffix _ => some .blSuffix
  | .bx _ _ | .mrs _ _ _ | .msrReg _ _ _ _ | .msrImm _ _ _ _ _ | .ldrh _ _ _ _ _ _ | .strh _ _ _ _ _ _
  | .subImm _ _ _ _ _ _ | .subReg _ _ _ _ _ | .movImm _ _ _ _ _ | .movReg _ _ _ _ | .cmpImm _ _ _ _ | .cmpReg _ _ _
  | .cmnImm _ _ _ _ | .cmnReg _ _ _ | .ldr _ _ _ _ _ | .str _ _ _ _ _ | .ldrb _ _ _ _ _ | .strb _ _ _ _ _
  | .und _ _ _ | .b _ _ | .bl _ _ | .swi _ _ => none

namespace Laws.EncodedRow

/-- The encoding matches the instruction's own row: its fixed bits are the table's, whatever its operands. -/
def Statement (i : Instr) : Prop :=
  match encode i with
  | .arm w => ∃ r ∈ armTable, i.armForm = some r.form ∧ r.accepts w = true
  | .thumb h => ∃ r ∈ thumbTable, i.thumbForm = some r.form ∧ r.accepts h = true

theorem bx (c : Cond) (rm : RegNum) : Statement (.bx c rm) := by
  refine ⟨⟨0x0FFFFFF0, 0x012FFF10, .bx⟩, by decide, rfl, ?_⟩
  rw [Row.accepts_iff]
  apply BitVec.eq_of_getLsbD_eq
  intro i hi
  rw [BitVec.getLsbD_and]
  interval_cases i <;> simp only [BitVec.getLsbD_append] <;> simp

theorem mrs (c : Cond) (r : PsrSel) (rd : RegNum) : Statement (.mrs c r rd) := by
  refine ⟨⟨0x0FBF0FFF, 0x010F0000, .mrs⟩, by decide, rfl, ?_⟩
  rw [Row.accepts_iff]
  apply BitVec.eq_of_getLsbD_eq
  intro i hi
  rw [BitVec.getLsbD_and]
  interval_cases i <;> simp only [BitVec.getLsbD_append] <;> simp

theorem msrReg (c : Cond) (r : PsrSel) (fmask : BitVec 4) (rm : RegNum) : Statement (.msrReg c r fmask rm) := by
  refine ⟨⟨0x0FB0FFF0, 0x0120F000, .msrReg⟩, by decide, rfl, ?_⟩
  rw [Row.accepts_iff]
  apply BitVec.eq_of_getLsbD_eq
  intro i hi
  rw [BitVec.getLsbD_and]
  interval_cases i <;> simp only [BitVec.getLsbD_append] <;> simp

theorem msrImm (c : Cond) (r : PsrSel) (fmask : BitVec 4) (rot : BitVec 4) (imm8 : BitVec 8) : Statement (.msrImm c r fmask rot imm8) := by
  refine ⟨⟨0x0FB0F000, 0x0320F000, .msrImm⟩, by decide, rfl, ?_⟩
  rw [Row.accepts_iff]
  apply BitVec.eq_of_getLsbD_eq
  intro i hi
  rw [BitVec.getLsbD_and]
  interval_cases i <;> simp only [BitVec.getLsbD_append] <;> simp

theorem ldrh (c : Cond) (u : Dir) (rn : RegNum) (rd : RegNum) (immH : BitVec 4) (immL : BitVec 4) : Statement (.ldrh c u rn rd immH immL) := by
  refine ⟨⟨0x0F7000F0, 0x015000B0, .ldrh⟩, by decide, rfl, ?_⟩
  rw [Row.accepts_iff]
  apply BitVec.eq_of_getLsbD_eq
  intro i hi
  rw [BitVec.getLsbD_and]
  interval_cases i <;> simp only [BitVec.getLsbD_append] <;> simp

theorem strh (c : Cond) (u : Dir) (rn : RegNum) (rd : RegNum) (immH : BitVec 4) (immL : BitVec 4) : Statement (.strh c u rn rd immH immL) := by
  refine ⟨⟨0x0F7000F0, 0x014000B0, .strh⟩, by decide, rfl, ?_⟩
  rw [Row.accepts_iff]
  apply BitVec.eq_of_getLsbD_eq
  intro i hi
  rw [BitVec.getLsbD_and]
  interval_cases i <;> simp only [BitVec.getLsbD_append] <;> simp

theorem subImm (c : Cond) (s : Bool) (rn : RegNum) (rd : RegNum) (rot : BitVec 4) (imm8 : BitVec 8) : Statement (.subImm c s rn rd rot imm8) := by
  refine ⟨⟨0x0FE00000, 0x02400000, .subImm⟩, by decide, rfl, ?_⟩
  rw [Row.accepts_iff]
  apply BitVec.eq_of_getLsbD_eq
  intro i hi
  rw [BitVec.getLsbD_and]
  interval_cases i <;> simp only [BitVec.getLsbD_append] <;> simp

theorem subReg (c : Cond) (s : Bool) (rn : RegNum) (rd : RegNum) (rm : RegNum) : Statement (.subReg c s rn rd rm) := by
  refine ⟨⟨0x0FE00FF0, 0x00400000, .subReg⟩, by decide, rfl, ?_⟩
  rw [Row.accepts_iff]
  apply BitVec.eq_of_getLsbD_eq
  intro i hi
  rw [BitVec.getLsbD_and]
  interval_cases i <;> simp only [BitVec.getLsbD_append] <;> simp

theorem movImm (c : Cond) (s : Bool) (rd : RegNum) (rot : BitVec 4) (imm8 : BitVec 8) : Statement (.movImm c s rd rot imm8) := by
  refine ⟨⟨0x0FEF0000, 0x03A00000, .movImm⟩, by decide, rfl, ?_⟩
  rw [Row.accepts_iff]
  apply BitVec.eq_of_getLsbD_eq
  intro i hi
  rw [BitVec.getLsbD_and]
  interval_cases i <;> simp only [BitVec.getLsbD_append] <;> simp

theorem movReg (c : Cond) (s : Bool) (rd : RegNum) (rm : RegNum) : Statement (.movReg c s rd rm) := by
  refine ⟨⟨0x0FEF0FF0, 0x01A00000, .movReg⟩, by decide, rfl, ?_⟩
  rw [Row.accepts_iff]
  apply BitVec.eq_of_getLsbD_eq
  intro i hi
  rw [BitVec.getLsbD_and]
  interval_cases i <;> simp only [BitVec.getLsbD_append] <;> simp

theorem cmpImm (c : Cond) (rn : RegNum) (rot : BitVec 4) (imm8 : BitVec 8) : Statement (.cmpImm c rn rot imm8) := by
  refine ⟨⟨0x0FF0F000, 0x03500000, .cmpImm⟩, by decide, rfl, ?_⟩
  rw [Row.accepts_iff]
  apply BitVec.eq_of_getLsbD_eq
  intro i hi
  rw [BitVec.getLsbD_and]
  interval_cases i <;> simp only [BitVec.getLsbD_append] <;> simp

theorem cmpReg (c : Cond) (rn : RegNum) (rm : RegNum) : Statement (.cmpReg c rn rm) := by
  refine ⟨⟨0x0FF0FFF0, 0x01500000, .cmpReg⟩, by decide, rfl, ?_⟩
  rw [Row.accepts_iff]
  apply BitVec.eq_of_getLsbD_eq
  intro i hi
  rw [BitVec.getLsbD_and]
  interval_cases i <;> simp only [BitVec.getLsbD_append] <;> simp

theorem cmnImm (c : Cond) (rn : RegNum) (rot : BitVec 4) (imm8 : BitVec 8) : Statement (.cmnImm c rn rot imm8) := by
  refine ⟨⟨0x0FF0F000, 0x03700000, .cmnImm⟩, by decide, rfl, ?_⟩
  rw [Row.accepts_iff]
  apply BitVec.eq_of_getLsbD_eq
  intro i hi
  rw [BitVec.getLsbD_and]
  interval_cases i <;> simp only [BitVec.getLsbD_append] <;> simp

theorem cmnReg (c : Cond) (rn : RegNum) (rm : RegNum) : Statement (.cmnReg c rn rm) := by
  refine ⟨⟨0x0FF0FFF0, 0x01700000, .cmnReg⟩, by decide, rfl, ?_⟩
  rw [Row.accepts_iff]
  apply BitVec.eq_of_getLsbD_eq
  intro i hi
  rw [BitVec.getLsbD_and]
  interval_cases i <;> simp only [BitVec.getLsbD_append] <;> simp

theorem ldr (c : Cond) (u : Dir) (rn : RegNum) (rd : RegNum) (imm12 : BitVec 12) : Statement (.ldr c u rn rd imm12) := by
  refine ⟨⟨0x0F700000, 0x05100000, .ldr⟩, by decide, rfl, ?_⟩
  rw [Row.accepts_iff]
  apply BitVec.eq_of_getLsbD_eq
  intro i hi
  rw [BitVec.getLsbD_and]
  interval_cases i <;> simp only [BitVec.getLsbD_append] <;> simp

theorem str (c : Cond) (u : Dir) (rn : RegNum) (rd : RegNum) (imm12 : BitVec 12) : Statement (.str c u rn rd imm12) := by
  refine ⟨⟨0x0F700000, 0x05000000, .str⟩, by decide, rfl, ?_⟩
  rw [Row.accepts_iff]
  apply BitVec.eq_of_getLsbD_eq
  intro i hi
  rw [BitVec.getLsbD_and]
  interval_cases i <;> simp only [BitVec.getLsbD_append] <;> simp

theorem ldrb (c : Cond) (u : Dir) (rn : RegNum) (rd : RegNum) (imm12 : BitVec 12) : Statement (.ldrb c u rn rd imm12) := by
  refine ⟨⟨0x0F700000, 0x05500000, .ldrb⟩, by decide, rfl, ?_⟩
  rw [Row.accepts_iff]
  apply BitVec.eq_of_getLsbD_eq
  intro i hi
  rw [BitVec.getLsbD_and]
  interval_cases i <;> simp only [BitVec.getLsbD_append] <;> simp

theorem strb (c : Cond) (u : Dir) (rn : RegNum) (rd : RegNum) (imm12 : BitVec 12) : Statement (.strb c u rn rd imm12) := by
  refine ⟨⟨0x0F700000, 0x05400000, .strb⟩, by decide, rfl, ?_⟩
  rw [Row.accepts_iff]
  apply BitVec.eq_of_getLsbD_eq
  intro i hi
  rw [BitVec.getLsbD_and]
  interval_cases i <;> simp only [BitVec.getLsbD_append] <;> simp

theorem und (c : Cond) (high : BitVec 20) (low : BitVec 4) : Statement (.und c high low) := by
  refine ⟨⟨0x0E000010, 0x06000010, .und⟩, by decide, rfl, ?_⟩
  rw [Row.accepts_iff]
  apply BitVec.eq_of_getLsbD_eq
  intro i hi
  rw [BitVec.getLsbD_and]
  interval_cases i <;> simp only [BitVec.getLsbD_append] <;> simp

theorem b (c : Cond) (imm24 : BitVec 24) : Statement (.b c imm24) := by
  refine ⟨⟨0x0F000000, 0x0A000000, .b⟩, by decide, rfl, ?_⟩
  rw [Row.accepts_iff]
  apply BitVec.eq_of_getLsbD_eq
  intro i hi
  rw [BitVec.getLsbD_and]
  interval_cases i <;> simp only [BitVec.getLsbD_append] <;> simp

theorem bl (c : Cond) (imm24 : BitVec 24) : Statement (.bl c imm24) := by
  refine ⟨⟨0x0F000000, 0x0B000000, .bl⟩, by decide, rfl, ?_⟩
  rw [Row.accepts_iff]
  apply BitVec.eq_of_getLsbD_eq
  intro i hi
  rw [BitVec.getLsbD_and]
  interval_cases i <;> simp only [BitVec.getLsbD_append] <;> simp

theorem swi (c : Cond) (comment : BitVec 24) : Statement (.swi c comment) := by
  refine ⟨⟨0x0F000000, 0x0F000000, .swi⟩, by decide, rfl, ?_⟩
  rw [Row.accepts_iff]
  apply BitVec.eq_of_getLsbD_eq
  intro i hi
  rw [BitVec.getLsbD_and]
  interval_cases i <;> simp only [BitVec.getLsbD_append] <;> simp

theorem tSwi (value8 : BitVec 8) : Statement (.tSwi value8) := by
  refine ⟨⟨0xFF00, 0xDF00, .swi⟩, by decide, rfl, ?_⟩
  rw [Row.accepts_iff]
  apply BitVec.eq_of_getLsbD_eq
  intro i hi
  rw [BitVec.getLsbD_and]
  interval_cases i <;> simp only [BitVec.getLsbD_append] <;> simp

theorem tBcond (c : Cond) (soff8 : BitVec 8) : Statement (.tBcond c soff8) := by
  refine ⟨⟨0xF000, 0xD000, .bcond⟩, by decide, rfl, ?_⟩
  rw [Row.accepts_iff]
  apply BitVec.eq_of_getLsbD_eq
  intro i hi
  rw [BitVec.getLsbD_and]
  interval_cases i <;> simp only [BitVec.getLsbD_append] <;> simp

theorem tBx (rm : RegNum) : Statement (.tBx rm) := by
  refine ⟨⟨0xFF87, 0x4700, .bx⟩, by decide, rfl, ?_⟩
  rw [Row.accepts_iff]
  apply BitVec.eq_of_getLsbD_eq
  intro i hi
  rw [BitVec.getLsbD_and]
  interval_cases i <;> simp only [BitVec.getLsbD_append] <;> simp

theorem tB (off11 : BitVec 11) : Statement (.tB off11) := by
  refine ⟨⟨0xF800, 0xE000, .b⟩, by decide, rfl, ?_⟩
  rw [Row.accepts_iff]
  apply BitVec.eq_of_getLsbD_eq
  intro i hi
  rw [BitVec.getLsbD_and]
  interval_cases i <;> simp only [BitVec.getLsbD_append] <;> simp

theorem tBlPrefix (off11 : BitVec 11) : Statement (.tBlPrefix off11) := by
  refine ⟨⟨0xF800, 0xF000, .blPrefix⟩, by decide, rfl, ?_⟩
  rw [Row.accepts_iff]
  apply BitVec.eq_of_getLsbD_eq
  intro i hi
  rw [BitVec.getLsbD_and]
  interval_cases i <;> simp only [BitVec.getLsbD_append] <;> simp

theorem tBlSuffix (off11 : BitVec 11) : Statement (.tBlSuffix off11) := by
  refine ⟨⟨0xF800, 0xF800, .blSuffix⟩, by decide, rfl, ?_⟩
  rw [Row.accepts_iff]
  apply BitVec.eq_of_getLsbD_eq
  intro i hi
  rw [BitVec.getLsbD_and]
  interval_cases i <;> simp only [BitVec.getLsbD_append] <;> simp

end Laws.EncodedRow

end Sys2Proof
end

