-- ==== Sys2Proof/Machine/Run.lean ====
section
/-! DEFINITION. A run: steps up to a bound or to a final pc (92_eei_decisions.md D25), with the inputs that stand in the
state or with the environment's as functions (spec 00_scope.md R5, 20_memory.md R73). -/

namespace Sys2Proof.Machine

/-! ## The environment (R5, R12) -/

/-- The environment's parameters of R5 as functions: no part of the state. -/
structure Environment where
  /-- `nRESET, nFIQ, nIRQ : Step -> Level` of R5, with ISYNC and LOCK. -/
  levels : Nat → Pins
  /-- `abort_oracle(addr, n, kind, history)` of R73; the history is the states the run has left, the latest first. -/
  abortOracle : Word → Size → Access → List State → Bool

/-- The data access that `i` makes in `s` unless it is turned away before it: address, width, kind (R76, R165). -/
def dataAccess (i : Instr) (s : State) : Option (Word × Size × Access) :=
  match i with
  | .ldr _ u rn _ imm12 => some (wordFormAddress s u rn imm12, .word, .read)
  | .str _ u rn _ imm12 => some (wordFormAddress s u rn imm12, .word, .write)
  | .ldrb _ u rn _ imm12 => some (wordFormAddress s u rn imm12, .byte, .read)
  | .strb _ u rn _ imm12 => some (wordFormAddress s u rn imm12, .byte, .write)
  | .ldrh _ u rn _ immH immL => some (halfFormAddress s u rn immH immL, .half, .read)
  | .strh _ u rn _ immH immL => some (halfFormAddress s u rn immH immL, .half, .write)
  | .bx _ _ | .mrs _ _ _ | .msrReg _ _ _ _ | .msrImm _ _ _ _ _ | .subImm _ _ _ _ _ _ | .subReg _ _ _ _ _
  | .movImm _ _ _ _ _ | .movReg _ _ _ _ | .cmpImm _ _ _ _ | .cmpReg _ _ _ | .cmnImm _ _ _ _ | .cmnReg _ _ _
  | .und _ _ _ | .b _ _ | .bl _ _ | .swi _ _ | .tSwi _ | .tBcond _ _ | .tBx _ | .tB _ | .tBlPrefix _
  | .tBlSuffix _ => none

/-- The answers `env` gives to the accesses of the next step from `s`: the fetch, then the data access (R76, R209). -/
def Environment.answers (env : Environment) (past : List State) (s : State) : List Bool :=
  let data :=
    match s.decodeAtPc with
    | .ok i => (dataAccess i s).toList.map (fun x => env.abortOracle x.1 x.2.1 x.2.2 past)
    | .reject _ => []
  env.abortOracle s.pc s.fetchSize .fetch past :: data

/-- `s` with the inputs that `env` gives its next step, after a run that has left the states `past`. -/
def State.under (s : State) (env : Environment) (past : List State) : State :=
  { s with
    pins := { coming := [env.levels past.length], cycle := [] }
    aborts := { coming := env.answers past s, cycle := [] } }

/-! ## The end of a run (D25) -/

/-- How a run ends. -/
inductive RunEnd where
  /-- The pc is final, and the state not stuck (R11 c). -/
  | final (s : State)
  /-- The bound on the steps is reached. -/
  | bound (s : State)
  /-- The step from `s` is a fault. -/
  | fault (r : Fault) (s : State)
  /-- The step from `s` is refused. -/
  | refused (r : Refusal) (s : State)
  deriving DecidableEq, Repr

/-- The pc is one at which the run ends; a stuck state is never final (R11 c). -/
def State.isFinal (s : State) (final : Word → Bool) : Bool :=
  !s.stuck && final s.pc

/-- At most `k` steps from `s`, until the pc satisfies `final`; `inputs` sets what each step sees, from the states the
run has left. -/
def runWith (inputs : List State → State → State) (final : Word → Bool) : Nat → List State → State → RunEnd
  | 0, _, s => if s.isFinal final then .final s else .bound s
  | k + 1, past, s =>
    if s.isFinal final then .final s
    else
      match step (inputs past s) with
      | .next t => runWith inputs final k (s :: past) t
      | .fault r => .fault r s
      | .refused r => .refused r s

/-- The run whose inputs are those that stand in the state. -/
def run (final : Word → Bool) (k : Nat) (s : State) : RunEnd :=
  runWith (fun _ t => t) final k [] s

/-- The run whose inputs are those of `env`. -/
def runUnder (env : Environment) (final : Word → Bool) (k : Nat) (s : State) : RunEnd :=
  runWith (fun past t => t.under env past) final k [] s

end Sys2Proof.Machine
end

