-- ==== Sys2Proof/Laws/Run.lean ====
section
/-! SUPPORT. The laws of inputs and of runs: what an input gives now and next, what an environment gives a step, and how
a run ends. -/

namespace Sys2Proof.Machine

/-! ### Inputs -/

@[simp] theorem Trace.now_cons {α : Type} (quiet v : α) (x : Trace α) : (x.cons v).now quiet = v := rfl
@[simp] theorem Trace.next_cons {α : Type} (v : α) (x : Trace α) : (x.cons v).next = x := rfl
@[simp] theorem Trace.now_always {α : Type} (quiet v : α) : (Trace.always v).now quiet = v := rfl
@[simp] theorem Trace.next_always {α : Type} (v : α) : (Trace.always v).next = Trace.always v := rfl

/-- A quiet trace stays quiet. -/
theorem Trace.next_quiet {α : Type} : (⟨[], []⟩ : Trace α).next = ⟨[], []⟩ := rfl

/-- A state whose levels are the same for ever sees them at every boundary. -/
theorem State.levels_always {s : State} {p : Pins} (h : s.pins = Trace.always p) :
    s.levels = p ∧ s.nextBoundary.pins = Trace.always p := by
  simp [State.levels, h]

/-- A state whose accesses are all answered alike has that answer now and after. -/
theorem State.abortAnswer_always {s : State} {b : Bool} (h : s.aborts = Trace.always b) :
    s.abortAnswer = b ∧ s.nextAnswer.aborts = Trace.always b := by
  simp [State.abortAnswer, h]

/-! ### What an environment gives a step (R5, R73) -/

@[simp] theorem State.under_levels (s : State) (env : Environment) (past : List State) :
    (s.under env past).levels = env.levels past.length := rfl

/-- The fetch of the step is answered by the oracle for the fetch at the pc. -/
@[simp] theorem State.under_fetchAnswer (s : State) (env : Environment) (past : List State) :
    (s.under env past).nextBoundary.abortAnswer = env.abortOracle s.pc s.fetchSize .fetch past := rfl

/-- The data access of the step is answered by the oracle for that access. -/
theorem State.under_dataAnswer {s : State} (env : Environment) (past : List State) {i : Instr} {a : Word} {n : Size}
    {k : Access} (h : s.decodeAtPc = .ok i) (hd : dataAccess i s = some (a, n, k)) :
    (s.under env past).nextBoundary.nextAnswer.abortAnswer = env.abortOracle a n k past := by
  simp [State.under, Environment.answers, State.abortAnswer, Trace.now, Trace.next, h, hd]

/-- A load's data access is the one its meaning makes. -/
theorem dataAccess_load {i : Instr} {c : Cond} {n : Size} {rd : RegNum} {s : State} {a : Word}
    (h : LoadForm i c n rd s a) : dataAccess i s = some (a, n, .read) := by
  obtain ⟨u, rn, o, rfl, rfl, rfl⟩ | ⟨u, rn, o, rfl, rfl, rfl⟩ | ⟨u, rn, o, p, rfl, rfl, rfl⟩ := h <;> rfl

/-- A store's data access is the one its meaning makes. -/
theorem dataAccess_store {i : Instr} {c : Cond} {n : Size} {rd : RegNum} {s : State} {a : Word}
    (h : StoreForm i c n rd s a) : dataAccess i s = some (a, n, .write) := by
  obtain ⟨u, rn, o, rfl, rfl, rfl⟩ | ⟨u, rn, o, rfl, rfl, rfl⟩ | ⟨u, rn, o, p, rfl, rfl, rfl⟩ := h <;> rfl

/-! ### How a run ends (D25) -/

/-- A stuck state is never final. -/
theorem State.isFinal_stuck {s : State} (final : Word → Bool) (h : s.stuck = true) : s.isFinal final = false := by
  simp [State.isFinal, h]

theorem runWith_final {inputs : List State → State → State} {final : Word → Bool} {k : Nat} {past : List State}
    {s : State} (h : s.isFinal final = true) : runWith inputs final k past s = .final s := by
  cases k <;> simp [runWith, h]

theorem runWith_next {inputs : List State → State → State} {final : Word → Bool} {k : Nat} {past : List State}
    {s t : State} (h : s.isFinal final = false) (hs : step (inputs past s) = .next t) :
    runWith inputs final (k + 1) past s = runWith inputs final k (s :: past) t := by
  simp [runWith, h, hs]

/-- A run that has ended before its bound ends alike under every larger bound. -/
theorem runWith_add (inputs : List State → State → State) (final : Word → Bool) (m : Nat) :
    ∀ (k : Nat) (past : List State) (s : State), (∀ t, runWith inputs final k past s ≠ .bound t) →
      runWith inputs final (k + m) past s = runWith inputs final k past s := by
  intro k
  induction k with
  | zero =>
    intro past s h
    cases hf : s.isFinal final
    · exact absurd (by simp [runWith, hf]) (h s)
    · rw [runWith_final hf, runWith_final hf]
  | succ k ih =>
    intro past s h
    rw [Nat.succ_add]
    cases hf : s.isFinal final
    · cases hs : step (inputs past s) with
      | next t =>
        rw [runWith_next hf hs] at h
        rw [runWith_next hf hs, runWith_next hf hs, ih _ _ h]
      | fault r => simp [runWith, hf, hs]
      | refused r => simp [runWith, hf, hs]
    · rw [runWith_final hf, runWith_final hf]

end Sys2Proof.Machine
end

