-- ==== Sys2Proof/Laws/Step.lean ====
section
/-! SUPPORT. What one step can do, said once: the boundary, the fetch, the instruction (R209). -/

namespace Sys2Proof.Machine

/-- A boundary that is taken is a reset, an FIQ or an IRQ. -/
theorem boundary_taken {s t : State} (h : boundary s = .taken t) :
    (s.levels.nReset = false ∧ t = takeReset s.nextBoundary)
      ∨ (s.levels.nReset = true ∧ s.stuck = false ∧ s.levels.nFiq = false ∧ s.cpsr.f = false
          ∧ t = takeException .fiq (s.pc + 4) s.nextBoundary)
      ∨ (s.levels.nReset = true ∧ s.stuck = false ∧ (s.levels.nFiq = true ∨ s.cpsr.f = true)
          ∧ s.levels.nIrq = false ∧ s.cpsr.i = false ∧ t = takeException .irq (s.pc + 4) s.nextBoundary) := by
  unfold boundary at h
  dsimp only at h
  split_ifs at h with h1 h2 h3 h4 <;> cases h
  · exact .inl ⟨by simpa using h1, rfl⟩
  · simp only [Bool.and_eq_true, Bool.not_eq_true'] at h3
    exact .inr (.inl ⟨by simpa using h1, by simpa using h2, h3.1, h3.2, rfl⟩)
  · simp only [Bool.and_eq_true, Bool.not_eq_true'] at h3 h4
    refine .inr (.inr ⟨by simpa using h1, by simpa using h2, ?_, h4.1, h4.2, rfl⟩)
    cases hq : s.levels.nFiq
    · exact .inr (by simpa [hq] using h3)
    · exact .inl rfl

/-- A boundary that lets an instruction run has only used up its levels. -/
theorem boundary_run {s t : State} (h : boundary s = .run t) : s.stuck = false ∧ t = s.nextBoundary := by
  unfold boundary at h
  dsimp only at h
  split_ifs at h with h1 h2 h3 h4
  cases h
  exact ⟨by simpa using h2, rfl⟩

/-- A fetch that is aborted takes the Prefetch abort. -/
theorem fetchInstr_aborted {s t : State} (h : fetchInstr s = .aborted t) :
    s.abortAnswer = true ∧ t = takeException .prefetchAbort (s.pc + 4) s.nextAnswer := by
  unfold fetchInstr at h
  split_ifs at h with h1 h2 h3
  · cases h
    exact ⟨h1, rfl⟩
  · split at h <;> cases h

/-- A fetch that gives an instruction gives the decoding of what stands at the pc, and has only used up its answer. -/
theorem fetchInstr_got {s t : State} {i : Instr} (h : fetchInstr s = .got i t) :
    s.abortAnswer = false ∧ s.admits s.pc s.fetchSize .fetch = true ∧ s.isStored s.pc s.fetchSize = false
      ∧ s.decodeAtPc = .ok i ∧ t = s.nextAnswer := by
  unfold fetchInstr at h
  split_ifs at h with h1 h2 h3
  split at h
  · next j hj =>
    cases h
    exact ⟨by simpa using h1, by simpa using h2, by simpa using h3, hj, rfl⟩
  · cases h

/-- What a step that answers a next state has done: a reset or an interrupt, a Prefetch abort, or an instruction. -/
theorem step_next {s t : State} (h : step s = .next t) :
    boundary s = .taken t
      ∨ (s.stuck = false ∧
          ((s.nextBoundary.abortAnswer = true
              ∧ t = takeException .prefetchAbort (s.pc + 4) s.nextBoundary.nextAnswer)
            ∨ ∃ i, s.decodeAtPc = .ok i ∧ exec i s.nextBoundary.nextAnswer = .next t)) := by
  unfold step at h
  split at h
  · next u hu =>
    cases h
    exact .inl hu
  · cases h
  · next u hu =>
    obtain ⟨valid, rfl⟩ := boundary_run hu
    split at h
    · next v hv =>
      cases h
      exact .inr ⟨valid, .inl (fetchInstr_aborted hv)⟩
    · cases h
    · next i v hv =>
      obtain ⟨-, -, -, hi, rfl⟩ := fetchInstr_got hv
      exact .inr ⟨valid, .inr ⟨i, hi, h⟩⟩

/-! ### Which state an instruction belongs to (R90) -/

/-- What decodes in ARM state is an ARM instruction: it has a condition (R91). -/
theorem decodeArm_armCond {w : Word} {i : Instr} (h : decodeArm w = .ok i) : ∃ c, i.armCond = some c := by
  unfold decodeArm at h
  split at h
  · cases h
  · split at h
    · next r _ =>
      injection h with h
      subst h
      cases r.form <;> exact ⟨_, rfl⟩
    · cases h

/-- What decodes in Thumb state is a Thumb instruction. -/
theorem decodeThumb_armCond {w : Half} {i : Instr} (h : decodeThumb w = .ok i) : i.armCond = none := by
  unfold decodeThumb thumbFields at h
  repeat' split at h
  all_goals first
    | (injection h with h; subst h; rfl)
    | cases h

/-! ### Loading (log 13) -/

/-- Placing bytes from outside keeps memory and the marks in canonical form. -/
theorem State.placeBytes_wf (bs : List Byte) : ∀ (s : State) (a : Word), Memory.wf s.mem → Marks.wf s.stored →
    Memory.wf (s.placeBytes a bs).mem ∧ Marks.wf (s.placeBytes a bs).stored := by
  induction bs with
  | nil => exact fun s a hm hs => ⟨hm, hs⟩
  | cons v rest ih =>
    exact fun s a hm hs => ih _ (a + 1) (Memory.wf_write _ _ _ hm a.isLt) (Marks.wf_remove _ _ hs)

/-- Placing an instruction keeps memory and the marks in canonical form. -/
theorem State.withFetchWord_wf (s : State) (nbits w : Nat) (hm : Memory.wf s.mem) (hs : Marks.wf s.stored) :
    Memory.wf (s.withFetchWord nbits w).mem ∧ Marks.wf (s.withFetchWord nbits w).stored :=
  State.placeBytes_wf _ s _ hm hs

end Sys2Proof.Machine
end

