-- ==== Sys2Proof/Tests/Slice0.lean ====
section
/-! SUPPORT. The model's own tests. Expected results are the spec's: the vectors of 95_test_vectors.md (named B, A, E,
S, L, X there), the worked examples of the instruction rules, and words written out bit by bit from R94 and R98. -/

namespace Sys2Proof.Tests

open Sys2Proof Sys2Proof.Machine

/-! ## Helpers -/

/-- Reset, but for the pc and the CPSR. -/
def start (cpsr pc : Word) : State :=
  { State.reset with pc := pc, cpsr := Psr.ofWord cpsr }

/-- User mode, ARM state, at 0x8000: the convention of 95_test_vectors.md. -/
def user : State := start 0x10 0x8000

/-- User mode, Thumb state. -/
def thumb (pc : Word) : State := start 0x30 pc

/-- A mode's SPSR given. -/
def saved (s : State) (m : Mode) (p : Word) : State :=
  s.setSpsr m (Psr.ofWord p)

/-- Running one ARM word. -/
def arm (w : Word) (s : State) : Result :=
  match decodeArm w with
  | .ok i => exec i s
  | .reject e => .refused (DecodeError.refusal e)

/-- Running one Thumb halfword. -/
def half (h : Half) (s : State) : Result :=
  match decodeThumb h with
  | .ok i => exec i s
  | .reject e => .refused (DecodeError.refusal e)

/-- The outcome is a next state with property `p`. -/
def next (r : Result) (p : State → Bool) : Bool :=
  match r with
  | .next t => p t
  | .fault _ => false
  | .refused _ => false

/-- The outcome is the refusal `x`. -/
def refused (r : Result) (x : Refusal) : Bool :=
  match r with
  | .next _ => false
  | .fault _ => false
  | .refused y => y == x

/-- The outcome is the fault of a stuck state. -/
def stopped (r : Result) : Bool :=
  match r with
  | .next _ => false
  | .fault x => x == .unrecoverable
  | .refused _ => false

/-- The CPSR, as a word with its reserved bits 0, is `w`. -/
def cpsrIs (t : State) (w : Word) : Bool :=
  t.cpsr == Psr.ofWord w

/-! ## Well-formedness: the one check, and an ill-formed term it refuses -/

theorem test_thumb_branch_has_no_always : (Instr.tBcond .al 0).wellFormed = false := by decide

theorem test_thumb_branch_wellFormed : (Instr.tBcond .le 0).wellFormed = true := by decide

/-! ## Decoding: one word per constructor, written out from R94 and R98 -/

theorem test_decode_bx : decodeArm 0b1110_000100101111111111110001_0000 = .ok (.bx .al .r0) := by decide

theorem test_decode_mrs : decodeArm 0b1110_00010_1_00_1111_0011_000000000000 = .ok (.mrs .al .spsr .r3) := by decide

theorem test_decode_msrReg : decodeArm 0b1110_00010_0_10_1001_1111_00000000_0010 = .ok (.msrReg .al .cpsr 0b1001 .r2) := by
  decide

theorem test_decode_msrImm :
    decodeArm 0b1110_00110_1_10_0001_1111_0011_11010010 = .ok (.msrImm .al .spsr 0b0001 3 0xD2) := by decide

theorem test_decode_ldrh :
    decodeArm 0b1110_000_1_1_1_0_1_0001_0010_0100_1011_0110 = .ok (.ldrh .al .up .r1 .r2 4 6) := by decide

theorem test_decode_strh :
    decodeArm 0b0001_000_1_0_1_0_0_0011_0101_0111_1011_1000 = .ok (.strh .ne .down .r3 .r5 7 8) := by decide

theorem test_decode_subImm :
    decodeArm 0b1110_00_1_0010_1_1110_1111_0000_00000100 = .ok (.subImm .al true .r14 .r15 0 4) := by decide

theorem test_decode_subReg :
    decodeArm 0b1011_00_0_0010_0_0001_0000_00000000_0010 = .ok (.subReg .lt false .r1 .r0 .r2) := by decide

theorem test_decode_movImm :
    decodeArm 0b1110_00_1_1101_0_0000_1101_1010_00000001 = .ok (.movImm .al false .r13 10 1) := by decide

theorem test_decode_movReg :
    decodeArm 0b1110_00_0_1101_1_0000_1111_00000000_1110 = .ok (.movReg .al true .r15 .r14) := by decide

theorem test_decode_cmpImm :
    decodeArm 0b0000_00_1_1010_1_0110_0000_0001_00001010 = .ok (.cmpImm .eq .r6 1 10) := by decide

theorem test_decode_cmpReg :
    decodeArm 0b1110_00_0_1010_1_0111_0000_00000000_1000 = .ok (.cmpReg .al .r7 .r8) := by decide

theorem test_decode_cmnImm :
    decodeArm 0b1000_00_1_1011_1_1001_0000_0010_00001011 = .ok (.cmnImm .hi .r9 2 11) := by decide

theorem test_decode_cmnReg :
    decodeArm 0b1110_00_0_1011_1_1010_0000_00000000_1011 = .ok (.cmnReg .al .r10 .r11) := by decide

theorem test_decode_ldr :
    decodeArm 0b1110_01_0_1_0_0_0_1_0001_0000_000000000100 = .ok (.ldr .al .down .r1 .r0 4) := by decide

theorem test_decode_str :
    decodeArm 0b1110_01_0_1_1_0_0_0_1100_0100_100000000001 = .ok (.str .al .up .r12 .r4 0x801) := by decide

theorem test_decode_ldrb :
    decodeArm 0b0101_01_0_1_1_1_0_1_0010_0011_000000001111 = .ok (.ldrb .pl .up .r2 .r3 15) := by decide

theorem test_decode_strb :
    decodeArm 0b1110_01_0_1_0_1_0_0_1101_0110_000000010000 = .ok (.strb .al .down .r13 .r6 16) := by decide

theorem test_decode_und :
    decodeArm 0b1110_011_11111000000000000111_1_0000 = .ok (.und .al 0b11111000000000000111 0) := by decide

theorem test_decode_b :
    decodeArm 0b0001_101_0_111111111111111111111101 = .ok (.b .ne 0xFFFFFD) := by decide

theorem test_decode_bl :
    decodeArm 0b1110_101_1_000000000000000000000010 = .ok (.bl .al 2) := by decide

theorem test_decode_swi :
    decodeArm 0b1110_1111_000100100011010001010110 = .ok (.swi .al 0x123456) := by decide

theorem test_decode_tSwi : decodeThumb 0b11011111_00000101 = .ok (.tSwi 5) := by decide

theorem test_decode_tBcond : decodeThumb 0b1101_0001_00000001 = .ok (.tBcond .ne 1) := by decide

theorem test_decode_tBx : decodeThumb 0b01000111_0_1110_000 = .ok (.tBx .r14) := by decide

theorem test_decode_tB : decodeThumb 0b11100_11111111100 = .ok (.tB 0x7FC) := by decide

theorem test_decode_tBlPrefix : decodeThumb 0b1111_0_11111111111 = .ok (.tBlPrefix 0x7FF) := by decide

theorem test_decode_tBlSuffix : decodeThumb 0b1111_1_00000000110 = .ok (.tBlSuffix 6) := by decide

/-- Vectors A17, A19 to A21, B13, B17: words that are no instruction of the spec. -/
theorem test_decode_refusals :
    decodeArm 0xF3A00001 = .reject .condNV ∧ decodeArm 0xE0800001 = .reject .notSpecified
      ∧ decodeArm 0xE1A00081 = .reject .notSpecified ∧ decodeArm 0xE3A10001 = .reject .notSpecified
      ∧ decodeThumb 0x4780 = .reject .notSpecified ∧ decodeThumb 0xDE00 = .reject .thumbCond1110 := by decide

/-- The bytes of a word in both byte orders (R65, R66). -/
theorem test_decode_bytes :
    decodeBytes false false [0x03, 0x00, 0xA0, 0xE3] = .ok (.movImm .al false .r0 0 3)
      ∧ decodeBytes true false [0xE3, 0xA0, 0x00, 0x03] = .ok (.movImm .al false .r0 0 3)
      ∧ decodeBytes false true [0x05, 0xDF] = .ok (.tSwi 5) ∧ decodeBytes true true [0xDF, 0x05] = .ok (.tSwi 5)
      ∧ decodeBytes false false [0x03, 0x00, 0xA0] = .reject .notSpecified := by decide

/-! ## Branches -/

/-- B1. -/
theorem test_bx_to_thumb :
    next (arm 0xE12FFF10 (user.setPhys .r0 0x8011)) (fun t => t.pc == 0x8010 && cpsrIs t 0x30) = true := by decide

/-- B3, B4. -/
theorem test_bx_refusals :
    refused (arm 0xE12FFF10 (user.setPhys .r0 0x8002)) .misalignedBranchTarget = true
      ∧ refused (arm 0xE12FFF1F user) .bxPc = true := by decide

/-- B6, B8. -/
theorem test_b_back : next (arm 0x1AFFFFFD (start 0x10 0x8008)) (fun t => t.pc == 0x8004) = true := by decide

theorem test_b_wraps : next (arm 0xEA000000 (start 0x10 0xFFFFFFFC)) (fun t => t.pc == 4) = true := by decide

/-- B5. -/
theorem test_bl_links :
    next (arm 0xEB000002 user) (fun t => t.pc == 0x8010 && t.getPhys .r14 == 0x8004) = true := by decide

/-- B10, B11. -/
theorem test_tBx_to_arm :
    next (half 0x4708 ((thumb 0x8016).setPhys .r1 0x8020)) (fun t => t.pc == 0x8020 && cpsrIs t 0x10) = true := by decide

theorem test_tBx_pc : next (half 0x4778 (thumb 0x8000)) (fun t => t.pc == 0x8004 && cpsrIs t 0x10) = true := by decide

/-- B14, B15. -/
theorem test_tBcond_taken : next (half 0xD101 (thumb 0x8010)) (fun t => t.pc == 0x8016) = true := by decide

theorem test_tBcond_not_taken :
    next (half 0xD101 (start 0x40000030 0x8010)) (fun t => t.pc == 0x8012) = true := by decide

/-- B18. -/
theorem test_tB_back : next (half 0xE7FC (thumb 0x8010)) (fun t => t.pc == 0x800C) = true := by decide

/-- B20, B22. -/
theorem test_tBlPrefix_negative :
    next (half 0xF7FF (thumb 0x8000)) (fun t => t.pc == 0x8002 && t.getPhys .r14 == 0x7004) = true := by decide

/-- B21, B22. -/
theorem test_tBlSuffix_links :
    next (half 0xFFFE ((thumb 0x8002).setPhys .r14 0x7004))
      (fun t => t.pc == 0x8000 && t.getPhys .r14 == 0x8005) = true := by decide

/-! ## Data processing -/

/-- A9. -/
theorem test_subReg_overflow :
    next (arm 0xE0510002 ((user.setPhys .r1 0x80000000).setPhys .r2 1))
      (fun t => t.getPhys .r0 == 0x7FFFFFFF && cpsrIs t 0x30000010) = true := by decide

/-- A8. -/
theorem test_subImm_borrow :
    next (arm 0xE2500001 user) (fun t => t.getPhys .r0 == 0xFFFFFFFF && cpsrIs t 0x80000010) = true := by decide

/-- E1. -/
theorem test_subImm_returns :
    next (arm 0xE25EF004 ((saved (start 0x92 0x18) .irq 0x30).setPhys .r14Irq 0x801A))
      (fun t => t.pc == 0x8016 && cpsrIs t 0x30) = true := by decide

/-- A4. -/
theorem test_movImm_rotated :
    next (arm 0xE3B00102 (start 0x10000010 0x8000))
      (fun t => t.getPhys .r0 == 0x80000000 && cpsrIs t 0xB0000010) = true := by decide

/-- A3. -/
theorem test_movImm_fiq_bank :
    next (arm 0xE3A08005 (start 0xD1 0x8000)) (fun t => t.getPhys .r8Fiq == 5 && t.getPhys .r8 == 0) = true := by decide

/-- A18. -/
theorem test_movReg_to_pc :
    next (arm 0xE1A0F00E ((start 0x93 0x8000).setPhys .r14Svc 0x9000))
      (fun t => t.pc == 0x9000 && cpsrIs t 0x93) = true := by decide

/-- E6: the stuck state, and what its next step is. -/
theorem test_movReg_to_stuck :
    next (arm 0xE1B0F00E ((saved (start 0x93 0x8000) .svc 0).setPhys .r14Svc 0x8000))
      (fun t => t.stuck && cpsrIs t 0 && stopped (step t)) = true := by decide

/-- A12, and a register number 15 that reads two instructions ahead. -/
theorem test_cmpReg_borrow :
    next (arm 0xE1500001 ((user.setPhys .r0 5).setPhys .r1 7)) (fun t => cpsrIs t 0x80000010) = true := by decide

/-- A11, with the comparison of equal values. -/
theorem test_cmpImm_equal : next (arm 0xE3500000 user) (fun t => cpsrIs t 0x60000010) = true := by decide

/-- A14. -/
theorem test_cmnImm_overflow :
    next (arm 0xE3700001 (user.setPhys .r0 0x7FFFFFFF)) (fun t => cpsrIs t 0x90000010) = true := by decide

/-- A row of the corner table of R144: 0x80000000 + 0x80000000. -/
theorem test_cmnReg_carry :
    next (arm 0xE1700001 ((user.setPhys .r0 0x80000000).setPhys .r1 0x80000000))
      (fun t => cpsrIs t 0x70000010) = true := by decide

/-! ## Status register transfer -/

/-- S1: the defined bits of the value, whatever the free bits are. -/
theorem test_mrs_bits :
    arm 0xE10F0000 (start 0x600000D3 0x8000)
        = .next (((start 0x600000D3 0x8000).countDraw.setPhys .r0
            ((Psr.ofWord 0x600000D3).toWord (Config.freeReserved 0))).setPc 0x8004)
      ∧ ∀ r, ((Psr.ofWord 0x600000D3).toWord r).extractLsb' 28 4 = 0x6#4
        ∧ ((Psr.ofWord 0x600000D3).toWord r).extractLsb' 0 8 = 0xD3#8 := by
  refine ⟨rfl, fun r => ⟨?_, ?_⟩⟩ <;>
    · apply BitVec.eq_of_getLsbD_eq
      intro k hk
      simp only [Psr.toWord, BitVec.getLsbD_extractLsb', BitVec.getLsbD_append]
      interval_cases k <;> rfl

/-- S3. -/
theorem test_mrs_no_spsr : refused (arm 0xE14F0000 user) .noSpsr = true := by decide

/-- S4. -/
theorem test_msrReg_cpsr :
    next (arm 0xE129F000 ((start 0xD3 0x8000).setPhys .r0 0x6000001F)) (fun t => cpsrIs t 0x6000001F) = true := by decide

/-- S12. -/
theorem test_msrReg_spsr :
    next (arm 0xE169F000 ((start 0x92 0x8000).setPhys .r0 0xF00000FF))
      (fun t => t.spsr.irq == Psr.ofWord 0xF00000FF && cpsrIs t 0x92) = true := by decide

/-- S7: a User-mode write of the control bits is ignored. -/
theorem test_msrImm_user : next (arm 0xE321F0D3 user) (fun t => cpsrIs t 0x10 && t.pc == 0x8004) = true := by decide

/-- S10, S11. -/
theorem test_msrImm_stuck_and_refused :
    next (arm 0xE321F000 (start 0xD3 0x8000)) (fun t => t.stuck) = true
      ∧ refused (arm 0xE321F030 (start 0xD3 0x8000)) .tBitWrite = true := by decide

/-! ## Loads and stores -/

/-- A state with bytes placed at 0x9000 and R1 pointing there. -/
def data (bs : List Byte) (big : Bool) : State :=
  ({ user with bigend := big }.placeBytes 0x9000 bs).setPhys .r1 0x9000

/-- L1, both byte orders. -/
theorem test_ldr_byte_orders :
    next (arm 0xE5912000 (data [0x2A, 0, 0, 0] false)) (fun t => t.getPhys .r2 == 0x2A) = true
      ∧ next (arm 0xE5912000 (data [0x2A, 0, 0, 0] true)) (fun t => t.getPhys .r2 == 0x2A000000) = true := by decide

/-- L4, L5. -/
theorem test_ldr_refusals :
    refused (arm 0xE5910000 (user.setPhys .r1 0x9002)) .misalignedAccess = true
      ∧ refused (arm 0xE5910000 { user with windows := [] }) .unmappedAccess = true := by decide

/-- L15, X5: the Data abort. -/
theorem test_ldr_aborted :
    next (arm 0xE5910000 { start 0x60000010 0x8000 with aborts := ⟨[true], []⟩ })
      (fun t => t.pc == 0x10 && cpsrIs t 0x60000097 && t.getPhys .r14Abt == 0x8008
        && t.spsr.abt == Psr.ofWord 0x60000010 && t.aborts == ⟨[], []⟩) = true := by decide

/-- L9. -/
theorem test_ldrb_low_byte :
    next (arm 0xE5D13000 (data [0x2A, 0xFF, 0xFF, 0xFF] false)) (fun t => t.getPhys .r3 == 0x2A) = true := by decide

/-- L12. -/
theorem test_ldrh_offset :
    next (arm 0xE1D101B2 ((user.placeBytes 0x9012 [0xCD, 0xAB]).setPhys .r1 0x9000))
      (fun t => t.getPhys .r0 == 0xABCD) = true := by decide

/-- L7, both byte orders. -/
theorem test_str_byte_orders :
    next (arm 0xE5810000 ((data [] false).setPhys .r0 0x2A)) (fun t => t.mem == [(0x9000, 0x2A)]) = true
      ∧ next (arm 0xE5810000 ((data [] true).setPhys .r0 0x2A)) (fun t => t.mem == [(0x9003, 0x2A)]) = true := by decide

/-- L8, with the text declared. -/
theorem test_str_to_text :
    refused (arm 0xE5810000 ({ user with text := [⟨0x8000, 0x80FF⟩] }.setPhys .r1 0x8000)) .storeToCode = true := by decide

/-- L10. -/
theorem test_strb_one_byte :
    next (arm 0xE5C10000 ((user.setPhys .r0 0x12345678).setPhys .r1 0x9001)) (fun t => t.mem == [(0x9001, 0x78)]) = true := by
  decide

/-- L14, big-endian. -/
theorem test_strh_big :
    next (arm 0xE1C100B0 (({ user with bigend := true }.setPhys .r0 0xAABB1234).setPhys .r1 0x9002))
      (fun t => t.mem == [(0x9002, 0x12), (0x9003, 0x34)]) = true := by decide

/-! ## Software interrupt, undefined space -/

/-- X1. -/
theorem test_swi_entry :
    next (arm 0xEF000000 (start 0x10 0x8004))
      (fun t => t.pc == 8 && cpsrIs t 0x93 && t.getPhys .r14Svc == 0x8008 && t.spsr.svc == Psr.ofWord 0x10) = true := by
  decide

/-- X2. -/
theorem test_tSwi_entry :
    next (half 0xDF05 (thumb 0x8012))
      (fun t => t.pc == 8 && cpsrIs t 0x93 && t.getPhys .r14Svc == 0x8014 && t.spsr.svc == Psr.ofWord 0x30) = true := by
  decide

/-- X3. -/
theorem test_und_entry :
    next (arm 0xE7F000F0 (start 0x20000010 0x8000))
      (fun t => t.pc == 4 && cpsrIs t 0x2000009B && t.getPhys .r14Und == 0x8004) = true := by decide

/-- X4: a failed condition. -/
theorem test_und_condition_failed :
    next (arm 0x17F000F0 (start 0x40000010 0x8000)) (fun t => t.pc == 0x8004 && cpsrIs t 0x40000010) = true := by decide

/-! ## One step -/

/-- X6, X7: FIQ before IRQ, and IRQ while FIQ is masked. -/
theorem test_step_interrupts :
    next (step { user with pins := ⟨[⟨true, false, false, true, true⟩], []⟩ })
        (fun t => t.pc == 0x1C && cpsrIs t 0xD1 && t.getPhys .r14Fiq == 0x8004) = true
      ∧ next (step { start 0x50 0x8000 with pins := ⟨[⟨true, false, false, true, true⟩], []⟩ })
        (fun t => t.pc == 0x18 && cpsrIs t 0xD2 && t.getPhys .r14Irq == 0x8004) = true := by decide

/-- A placed instruction is the one the next step runs, in both states. -/
theorem test_step_runs_placed :
    next (step (State.reset.withFetchWord 32 0xE3A00003)) (fun t => t.getPhys .r0 == 3 && t.pc == 4) = true
      ∧ next (step (State.reset.withFetchWord 16 0xE7FC)) (fun t => t.pc == 0xFFFFFFFC) = true := by decide

/-- Empty memory decodes to no instruction of the spec. -/
theorem test_step_reset : refused (step State.reset) .notSpecified = true := by decide

/-! ## Runs (D25) and inputs that never end (R5) -/

/-- nFIQ low for ever: taken, masked by its own entry, and the level still low (R210). -/
theorem test_step_fiq_low_for_ever :
    next (step { user with pins := Trace.always ⟨true, false, true, true, true⟩ })
      (fun t => t.pc == 0x1C && cpsrIs t 0xD1 && t.levels == ⟨true, false, true, true, true⟩) = true := by decide

/-- The end of a run. -/
def endsAt (r : RunEnd) (pc : Word) : Bool :=
  match r with
  | .final t => t.pc == pc
  | .bound _ => false
  | .fault _ _ => false
  | .refused _ _ => false

/-- The environment with every input high and no abort. -/
def calm : Environment := { levels := fun _ => Pins.idle, abortOracle := fun _ _ _ _ => false }

/-- A branch to itself, the idiom of D25, is where a run may be said to end; any bound that reaches it will do. -/
theorem test_run_to_a_final_pc :
    endsAt (run (· == 4) 1 (State.reset.placeBytes 0 [0x03, 0x00, 0xA0, 0xE3, 0xFE, 0xFF, 0xFF, 0xEA])) 4 = true
      ∧ endsAt (runUnder calm (· == 4) 1
          (State.reset.placeBytes 0 [0x03, 0x00, 0xA0, 0xE3, 0xFE, 0xFF, 0xFF, 0xEA])) 4 = true := by decide

/-- An oracle that aborts every read: the load at 0 ends in the Data abort handler (R215). -/
theorem test_run_under_an_oracle :
    endsAt (runUnder { calm with abortOracle := fun _ _ k _ => k == .read } (· == 0x10) 1
      (State.reset.placeBytes 0 [0x00, 0x00, 0x91, 0xE5])) 0x10 = true := by decide

/-! ## Witnesses: for each obligation with hypotheses, a state and operands that meet them, one for each clause, at a
boundary of its range -/

/-- The highest ARM pc that a sequential advance leaves inside the space. -/
def armTop (cpsr : Word) : State := start cpsr 0xFFFFFFF8

/-- The highest Thumb pc that a sequential advance leaves inside the space. -/
def thumbTop (cpsr : Word) : State := start cpsr 0xFFFFFFFC

/-- The last ARM instruction of the space: no sequential advance from it stays inside. -/
def armLast (cpsr : Word) : State := start cpsr 0xFFFFFFFC

theorem witness_DecodeOfEncodeIsTheInstruction :
    (Instr.bx .al .r15).wellFormed = true ∧ (Instr.tBcond .le 0xFF).wellFormed = true := by decide

theorem witness_EncodeOfDecodeIsTheWord :
    decodeArm 0xEFFFFFFF = .ok (.swi .al 0xFFFFFF) ∧ decodeThumb 0xFFFF = .ok (.tBlSuffix 0x7FF) := by decide

theorem witness_ArmRowsArePairwiseDisjoint :
    (⟨0x0F000000, 0x0F000000, .swi⟩ : Row 32 ArmForm) ∈ armTable
      ∧ (⟨0x0F000000, 0x0F000000, .swi⟩ : Row 32 ArmForm).accepts 0xEFFFFFFF = true := by decide

theorem witness_ConditionCodesTestTheFlags :
    decodeArm 0xEAFFFFFE = .ok (.b .al 0xFFFFFE) ∧ (Instr.b .al 0xFFFFFE).armCond = some .al
      ∧ (0xFFFFFFFF : Word).extractLsb' 28 4 = 0b1111#4 := by decide

theorem witness_RegisterNumbersNameTheModesBank : Mode.fiq = .fiq ∧ Mode.sys ≠ .fiq := by decide

theorem witness_WordBytesLieInTheByteOrder :
    (0xFFFFFFFC : Word).toNat % 4 = 0 ∧ (data [] true).bigend = true ∧ (data [] false).bigend = false := by decide

theorem witness_MemoryReadsBackWhatWasStored :
    Memory.wf State.reset.mem ∧ 0 ≠ (0xFFFFFFFF : Word).toNat
      ∧ (0xFFFFFFFE : Word).toNat % 2 = 0 ∧ 0xFFFFFFFD < (0xFFFFFFFE : Word).toNat
      ∧ (0 : Word).toNat + 2 ≤ 2 ∧ (0xFFFFFFFC : Word).toNat % 4 = 0 ∧ (0 : Word).toNat + 4 ≤ 4 := by decide

theorem witness_NarrowReadsOfAStoredWord :
    Memory.wf user.mem ∧ (0xFFFFFFFC : Word).toNat % 4 = 0 ∧ user.bigend = false
      ∧ Memory.wf (data [1] true).mem ∧ (data [1] true).bigend = true := by decide

theorem witness_ThumbFetchSelectsAHalfword : (thumb 0xFFFFFFFE).pc.toNat % 2 = 0 := by decide

theorem witness_CanonicalMemoryIsUnique :
    Memory.wf [(0xFFFFFFFF, 1)] ∧ ∀ a, Memory.read [(0xFFFFFFFF, 1)] a = Memory.read [(0xFFFFFFFF, 1)] a :=
  ⟨by decide, fun _ => rfl⟩

theorem witness_SubWritesItsDestination :
    SubForm (.subImm .al true .r0 .r14 0 255) .al true .r0 .r14 (armTop 0x10) 255
      ∧ SubForm (.subReg .al false .r15 .r0 .r15) .al false .r15 .r0 (armTop 0x10) 0
      ∧ condPassed .al (armTop 0x10).cpsr = true ∧ RegNum.r14 ≠ .r15 ∧ (armTop 0x10).pc.toNat + 4 < 2 ^ 32
      ∧ SubForm (.subReg .al false .r15 .r0 .r15) .al false .r15 .r0 (armLast 0x10) 4
      ∧ 2 ^ 32 ≤ (armLast 0x10).pc.toNat + 4
      ∧ condPassed .al (armLast 0x10).cpsr = true :=
  ⟨.inl ⟨0, 255, rfl, by decide⟩, .inr ⟨.r15, rfl, by decide⟩, by decide, by decide, by decide,
    .inr ⟨.r15, rfl, by decide⟩, by decide⟩

theorem witness_MovWritesItsDestination :
    MovForm (.movImm .al true .r14 1 1) .al true .r14 (armTop 0x10) 0x40000000 false
      ∧ MovForm (.movReg .al false .r0 .r15) .al false .r0 (armTop 0x20000010) 0 true
      ∧ condPassed .al (armTop 0x10).cpsr = true ∧ RegNum.r14 ≠ .r15 ∧ (armTop 0x10).pc.toNat + 4 < 2 ^ 32
      ∧ MovForm (.movReg .al false .r0 .r15) .al false .r0 (armLast 0x10) 4 false
      ∧ 2 ^ 32 ≤ (armLast 0x10).pc.toNat + 4
      ∧ condPassed .al (armLast 0x10).cpsr = true :=
  ⟨.inl ⟨1, 1, rfl, by decide, by decide⟩, .inr ⟨.r15, rfl, by decide, by decide⟩, by decide, by decide, by decide,
    .inr ⟨.r15, rfl, by decide, by decide⟩, by decide⟩

theorem witness_PcResultWithoutSIsABranch :
    ToPcForm (.movReg .al false .r15 .r0) .al false (user.setPhys .r0 0xFFFFFFFC) 0xFFFFFFFC
      ∧ (0xFFFFFFFC : Word).toNat % 4 = 0
      ∧ ToPcForm (.subImm .al false .r1 .r15 0 1) .al false user 0xFFFFFFFF ∧ (0xFFFFFFFF : Word).toNat % 4 ≠ 0
      ∧ condPassed .al user.cpsr = true ∧ user.cpsr.t = false :=
  ⟨.inr ⟨false, .inr ⟨.r0, rfl, by decide, by decide⟩⟩, by decide,
    .inl ⟨.r1, 1, .inl ⟨0, 1, rfl, by decide⟩, by decide⟩, by decide, by decide, by decide⟩

/-- One state per clause: no SPSR, an SPSR without a mode number, and aligned and misaligned targets for both states. -/
theorem witness_PcResultWithSIsTheExceptionReturn :
    ToPcForm (.movReg .al true .r15 .r14) .al true user 0 ∧ condPassed .al user.cpsr = true
      ∧ user.spsr.get user.mode = none
      ∧ (start 0x93 0).spsr.get (start 0x93 0).mode = some (Psr.ofWord 0) ∧ (Psr.ofWord 0).validMode = false
      ∧ (saved (start 0x93 0) .svc 0x10).spsr.get .svc = some (Psr.ofWord 0x10) ∧ (Psr.ofWord 0x10).validMode = true
      ∧ (Psr.ofWord 0x10).t = false ∧ (0xFFFFFFFE : Word).toNat % 4 ≠ 0 ∧ (0xFFFFFFFC : Word).toNat % 4 = 0
      ∧ (saved (start 0x93 0) .svc 0x30).spsr.get .svc = some (Psr.ofWord 0x30) ∧ (Psr.ofWord 0x30).validMode = true
      ∧ (Psr.ofWord 0x30).t = true ∧ (0xFFFFFFFF : Word).toNat % 2 ≠ 0 ∧ (0xFFFFFFFE : Word).toNat % 2 = 0
      ∧ ToPcForm (.movReg .al true .r15 .r14) .al true ((start 0x93 0).setPhys .r14Svc 0xFFFFFFFE) 0xFFFFFFFE :=
  ⟨.inr ⟨false, .inr ⟨.r14, rfl, by decide, by decide⟩⟩, by decide, by decide, by decide, by decide, by decide,
    by decide, by decide, by decide, by decide, by decide, by decide, by decide, by decide, by decide,
    .inr ⟨false, .inr ⟨.r14, rfl, by decide, by decide⟩⟩⟩

theorem witness_ComparesWriteOnlyTheFlags :
    condPassed .al (armTop 0x10).cpsr = true ∧ (armTop 0x10).pc.toNat + 4 < 2 ^ 32
      ∧ CmpForm (.cmpImm .al .r15 0 255) .al .r15 (armTop 0x10) 255
      ∧ CmpForm (.cmpReg .al .r0 .r15) .al .r0 (armTop 0x10) 0
      ∧ CmnForm (.cmnImm .al .r0 15 255) .al .r0 (armTop 0x10) 0x3FC
      ∧ CmnForm (.cmnReg .al .r0 .r15) .al .r0 (armTop 0x10) 0
      ∧ CmpForm (.cmpImm .al .r15 0 255) .al .r15 (armLast 0x10) 255 ∧ 2 ^ 32 ≤ (armLast 0x10).pc.toNat + 4
      ∧ condPassed .al (armLast 0x10).cpsr = true :=
  ⟨by decide, by decide, .inl ⟨0, 255, rfl, by decide⟩, .inr ⟨.r15, rfl, by decide⟩, .inl ⟨15, 255, rfl, by decide⟩,
    .inr ⟨.r15, rfl, by decide⟩, .inl ⟨0, 255, rfl, by decide⟩, by decide⟩

theorem witness_FailedConditionOnlyAdvances :
    (Instr.swi .eq 0).armCond = some .eq ∧ condPassed .eq (armTop 0x10).cpsr = false
      ∧ (armTop 0x10).pc.toNat + 4 < 2 ^ 32
      ∧ condPassed .eq (start 0x10 0xFFFFFFFC).cpsr = false ∧ 2 ^ 32 ≤ (start 0x10 0xFFFFFFFC).pc.toNat + 4 := by decide

theorem witness_BxInArmStateSetsThumbAndPc :
    condPassed .al user.cpsr = true ∧ RegNum.r14 ≠ .r15
      ∧ ((user.setPhys .r14 0xFFFFFFFE).readReg .r14).toNat % 4 = 2
      ∧ ((user.setPhys .r14 0xFFFFFFFF).readReg .r14).toNat % 4 ≠ 2 := by decide

theorem witness_BxInThumbStateSetsThumbAndPc :
    (thumb 0xFFFFFFFE).cpsr.t = true ∧ ((thumb 0xFFFFFFFE).readReg .r15).toNat % 4 = 2
      ∧ (thumb 0xFFFFFFFC).cpsr.t = true ∧ ((thumb 0xFFFFFFFC).readReg .r15).toNat % 4 ≠ 2 := by decide

theorem witness_ArmBranchAddsItsOffset :
    condPassed .al (start 0x10 0xFFFFFFFC).cpsr = true ∧ (start 0x10 0xFFFFFFFC).cpsr.t = false
      ∧ (start 0x10 0xFFFFFFFC).pc.toNat % 4 = 0 := by decide

theorem witness_ArmBranchWithLinkWritesR14 :
    condPassed .ne (start 0x10 0xFFFFFFFC).cpsr = true ∧ (start 0x10 0xFFFFFFFC).cpsr.t = false
      ∧ (start 0x10 0xFFFFFFFC).pc.toNat % 4 = 0 := by decide

theorem witness_ThumbBranchesAddTheirOffsets :
    (thumb 0xFFFFFFFE).cpsr.t = true ∧ (thumb 0xFFFFFFFE).pc.toNat % 2 = 0
      ∧ condPassed .ne (thumb 0xFFFFFFFE).cpsr = true
      ∧ condPassed .eq (thumbTop 0x30).cpsr = false ∧ (thumbTop 0x30).pc.toNat + 2 < 2 ^ 32
      ∧ condPassed .eq (thumb 0xFFFFFFFE).cpsr = false ∧ 2 ^ 32 ≤ (thumb 0xFFFFFFFE).pc.toNat + 2 := by decide

theorem witness_ThumbBlPrefixWritesR14 :
    (thumbTop 0x30).pc.toNat + 2 < 2 ^ 32 ∧ 2 ^ 32 ≤ (thumb 0xFFFFFFFE).pc.toNat + 2 := by decide

theorem witness_ThumbBlSuffixBranchesAndLinks :
    (thumb 0xFFFFFFFE).cpsr.t = true ∧ (thumb 0xFFFFFFFE).pc.toNat % 2 = 0
      ∧ (((thumb 0xFFFFFFFE).setPhys .r14 0xFFFFFFFE).readReg .r14).toNat % 2 = 0
      ∧ (((thumb 0xFFFFFFFE).setPhys .r14 0xFFFFFFFF).readReg .r14).toNat % 2 = 1 := by decide

theorem witness_ThumbBlPairCalls :
    (thumbTop 0x30).cpsr.t = true ∧ (thumbTop 0x30).pc.toNat % 2 = 0 ∧ (thumbTop 0x30).pc.toNat + 2 < 2 ^ 32 := by decide

theorem witness_SubroutineReturnsToTheLink :
    (user.cpsr.t = false ∧ user.pc.toNat % 4 = 0 ∧ ∃ t, exec (.bl .al 0x7FFFFF) user = .next t)
      ∧ (thumb 0xFFFFFFFE).cpsr.t = true ∧ (thumb 0xFFFFFFFE).pc.toNat % 2 = 0
      ∧ ∃ t, exec (.tBlSuffix 0x7FF) (thumb 0xFFFFFFFE) = .next t :=
  ⟨⟨by decide, by decide, _, rfl⟩, by decide, by decide, _, rfl⟩

theorem witness_MrsReadsTheDefinedBits :
    condPassed .al (armTop 0x10).cpsr = true ∧ RegNum.r14 ≠ .r15 ∧ (armTop 0x10).spsr.get (armTop 0x10).mode = none
      ∧ (armTop 0x10).pc.toNat + 4 < 2 ^ 32
      ∧ condPassed .al (armTop 0x92).cpsr = true ∧ (armTop 0x92).pc.toNat + 4 < 2 ^ 32
      ∧ (armTop 0x92).spsr.get (armTop 0x92).mode = some Psr.zero
      ∧ (armLast 0x92).spsr.get (armLast 0x92).mode = some Psr.zero ∧ 2 ^ 32 ≤ (armLast 0x92).pc.toNat + 4
      ∧ condPassed .al (armLast 0x92).cpsr = true := by decide

/-- One state per clause: no control write (User mode; no mask bit 0), a change of T, a mode number, none; and the last
instruction of the space, without and with a control write. -/
theorem witness_MsrWritesTheCpsr :
    MsrForm (.msrImm .al .cpsr 0b1001 0 0xD3) .al .cpsr 0b1001 (armTop 0x10) 0xD3
      ∧ condPassed .al (armTop 0x10).cpsr = true ∧ (armTop 0x10).mode = .usr ∧ (armTop 0x10).pc.toNat + 4 < 2 ^ 32
      ∧ MsrForm (.msrImm .al .cpsr 0b0001 0 0xF3) .al .cpsr 0b0001 (armTop 0xD3) 0xF3
      ∧ (0b0001#4).getLsbD 0 = true ∧ (armTop 0xD3).mode ≠ .usr ∧ (0xF3 : Word).getLsbD 5 ≠ (armTop 0xD3).cpsr.t
      ∧ MsrForm (.msrReg .al .cpsr 0b1111 .r0) .al .cpsr 0b1111 ((armTop 0xD3).setPhys .r0 0xF00000DF) 0xF00000DF
      ∧ (0xF00000DF : Word).getLsbD 5 = (armTop 0xD3).cpsr.t
      ∧ (Mode.ofBits ((0xF00000DF : Word).extractLsb' 0 5)).isSome = true ∧ (armTop 0xD3).pc.toNat + 4 < 2 ^ 32
      ∧ MsrForm (.msrImm .al .cpsr 0b0001 0 0xDE) .al .cpsr 0b0001 (armTop 0xD3) 0xDE
      ∧ (0xDE : Word).getLsbD 5 = (armTop 0xD3).cpsr.t ∧ Mode.ofBits ((0xDE : Word).extractLsb' 0 5) = none
      ∧ MsrForm (.msrImm .al .cpsr 0b1001 0 0xD3) .al .cpsr 0b1001 (armLast 0x10) 0xD3 ∧ (armLast 0x10).mode = .usr
      ∧ 2 ^ 32 ≤ (armLast 0x10).pc.toNat + 4
      ∧ MsrForm (.msrImm .al .cpsr 0b0001 0 0xDF) .al .cpsr 0b0001 (armLast 0xD3) 0xDF ∧ (armLast 0xD3).mode ≠ .usr
      ∧ (0xDF : Word).getLsbD 5 = (armLast 0xD3).cpsr.t ∧ (Mode.ofBits ((0xDF : Word).extractLsb' 0 5)).isSome = true
      ∧ 2 ^ 32 ≤ (armLast 0xD3).pc.toNat + 4
      ∧ condPassed .al (armLast 0xD3).cpsr = true ∧ condPassed .al (armLast 0x10).cpsr = true :=
  ⟨.inl ⟨0, 0xD3, rfl, by decide⟩, by decide, by decide, by decide, .inl ⟨0, 0xF3, rfl, by decide⟩, by decide,
    by decide, by decide, .inr ⟨.r0, by decide, rfl, by decide⟩, by decide, by decide, by decide,
    .inl ⟨0, 0xDE, rfl, by decide⟩, by decide, by decide, .inl ⟨0, 0xD3, rfl, by decide⟩, by decide, by decide,
    .inl ⟨0, 0xDF, rfl, by decide⟩, by decide, by decide, by decide, by decide⟩

theorem witness_MsrWritesTheSpsr :
    MsrForm (.msrImm .al .spsr 0b1001 0 0xFF) .al .spsr 0b1001 user 0xFF ∧ condPassed .al user.cpsr = true
      ∧ user.mode = .usr ∧ (start 0x1F 0).mode = .sys
      ∧ MsrForm (.msrReg .al .spsr 0b0001 .r14) .al .spsr 0b0001 (armTop 0xD1) 0
      ∧ (armTop 0xD1).spsr.get (armTop 0xD1).mode = some Psr.zero ∧ (armTop 0xD1).pc.toNat + 4 < 2 ^ 32
      ∧ MsrForm (.msrReg .al .spsr 0b0001 .r14) .al .spsr 0b0001 (armLast 0xD1) 0
      ∧ (armLast 0xD1).spsr.get (armLast 0xD1).mode = some Psr.zero ∧ 2 ^ 32 ≤ (armLast 0xD1).pc.toNat + 4
      ∧ condPassed .al (armLast 0xD1).cpsr = true :=
  ⟨.inl ⟨0, 0xFF, rfl, by decide⟩, by decide, by decide, by decide, .inr ⟨.r14, by decide, rfl, by decide⟩, by decide,
    by decide, .inr ⟨.r14, by decide, rfl, by decide⟩, by decide, by decide⟩

theorem witness_LoadsReadMemoryIntoRd :
    LoadForm (.ldr .al .down .r0 .r14 4) .al .word .r14 (armTop 0x10) 0xFFFFFFFC
      ∧ LoadForm (.ldrb .al .down .r0 .r0 1) .al .byte .r0 (armTop 0x10) 0xFFFFFFFF
      ∧ LoadForm (.ldrh .al .down .r0 .r0 0 2) .al .half .r0 (armTop 0x10) 0xFFFFFFFE
      ∧ condPassed .al (armTop 0x10).cpsr = true ∧ RegNum.r14 ≠ .r15 ∧ (0xFFFFFFFC : Word).toNat % Size.word.bytes = 0
      ∧ (0xFFFFFFFF : Word).toNat % Size.byte.bytes = 0 ∧ (0xFFFFFFFE : Word).toNat % Size.half.bytes = 0
      ∧ (armTop 0x10).abortAnswer = false ∧ (armTop 0x10).admits 0xFFFFFFFC .word .read = true
      ∧ (armTop 0x10).admits 0xFFFFFFFF .byte .read = true ∧ (armTop 0x10).admits 0xFFFFFFFE .half .read = true
      ∧ (armTop 0x10).pc.toNat + 4 < 2 ^ 32
      ∧ LoadForm (.ldr .al .down .r0 .r14 4) .al .word .r14 (armLast 0x10) 0xFFFFFFFC
      ∧ (armLast 0x10).abortAnswer = false ∧ (armLast 0x10).admits 0xFFFFFFFC .word .read = true
      ∧ 2 ^ 32 ≤ (armLast 0x10).pc.toNat + 4
      ∧ condPassed .al (armLast 0x10).cpsr = true :=
  ⟨.inl ⟨.down, .r0, 4, rfl, rfl, by decide⟩, .inr (.inl ⟨.down, .r0, 1, rfl, rfl, by decide⟩),
    .inr (.inr ⟨.down, .r0, 0, 2, rfl, rfl, by decide⟩), by decide, by decide, by decide, by decide, by decide,
    by decide, by decide, by decide, by decide, by decide, .inl ⟨.down, .r0, 4, rfl, rfl, by decide⟩, by decide,
    by decide, by decide⟩

theorem witness_StoresWriteRdToMemory :
    StoreForm (.str .al .down .r0 .r14 4) .al .word .r14 (armTop 0x10) 0xFFFFFFFC
      ∧ StoreForm (.strb .al .down .r0 .r0 1) .al .byte .r0 (armTop 0x10) 0xFFFFFFFF
      ∧ StoreForm (.strh .al .down .r0 .r0 0 2) .al .half .r0 (armTop 0x10) 0xFFFFFFFE
      ∧ Memory.wf (armTop 0x10).mem ∧ condPassed .al (armTop 0x10).cpsr = true ∧ RegNum.r14 ≠ .r15
      ∧ (0xFFFFFFFC : Word).toNat % Size.word.bytes = 0 ∧ (0xFFFFFFFF : Word).toNat % Size.byte.bytes = 0
      ∧ (0xFFFFFFFE : Word).toNat % Size.half.bytes = 0 ∧ (armTop 0x10).abortAnswer = false
      ∧ (armTop 0x10).admits 0xFFFFFFFC .word .write = true ∧ (armTop 0x10).admits 0xFFFFFFFF .byte .write = true
      ∧ (armTop 0x10).admits 0xFFFFFFFE .half .write = true ∧ (armTop 0x10).isText 0xFFFFFFFC .word = false
      ∧ (armTop 0x10).isText 0xFFFFFFFF .byte = false ∧ (armTop 0x10).isText 0xFFFFFFFE .half = false
      ∧ (armTop 0x10).pc.toNat + 4 < 2 ^ 32
      ∧ StoreForm (.str .al .down .r0 .r14 4) .al .word .r14 (armLast 0x10) 0xFFFFFFFC ∧ Memory.wf (armLast 0x10).mem
      ∧ (armLast 0x10).abortAnswer = false ∧ (armLast 0x10).admits 0xFFFFFFFC .word .write = true
      ∧ (armLast 0x10).isText 0xFFFFFFFC .word = false ∧ 2 ^ 32 ≤ (armLast 0x10).pc.toNat + 4
      ∧ condPassed .al (armLast 0x10).cpsr = true :=
  ⟨.inl ⟨.down, .r0, 4, rfl, rfl, by decide⟩, .inr (.inl ⟨.down, .r0, 1, rfl, rfl, by decide⟩),
    .inr (.inr ⟨.down, .r0, 0, 2, rfl, rfl, by decide⟩), by decide, by decide, by decide, by decide, by decide,
    by decide, by decide, by decide, by decide, by decide, by decide, by decide, by decide, by decide,
    .inl ⟨.down, .r0, 4, rfl, rfl, by decide⟩, by decide, by decide, by decide, by decide, by decide⟩

/-- A state in which the next access is aborted and an FIQ is requested at the next boundary. -/
def faulting : State := { user with aborts := ⟨[true], []⟩, pins := ⟨[⟨true, false, true, true, true⟩], []⟩ }

theorem witness_AbortedAccessTakesTheDataAbort :
    LoadForm (.ldr .al .up .r0 .r0 0xFFC) .al .word .r0 faulting 0xFFC
      ∧ StoreForm (.strh .al .up .r0 .r0 15 14) .al .half .r0 faulting 0xFE ∧ condPassed .al faulting.cpsr = true
      ∧ RegNum.r0 ≠ .r15 ∧ (0xFFC : Word).toNat % Size.word.bytes = 0 ∧ (0xFE : Word).toNat % Size.half.bytes = 0
      ∧ faulting.abortAnswer = true :=
  ⟨.inl ⟨.up, .r0, 0xFFC, rfl, rfl, by decide⟩, .inr (.inr ⟨.up, .r0, 15, 14, rfl, rfl, by decide⟩), by decide,
    by decide, by decide, by decide, by decide⟩

theorem witness_FiqInterruptsTheDataAbortHandler :
    LoadForm (.ldr .al .up .r0 .r0 0xFFC) .al .word .r0 faulting 0xFFC ∧ condPassed .al faulting.cpsr = true
      ∧ RegNum.r0 ≠ .r15 ∧ (0xFFC : Word).toNat % Size.word.bytes = 0 ∧ faulting.abortAnswer = true
      ∧ faulting.cpsr.f = false ∧ faulting.levels.nReset = true ∧ faulting.levels.nFiq = false :=
  ⟨.inl ⟨.up, .r0, 0xFFC, rfl, rfl, by decide⟩, by decide, by decide, by decide, by decide, by decide, by decide,
    by decide⟩

/-- One state or operand per clause. -/
theorem witness_AccessesAreRefusedInOrder :
    LoadForm (.ldr .al .up .r0 .r15 0) .al .word .r15 user 0 ∧ StoreForm (.str .al .up .r0 .r15 0) .al .word .r15 user 0
      ∧ condPassed .al user.cpsr = true ∧ RegNum.r0 ≠ .r15
      ∧ LoadForm (.ldrh .al .down .r0 .r0 0 1) .al .half .r0 user 0xFFFFFFFF
      ∧ (0xFFFFFFFF : Word).toNat % Size.half.bytes ≠ 0
      ∧ StoreForm (.str .al .up .r0 .r0 0) .al .word .r0 { user with windows := [] } 0
      ∧ (0 : Word).toNat % Size.word.bytes = 0 ∧ State.abortAnswer { user with windows := [] } = false
      ∧ State.admits { user with windows := [] } 0 .word .write = false
      ∧ StoreForm (.str .al .up .r0 .r0 0) .al .word .r0 { user with text := [⟨3, 3⟩] } 0
      ∧ State.abortAnswer { user with text := [⟨3, 3⟩] } = false
      ∧ State.admits { user with text := [⟨3, 3⟩] } 0 .word .write = true
      ∧ State.isText { user with text := [⟨3, 3⟩] } 0 .word = true :=
  ⟨.inl ⟨.up, .r0, 0, rfl, rfl, by decide⟩, .inl ⟨.up, .r0, 0, rfl, rfl, by decide⟩, by decide, by decide,
    .inr (.inr ⟨.down, .r0, 0, 1, rfl, rfl, by decide⟩), by decide, .inl ⟨.up, .r0, 0, rfl, rfl, by decide⟩, by decide,
    by decide, by decide, .inl ⟨.up, .r0, 0, rfl, rfl, by decide⟩, by decide, by decide, by decide⟩

theorem witness_SwiEntersSupervisorMode : condPassed .al (start 0x10 0xFFFFFFFC).cpsr = true := by decide

theorem witness_UndefinedSpaceEntersUndefinedMode : condPassed .al (start 0x10 0xFFFFFFFC).cpsr = true := by decide

theorem witness_ExceptionEntryWritesWhatItSaves : Exc.fiq ≠ .reset ∧ Mode.irq ≠ Exc.fiq.mode := by decide

theorem witness_HandlersStartInArmState :
    Exc.irq ≠ .reset
      ∧ ToPcForm (.subImm .al true .r14 .r15 0 4) .al true (takeException .irq 2 (thumb 0xFFFFFFFE)) 0xFFFFFFFE
      ∧ condPassed .al (takeException .irq 2 (thumb 0xFFFFFFFE)).cpsr = true
      ∧ (thumb 0xFFFFFFFE).cpsr.validMode = true ∧ pcAligned (thumb 0xFFFFFFFE).cpsr.t 0xFFFFFFFE = true :=
  ⟨by decide, .inl ⟨.r14, 4, .inl ⟨0, 4, rfl, by decide⟩, by decide⟩, by decide, by decide, by decide⟩

/-- A stuck state with nRESET low: the reset step is the one step it takes. -/
theorem witness_ResetStepForcesSupervisorAtZero :
    State.levels { start 0 0x8000 with pins := ⟨[⟨false, true, true, true, true⟩], []⟩ } = ⟨false, true, true, true, true⟩
      ∧ State.stuck { start 0 0x8000 with pins := ⟨[⟨false, true, true, true, true⟩], []⟩ } = true := by decide

theorem witness_StuckStateTakesNoStepButReset :
    (start 0x1E 0x8000).cpsr.validMode = false ∧ (start 0x1E 0x8000).levels.nReset = true := by decide

/-- Both inputs low: an FIQ unmasked, then masked. -/
theorem witness_InterruptsAreTakenByPriority :
    user.cpsr.validMode = true ∧ faulting.levels.nReset = true ∧ faulting.levels.nFiq = false ∧ faulting.cpsr.f = false
      ∧ (start 0x50 0).cpsr.validMode = true ∧ (start 0x50 0).cpsr.f = true ∧ (start 0x50 0).cpsr.i = false
      ∧ State.levels { start 0x50 0 with pins := ⟨[⟨true, false, false, true, true⟩], []⟩ }
          = ⟨true, false, false, true, true⟩ := by decide

/-- Masks set; both clear with an input low; both inputs low and masked; a step that changes a mask. -/
theorem witness_InterruptMasksDisableTheInputs :
    (start 0xD3 0).cpsr.i = true ∧ (start 0xD3 0).cpsr.f = true
      ∧ user.cpsr.validMode = true ∧ faulting.levels.nReset = true ∧ faulting.levels.nFiq = false ∧ faulting.cpsr.f = false
      ∧ State.levels { user with pins := ⟨[⟨true, true, false, true, true⟩], []⟩ } = ⟨true, true, false, true, true⟩
      ∧ user.cpsr.i = false
      ∧ State.levels { start 0xD3 0 with pins := ⟨[⟨true, false, false, true, true⟩], []⟩ }
          = ⟨true, false, false, true, true⟩
      ∧ (start 0xD3 0).cpsr.validMode = true
      ∧ ∃ t, step { user with pins := ⟨[⟨true, true, false, true, true⟩], []⟩ } = .next t ∧ t.cpsr.i ≠ user.cpsr.i :=
  ⟨by decide, by decide, by decide, by decide, by decide, by decide, by decide, by decide, by decide, by decide, _, rfl,
    by decide⟩

/-- Quiet although both inputs are low: both are masked. -/
theorem witness_AbortedFetchTakesThePrefetchAbort :
    (start 0xD3 0).cpsr.validMode = true
      ∧ State.quiet { start 0xD3 0 with pins := ⟨[⟨true, false, false, true, true⟩], []⟩, aborts := ⟨[true], []⟩ }
      ∧ State.abortAnswer { start 0xD3 0 with pins := ⟨[⟨true, false, false, true, true⟩], []⟩, aborts := ⟨[true], []⟩ } = true :=
  ⟨by decide, ⟨by decide, by decide, by decide⟩, by decide⟩

theorem witness_FetchesAreRefused :
    user.cpsr.validMode = true ∧ user.quiet ∧ user.abortAnswer = false
      ∧ State.admits { user with windows := [⟨0x8000, 0x8002, true, true, true, true, true, true⟩] } 0x8000 .word .fetch
          = false
      ∧ user.admits user.pc user.fetchSize .fetch = true
      ∧ ∃ x ∈ ({ user with stored := [0x8003] } : State).stored, user.pc.toNat ≤ x
          ∧ x < user.pc.toNat + (if user.cpsr.t then 2 else 4) :=
  ⟨by decide, ⟨by decide, by decide, by decide⟩, by decide, by decide, by decide, 0x8003, by decide, by decide,
    by decide⟩

theorem witness_StepRunsTheDecodedInstruction :
    (thumb 0xFFFFFFFE).cpsr.validMode = true ∧ (thumb 0xFFFFFFFE).quiet ∧ (thumb 0xFFFFFFFE).fetches
      ∧ pcAligned true 0xFFFFFFFE = true ∧ decodeBytes false true [0xFE, 0xE7, 0, 0] = .ok (.tB 0x7FE)
      ∧ decodeBytes false true [0, 0, 0, 0] = .reject .notSpecified :=
  ⟨by decide, ⟨by decide, by decide, by decide⟩, ⟨by decide, by decide, by decide⟩, by decide, by decide, by decide⟩

theorem witness_ReturnInstructionsUndoTheEntry :
    (thumb 0xFFFFFFFE).cpsr.validMode = true ∧ pcAligned (thumb 0xFFFFFFFE).cpsr.t (thumb 0xFFFFFFFE).pc = true
      ∧ user.cpsr.validMode = true ∧ pcAligned user.cpsr.t user.pc = true ∧ user.cpsr.t = false
      ∧ Mode.irq ≠ Exc.fiq.mode := by decide

/-- Reset with a MOV placed at 0: what the statements about a step start from. -/
def ready : State := State.reset.withFetchWord 32 0xE3A00003

theorem witness_EveryStepKeepsTheInvariant : ready.Inv ∧ ∃ t, step ready = .next t :=
  ⟨⟨by decide, by decide, by decide⟩, _, rfl⟩

theorem witness_StepsKeepThePlatform :
    ∃ t, step (State.withFetchWord (user.setPhys .r0 0x9000) 32 0xE5800000) = .next t ∧ 0x9003 ∈ t.stored :=
  ⟨_, rfl, by decide⟩

theorem witness_ControlBitsChangeOnlyTheseWays : ∃ t, step ready = .next t :=
  ⟨_, rfl⟩

theorem witness_UserModeCannotWriteTheControlBits :
    user.mode = .usr ∧ ∃ t, exec (.msrImm .al .cpsr 1 0 0xD3) user = .next t :=
  ⟨by decide, _, rfl⟩

theorem witness_UnnamedRegistersKeepTheirValue :
    (∃ t, exec (.swi .al 0) user = .next t) ∧ ∀ n, physReg user.mode n ≠ some .r14Svc :=
  ⟨⟨_, rfl⟩, fun n => by cases n <;> decide⟩

theorem witness_UnnamedRegistersCannotBeRead : ∀ n, physReg (start 0xD1 0).mode n ≠ some .r8 :=
  fun n => by cases n <;> decide

theorem witness_OnlyStoresWriteMemoryAndOnlyMsrSpsrs :
    (∃ t, exec (.msrReg .al .spsr 9 .r0) (start 0x92 0) = .next t) ∧ (Instr.msrReg .al .spsr 9 .r0).isStore = false :=
  ⟨⟨_, rfl⟩, rfl⟩

end Sys2Proof.Tests
end

section
/-! The stuck state at a boundary (R209 step 0): reset is tested before it, everything else after it. -/

namespace Sys2Proof.Machine

/-- The boundary of a stuck state stops the machine while nRESET is high (R46, R209 step 0). -/
theorem boundary_of_stuck {s : State} (hs : s.stuck = true) (hr : s.levels.nReset = true) : boundary s = .stuck := by
  simp [boundary, hr, hs]

/-- A boundary that finds the state stuck ends the step with the fault of R11. -/
theorem step_of_boundary_stuck {s : State} (h : boundary s = .stuck) : step s = .fault .unrecoverable := by
  simp [step, h]

/-- Settles O44: such a state is stuck, its boundary is the stuck one, and no fetch follows. -/
theorem stuckStateTakesNoStepButReset : Obligations.StuckStateTakesNoStepButReset := by
  unfold Obligations.StuckStateTakesNoStepButReset
  intro s hv hr
  have hs : s.stuck = true := by simp [State.stuck, hv]
  exact step_of_boundary_stuck (boundary_of_stuck hs hr)

end Sys2Proof.Machine
end

section
/-! What an instruction can answer, said once for all of them: the entry of an exception, or one write to the state
followed by a new pc. The statements about every instruction are read off this list. -/

namespace Sys2Proof

/-- The bytes an instruction advances by: the width of its own encoding (R10, R90). -/
def Instr.bytes (i : Instr) : Nat :=
  if i.armCond.isSome then 4 else 2

/-- MSR naming the SPSR (R158). -/
def Instr.WritesSpsr (i : Instr) : Prop :=
  (∃ c fmask rm, i = .msrReg c .spsr fmask rm) ∨ ∃ c fmask rot imm8, i = .msrImm c .spsr fmask rot imm8

namespace Machine

/-! ### The list -/

/-- What instruction `i` may make of the CPSR of `s` (the table of R227, exception entry apart). -/
inductive CpsrWrite (i : Instr) (s : State) : Psr → Prop
  | flags (q : Psr) : CpsrWrite i s (s.cpsr.withFlagsOf q)
  | exchange (b : Bool) : i.isExchange = true → CpsrWrite i s { s.cpsr with t := b }
  | control (q : Psr) : i.writesControl = true → s.mode ≠ .usr → q.t = s.cpsr.t → CpsrWrite i s q
  | saved (q : Psr) : i.isExceptionReturn = true → s.spsr.get s.mode = some q → CpsrWrite i s q

/-- `u` is `s` but for the model's own bookkeeping: a free value or an ABORT answer has been used up. -/
inductive UsedUp (s : State) : State → Prop
  | nothing : UsedUp s s
  | draw : UsedUp s s.countDraw
  | answer : UsedUp s s.nextAnswer

/-- What instruction `i` may write before the pc is written. -/
inductive Effect (i : Instr) (s : State) : State → Prop
  | register (u : State) (rd : RegNum) (w : Word) : UsedUp s u → rd ≠ .r15 → Effect i s (u.writeReg rd w)
  | registerAndFlags (rd : RegNum) (w : Word) (q : Psr) : rd ≠ .r15 →
      Effect i s ((s.writeReg rd w).setCpsr (s.cpsr.withFlagsOf q))
  | cpsr (q : Psr) : CpsrWrite i s q → Effect i s (s.setCpsr q)
  | spsr (q : Psr) : i.WritesSpsr → Effect i s (s.setSpsr s.mode q)
  | store (a : Word) (bs : List Byte) : i.isStore = true → Effect i s (s.nextAnswer.storeBytes a bs)

/-- What instruction `i` may answer: an exception entered, a branch, an advance, or the stuck state (R46; log 10). -/
inductive Ran (i : Instr) (s : State) : State → Prop
  | entered (x : Exc) (link : Word) (u : State) : x = .swi ∨ x = .undefined ∨ x = .dataAbort → UsedUp s u →
      Ran i s (takeException x link u)
  | branched (u : State) (v : Word) : Effect i s u → pcAligned u.cpsr.t v = true → Ran i s (u.setPc v)
  | advanced (u : State) : Effect i s u → u.cpsr.t = s.cpsr.t → s.pc.toNat + i.bytes < 2 ^ 32 →
      Ran i s (u.setPc (s.pc + BitVec.ofNat 32 i.bytes))
  | stuck (q : Psr) : CpsrWrite i s q → i.armCond.isSome = true → q.validMode = false → Ran i s (s.setCpsr q)

/-! ### Each shared operation answers something of the list -/

theorem Effect.nothing (i : Instr) (s : State) : Effect i s s :=
  .cpsr s.cpsr (.flags s.cpsr)

theorem ran_of_advance {i : Instr} {s u t : State} (h : advance i.bytes u = .next t) (hu : Effect i s u)
    (hpc : u.pc = s.pc) (ht : u.cpsr.t = s.cpsr.t) : Ran i s t := by
  obtain ⟨fits, rfl⟩ := advance_next h
  rw [hpc] at fits ⊢
  exact .advanced u hu ht fits

theorem ran_of_branchTo {i : Instr} {s u t : State} {v : Word} (h : branchTo v u = .next t) (hu : Effect i s u) :
    Ran i s t := by
  obtain ⟨ok, rfl⟩ := branchTo_next h
  exact .branched u v hu ok

/-- The advance of an ARM instruction. -/
theorem Ran.advancedArm {i : Instr} {s u : State} (arm : i.armCond.isSome = true) (hu : Effect i s u)
    (ht : u.cpsr.t = s.cpsr.t) (fits : s.pc.toNat + 4 < 2 ^ 32) : Ran i s (u.setPc (s.pc + 4)) := by
  have four : i.bytes = 4 := if_pos arm
  have ran := Ran.advanced u hu ht (four ▸ fits)
  rwa [four] at ran

theorem ran_of_exchangeTo {i : Instr} {s t : State} {v : Word} (h : exchangeTo v s = .next t)
    (hi : i.isExchange = true) : Ran i s t :=
  ran_of_branchTo h (.cpsr _ (.exchange _ hi))

/-- An ARM instruction whose condition fails advances; else its rule decides (R93). -/
theorem ran_of_conditional {i : Instr} {c : Cond} {s t : State} {r : Result} (h : conditional c s r = .next t)
    (hi : i.armCond = some c) (hr : r = .next t → Ran i s t) : Ran i s t := by
  have four : i.bytes = 4 := by simp [Instr.bytes, hi]
  unfold conditional at h
  split at h
  · exact hr h
  · exact ran_of_advance (four ▸ h) (.nothing i s) rfl rfl

/-- An instruction that is refused outright under `c` answers only when `c` fails. -/
theorem next_of_guard {c : Prop} [Decidable c] {why : Refusal} {r : Result} {t : State}
    (h : (if c then .refused why else r) = Host.Outcome.next t) : ¬ c ∧ r = .next t := by
  split at h
  · cases h
  · next hc => exact ⟨hc, h⟩

theorem ran_of_exceptionReturn {i : Instr} {s t : State} {v : Word} (h : exceptionReturn v s = .next t)
    (hi : i.isExceptionReturn = true) (arm : i.armCond.isSome = true) : Ran i s t := by
  obtain ⟨p, hp, ⟨bad, rfl⟩ | ⟨-, ok, rfl⟩⟩ := exceptionReturn_next h
  · exact .stuck p (.saved p hi hp) arm bad
  · exact .branched _ v (.cpsr p (.saved p hi hp)) ok

theorem ran_of_finishResult {i : Instr} {sBit : Bool} {rd : RegNum} {x : Alu} {s t : State}
    (h : finishResult sBit rd x s = .next t) (hi : i.isExceptionReturn = (sBit && rd == .r15))
    (arm : i.armCond.isSome = true) : Ran i s t := by
  obtain ⟨rfl, rfl, h⟩ | ⟨-, -, ok, rfl⟩ | ⟨hd, fits, rfl⟩ := finishResult_next h
  · exact ran_of_exceptionReturn h hi arm
  · exact .branched s _ (.nothing i s) ok
  · cases sBit
    · exact .advancedArm arm (.register s rd x.result .nothing hd) (by simp) fits
    · exact .advancedArm arm (.registerAndFlags rd x.result (s.cpsr.setNZCV x) hd) rfl fits

theorem ran_of_finishCompare {i : Instr} {x : Alu} {s t : State} (h : finishCompare x s = .next t)
    (four : i.bytes = 4) : Ran i s t :=
  ran_of_advance (four ▸ h) (.cpsr _ (.flags (s.cpsr.setNZCV x))) rfl rfl

/-- Where the mask leaves the control bits out, only flags are written (R158). -/
theorem Psr.writeFields_flagsOnly (p q : Psr) {fmask : BitVec 4} (h : fmask.getLsbD 0 = false) :
    ∃ f, p.writeFields fmask q = p.withFlagsOf f := by
  unfold Psr.writeFields
  rw [h]
  cases fmask.getLsbD 3
  · exact ⟨p, rfl⟩
  · exact ⟨q, rfl⟩

/-- In User mode a CPSR write leaves the control bits out, whatever its field mask (R158). -/
theorem State.cpsrMask_control {s : State} {fmask : BitVec 4} (h : (s.cpsrMask fmask).getLsbD 0 = true) :
    fmask.getLsbD 0 = true ∧ s.mode ≠ .usr := by
  unfold State.cpsrMask at h
  split at h
  · simp at h
  · next hm => exact ⟨h, hm⟩

theorem ran_of_writeCpsr {i : Instr} {fmask : BitVec 4} {v : Word} {s t : State} (h : writeCpsr fmask v s = .next t)
    (hi : i.writesControl = fmask.getLsbD 0) (arm : i.armCond.isSome = true) : Ran i s t := by
  obtain ⟨keepsT, answer⟩ := writeCpsr_next h
  have written : CpsrWrite i s (s.cpsr.writeFields (s.cpsrMask fmask) (Psr.ofWord v)) := by
    cases hc : (s.cpsrMask fmask).getLsbD 0
    · obtain ⟨f, hf⟩ := Psr.writeFields_flagsOnly s.cpsr (Psr.ofWord v) hc
      exact hf ▸ .flags f
    · obtain ⟨hm, priv⟩ := State.cpsrMask_control hc
      exact .control _ (hi.trans hm) priv keepsT
  obtain ⟨-, bad, rfl⟩ | ⟨-, fits, rfl⟩ := answer
  · exact .stuck _ written arm bad
  · exact .advancedArm arm (.cpsr _ written) keepsT fits

theorem ran_of_psrWrite {i : Instr} {r : PsrSel} {fmask : BitVec 4} {v : Word} {s t : State}
    (h : psrWrite r fmask v s = .next t) (hc : i.writesControl = (r == .cpsr && fmask.getLsbD 0))
    (hs : r = .spsr → i.WritesSpsr) (arm : i.armCond.isSome = true) : Ran i s t := by
  cases r with
  | cpsr => exact ran_of_writeCpsr h hc arm
  | spsr =>
    obtain ⟨p, -, fits, rfl⟩ := psrWrite_spsr_next h
    exact .advancedArm arm (.spsr _ (hs rfl)) rfl fits

/-- A load or store takes the Data abort, or goes on with its ABORT answer used up (R166). -/
theorem ran_of_access {i : Instr} {n : Size} {k : Access} {a : Word} {s t : State} {go : State → Result}
    (h : access n k a s go = .next t) (hgo : go s.nextAnswer = .next t → Ran i s t) : Ran i s t := by
  obtain ⟨-, ⟨-, rfl⟩ | ⟨-, -, -, h⟩⟩ := access_next h
  · exact .entered .dataAbort _ _ (.inr (.inr rfl)) .answer
  · exact hgo h

/-- The end of an instruction that writes a register, not number 15, and advances. -/
theorem ran_of_register {i : Instr} {s u t : State} {rd : RegNum} {w : Word}
    (h : advance i.bytes (u.writeReg rd w) = .next t) (hu : UsedUp s u) (hd : rd ≠ .r15) : Ran i s t := by
  refine ran_of_advance h (.register u rd w hu hd) ?_ ?_
  · rw [State.writeReg_pc hd]; cases hu <;> rfl
  · rw [State.writeReg_cpsr]; cases hu <;> rfl

/-- The end of a store: its bytes are written, and it advances. -/
theorem ran_of_store {i : Instr} {s t : State} {a : Word} {bs : List Byte}
    (h : advance i.bytes (s.nextAnswer.storeBytes a bs) = .next t) (hi : i.isStore = true) : Ran i s t := by
  obtain ⟨-, hpc, hcpsr, -⟩ := State.storeBytes_frame bs s.nextAnswer a
  exact ran_of_advance h (.store a bs hi) hpc (by rw [hcpsr]; rfl)

/-! ### Every instruction answers something of the list -/

theorem ran_of_exec {i : Instr} {s t : State} (h : exec i s = .next t) : Ran i s t := by
  cases i with
  | bx c rm =>
    refine ran_of_conditional h rfl fun h => ?_
    exact ran_of_exchangeTo (next_of_guard h).2 rfl
  | mrs c r rd =>
    refine ran_of_conditional h rfl fun h => ?_
    obtain ⟨hd, h⟩ := next_of_guard h
    split at h
    · cases h
    · exact ran_of_register h .draw hd
  | msrReg c r fmask rm =>
    refine ran_of_conditional h rfl fun h => ?_
    exact ran_of_psrWrite (next_of_guard h).2 rfl (fun hr => .inl ⟨c, fmask, rm, hr ▸ rfl⟩) rfl
  | msrImm c r fmask rot imm8 =>
    refine ran_of_conditional h rfl fun h => ?_
    exact ran_of_psrWrite h rfl (fun hr => .inr ⟨c, fmask, rot, imm8, hr ▸ rfl⟩) rfl
  | ldr c u rn rd imm12 | ldrb c u rn rd imm12 | ldrh c u rn rd immH immL =>
    refine ran_of_conditional h rfl fun h => ?_
    obtain ⟨hd, h⟩ := next_of_guard h
    exact ran_of_access h fun h => ran_of_register h .answer hd
  | str c u rn rd imm12 | strh c u rn rd immH immL =>
    refine ran_of_conditional h rfl fun h => ?_
    exact ran_of_access (next_of_guard h).2 fun h => ran_of_store h rfl
  | strb c u rn rd imm12 =>
    refine ran_of_conditional h rfl fun h => ?_
    exact ran_of_access (next_of_guard h).2 fun h => ran_of_store (bs := [_]) h rfl
  | subImm c sBit rn rd rot imm8 | subReg c sBit rn rd rm | movImm c sBit rd rot imm8 | movReg c sBit rd rm =>
    exact ran_of_conditional h rfl fun h => ran_of_finishResult h rfl rfl
  | cmpImm c rn rot imm8 | cmpReg c rn rm | cmnImm c rn rot imm8 | cmnReg c rn rm =>
    exact ran_of_conditional h rfl fun h => ran_of_finishCompare h rfl
  | und c high low =>
    refine ran_of_conditional h rfl fun h => ?_
    cases h
    exact .entered .undefined _ s (.inr (.inl rfl)) .nothing
  | swi c comment =>
    refine ran_of_conditional h rfl fun h => ?_
    cases h
    exact .entered .swi _ s (.inl rfl) .nothing
  | b c imm24 =>
    exact ran_of_conditional h rfl fun h => ran_of_branchTo h (.nothing _ s)
  | bl c imm24 =>
    exact ran_of_conditional h rfl fun h => ran_of_branchTo h (.register s .r14 _ .nothing (by decide))
  | tSwi value8 =>
    cases h
    exact .entered .swi _ s (.inl rfl) .nothing
  | tBcond c soff8 =>
    by_cases hc : condPassed c s.cpsr = true
    · exact ran_of_branchTo ((if_pos hc).symm.trans h) (.nothing _ s)
    · exact ran_of_advance ((if_neg hc).symm.trans h) (.nothing _ s) rfl rfl
  | tBx rm => exact ran_of_exchangeTo h rfl
  | tB off11 => exact ran_of_branchTo h (.nothing _ s)
  | tBlPrefix off11 => exact ran_of_register h .nothing (by decide)
  | tBlSuffix off11 => exact ran_of_branchTo h (.register s .r14 _ .nothing (by decide))

end Machine
end Sys2Proof
end

section
/-! Read off the list of what an instruction can answer: every step keeps the invariant, and the registers of other
banks keep their values. -/

namespace Sys2Proof.Machine

/-! ### What an effect leaves alone -/

theorem UsedUp.cpsr {s u : State} (h : UsedUp s u) : u.cpsr = s.cpsr := by cases h <;> rfl

theorem UsedUp.regs {s u : State} (h : UsedUp s u) : u.regs = s.regs := by cases h <;> rfl

theorem UsedUp.memory {s u : State} (h : UsedUp s u) : u.mem = s.mem ∧ u.stored = s.stored := by
  cases h <;> exact ⟨rfl, rfl⟩

/-- The CPSR an effect leaves is one the table of R227 allows. -/
theorem Effect.cpsrWrite {i : Instr} {s u : State} (h : Effect i s u) : CpsrWrite i s u.cpsr := by
  cases h with
  | register u rd w hu _ => rw [State.writeReg_cpsr, hu.cpsr]; exact .flags s.cpsr
  | registerAndFlags rd w q _ => exact .flags q
  | cpsr q hq => exact hq
  | spsr q _ => exact .flags s.cpsr
  | store a bs _ =>
    obtain ⟨-, -, hcpsr, -⟩ := State.storeBytes_frame bs s.nextAnswer a
    rw [hcpsr]
    exact .flags s.cpsr

/-- An effect keeps memory and the marks in canonical form. -/
theorem Effect.wf {i : Instr} {s u : State} (h : Effect i s u) (hm : Memory.wf s.mem) (hs : Marks.wf s.stored) :
    Memory.wf u.mem ∧ Marks.wf u.stored := by
  cases h with
  | register u rd w hu _ =>
    obtain ⟨mem, stored⟩ := hu.memory
    rw [State.writeReg_mem, State.writeReg_stored, mem, stored]
    exact ⟨hm, hs⟩
  | registerAndFlags rd w q _ => simpa using And.intro hm hs
  | cpsr | spsr => exact ⟨hm, hs⟩
  | store a bs _ => exact State.storeBytes_wf bs s.nextAnswer a hm hs

/-! ### The invariant (R28, R29, R60) -/

theorem pcAligned_vector (x : Exc) : pcAligned false x.vector = true := by
  cases x <;> decide

theorem State.Inv.enterException {s : State} (h : s.Inv) (x : Exc) (link : Word) (old : Psr) :
    (Machine.enterException x link old s).Inv :=
  ⟨h.mem, h.stored, pcAligned_vector x⟩

/-- Using up a level, an answer or a free value is nothing to the invariant. -/
theorem State.Inv.usedUp {s u : State} (h : s.Inv) (hu : UsedUp s u) : u.Inv := by
  cases hu <;> exact ⟨h.mem, h.stored, h.pc⟩

theorem State.Inv.nextBoundary {s : State} (h : s.Inv) : s.nextBoundary.Inv :=
  ⟨h.mem, h.stored, h.pc⟩

/-- What stands at the pc is decoded as an instruction of the operating state: ARM ones have a condition (R90). -/
theorem State.armCond_of_decodeAtPc {s : State} {i : Instr} (h : s.decodeAtPc = .ok i) :
    i.armCond.isSome = !s.cpsr.t := by
  unfold State.decodeAtPc at h
  split at h
  · next thumb => rw [decodeThumb_armCond h, thumb]; rfl
  · next arm =>
    obtain ⟨c, hc⟩ := decodeArm_armCond h
    simp [hc, arm]

/-- Advancing by the width of an instruction of the operating state keeps the pc aligned (R28). -/
theorem pcAligned_add_bytes {i : Instr} {t : Bool} {v : Word} (hi : i.armCond.isSome = !t) (h : pcAligned t v = true) :
    pcAligned t (v + BitVec.ofNat 32 i.bytes) = true := by
  cases t
  · have four : i.bytes = 4 := if_pos hi
    rw [pcAligned_arm] at h ⊢
    rw [four, BitVec.toNat_add, BitVec.toNat_ofNat]
    omega
  · have two : i.bytes = 2 := if_neg (by simp [hi])
    rw [pcAligned_thumb] at h ⊢
    rw [two, BitVec.toNat_add, BitVec.toNat_ofNat]
    omega

/-- An instruction of the operating state keeps the invariant. An unchanged pc under a new T (log 10) stays aligned,
for only an ARM instruction leaves the stuck state. -/
theorem Ran.inv {i : Instr} {s t : State} (h : Ran i s t) (hs : s.Inv) (hi : i.armCond.isSome = !s.cpsr.t) :
    t.Inv := by
  cases h with
  | entered x link u _ hu => exact (hs.usedUp hu).enterException x link u.cpsr
  | branched u v hu ok =>
    obtain ⟨mem, stored⟩ := hu.wf hs.mem hs.stored
    exact ⟨mem, stored, ok⟩
  | advanced u hu ht _ =>
    obtain ⟨mem, stored⟩ := hu.wf hs.mem hs.stored
    exact ⟨mem, stored, ht ▸ pcAligned_add_bytes hi hs.pc⟩
  | stuck q _ arm _ =>
    have inArm : s.cpsr.t = false := by simpa [arm] using hi
    exact ⟨hs.mem, hs.stored, pcAligned_of_arm q.t (inArm ▸ hs.pc)⟩

/-- Settles O54: a reset, an interrupt or an abort goes to a vector, and an instruction is one of the operating
state. -/
theorem everyStepKeepsTheInvariant : Obligations.EveryStepKeepsTheInvariant := by
  unfold Obligations.EveryStepKeepsTheInvariant
  intro s t hs h
  obtain taken | ⟨-, ⟨-, rfl⟩ | ⟨i, hi, h⟩⟩ := step_next h
  · obtain ⟨-, rfl⟩ | ⟨-, -, -, -, rfl⟩ | ⟨-, -, -, -, -, rfl⟩ := boundary_taken taken
    · exact (hs.nextBoundary.usedUp .draw).enterException _ _ _
    · exact hs.nextBoundary.enterException _ _ _
    · exact hs.nextBoundary.enterException _ _ _
  · exact (hs.nextBoundary.usedUp .answer).enterException _ _ _
  · exact (ran_of_exec h).inv (hs.nextBoundary.usedUp .answer) (State.armCond_of_decodeAtPc hi)

/-- Settles O53: memory and marks are empty, and pc 0 is aligned. -/
theorem invariantHoldsAtReset : Obligations.InvariantHoldsAtReset :=
  ⟨⟨.nil, nofun⟩, .nil, by decide⟩

/-! ### Registers of other banks (R31) -/

/-- No register number names `p` in the current mode. -/
def State.Unnamed (s : State) (p : PhysReg) : Prop :=
  ∀ n, physReg s.mode n ≠ some p

theorem State.getPhys_writeReg_of_unnamed {s : State} {p : PhysReg} (h : s.Unnamed p) (n : RegNum) (w : Word) :
    (s.writeReg n w).getPhys p = s.getPhys p := by
  unfold State.writeReg
  split
  · next q hq => exact State.getPhys_setPhys_other s q p w fun e => h n (e ▸ hq)
  · rfl

theorem State.getPhys_of_regs {s u : State} (h : u.regs = s.regs) (p : PhysReg) : u.getPhys p = s.getPhys p := by
  unfold State.getPhys
  rw [h]

theorem State.mode_of_cpsr {s u : State} (h : u.cpsr = s.cpsr) : u.mode = s.mode := by
  unfold State.mode
  rw [h]

theorem Effect.getPhys_of_unnamed {i : Instr} {s u : State} {p : PhysReg} (h : Effect i s u) (hp : s.Unnamed p) :
    u.getPhys p = s.getPhys p := by
  cases h with
  | register u rd w hu _ =>
    have hp' : u.Unnamed p := fun n => State.mode_of_cpsr hu.cpsr ▸ hp n
    rw [State.getPhys_writeReg_of_unnamed hp', State.getPhys_of_regs hu.regs]
  | registerAndFlags rd w q _ => exact State.getPhys_writeReg_of_unnamed hp rd w
  | cpsr | spsr => rfl
  | store a bs _ =>
    obtain ⟨hregs, -⟩ := State.storeBytes_frame bs s.nextAnswer a
    exact State.getPhys_of_regs hregs p

theorem entryFrom_takeException {s u : State} (hu : UsedUp s u) (x : Exc) (link : Word) :
    EntryFrom x s (takeException x link u) := by
  refine ⟨?_, rfl⟩
  rw [← hu.cpsr]
  rfl

/-- Settles O58: an effect writes the registers the mode names, and the entry of an exception its own link register. -/
theorem unnamedRegistersKeepTheirValue : Obligations.UnnamedRegistersKeepTheirValue := by
  unfold Obligations.UnnamedRegistersKeepTheirValue
  intro i s t p h hp
  cases ran_of_exec h with
  | entered x link u _ hu =>
    by_cases hx : p = linkReg x.mode
    · exact .inr ⟨x, entryFrom_takeException hu x link, hx⟩
    · refine .inl ?_
      calc (takeException x link u).getPhys p
          = u.getPhys p := State.getPhys_setPhys_other u _ p link hx
        _ = s.getPhys p := State.getPhys_of_regs hu.regs p
  | branched u v hu _ => exact .inl (hu.getPhys_of_unnamed hp)
  | advanced u hu _ _ => exact .inl (hu.getPhys_of_unnamed hp)
  | stuck q _ _ _ => exact .inl rfl

end Sys2Proof.Machine
end

section
/-! Two runs that differ in one register the current mode does not name (R31): what is read is the same in both, and
each operation that answers keeps them apart in that register at most. -/

namespace Sys2Proof.Machine

/-! ### Writing a register, and everything else, may be exchanged -/

theorem State.setPc_setPhys (s : State) (p : PhysReg) (v w : Word) :
    (s.setPhys p v).setPc w = (s.setPc w).setPhys p v := rfl

theorem State.setCpsr_setPhys (s : State) (p : PhysReg) (v : Word) (q : Psr) :
    (s.setPhys p v).setCpsr q = (s.setCpsr q).setPhys p v := rfl

theorem State.setSpsr_setPhys (s : State) (p : PhysReg) (v : Word) (m : Mode) (q : Psr) :
    (s.setPhys p v).setSpsr m q = (s.setSpsr m q).setPhys p v := rfl

theorem State.countDraw_setPhys (s : State) (p : PhysReg) (v : Word) :
    (s.setPhys p v).countDraw = s.countDraw.setPhys p v := rfl

theorem State.nextAnswer_setPhys (s : State) (p : PhysReg) (v : Word) :
    (s.setPhys p v).nextAnswer = s.nextAnswer.setPhys p v := rfl

theorem State.storeBytes_setPhys (bs : List Byte) : ∀ (s : State) (p : PhysReg) (v a : Word),
    (s.setPhys p v).storeBytes a bs = (s.storeBytes a bs).setPhys p v := by
  induction bs with
  | nil => exact fun s p v a => rfl
  | cons b rest ih => exact fun s p v a => ih (s.storeByte a b) p v (a + 1)

theorem State.readReg_setPhys_of_unnamed {s : State} {p : PhysReg} (hp : s.Unnamed p) (v : Word) (n : RegNum) :
    (s.setPhys p v).readReg n = s.readReg n := by
  unfold State.readReg
  rw [State.setPhys_mode]
  split
  · next q hq => exact State.getPhys_setPhys_other s p q v fun e => hp n (e ▸ hq)
  · rfl

theorem State.writeReg_setPhys_of_unnamed {s : State} {p : PhysReg} (hp : s.Unnamed p) (v : Word) (n : RegNum)
    (w : Word) : (s.setPhys p v).writeReg n w = (s.writeReg n w).setPhys p v := by
  unfold State.writeReg
  rw [State.setPhys_mode]
  split
  · next q hq => exact State.setPhys_comm s p q v w fun e => hp n (e ▸ hq)
  · rfl

/-! ### Each shared operation, run on both states -/

theorem blank_next_setPhys (s : State) (p : PhysReg) (v : Word) :
    blank p (.next (s.setPhys p v)) = blank p (.next s) := by
  simp [blank]

theorem blank_advance (n : Nat) (s : State) (p : PhysReg) (v : Word) :
    blank p (advance n (s.setPhys p v)) = blank p (advance n s) := by
  unfold advance
  rw [State.setPhys_pc]
  split
  · exact blank_next_setPhys (s.setPc (s.pc + BitVec.ofNat 32 n)) p v
  · rfl

theorem blank_branchTo (w : Word) (s : State) (p : PhysReg) (v : Word) :
    blank p (branchTo w (s.setPhys p v)) = blank p (branchTo w s) := by
  unfold branchTo
  rw [State.setPhys_cpsr]
  split
  · exact blank_next_setPhys (s.setPc w) p v
  · rfl

theorem blank_exchangeTo (w : Word) (s : State) (p : PhysReg) (v : Word) :
    blank p (exchangeTo w (s.setPhys p v)) = blank p (exchangeTo w s) :=
  blank_branchTo _ (s.setCpsr { s.cpsr with t := w.getLsbD 0 }) p v

/-- The entry of an exception either overwrites the register or leaves the runs apart in it. -/
theorem blank_takeException (x : Exc) (link : Word) (s : State) (p : PhysReg) (v : Word) :
    blank p (.next (takeException x link (s.setPhys p v))) = blank p (.next (takeException x link s)) := by
  have entry : ∀ u : State, takeException x link u
      = (((u.setSpsr x.mode u.cpsr).setCpsr (u.cpsr.onEntry x)).setPc x.vector).setPhys (linkReg x.mode) link :=
    fun _ => rfl
  rw [entry, entry]
  simp only [State.setPhys_cpsr, State.setSpsr_setPhys, State.setCpsr_setPhys, State.setPc_setPhys]
  by_cases hp : p = linkReg x.mode
  · rw [hp, State.setPhys_setPhys]
  · rw [State.setPhys_comm _ _ _ _ _ hp, blank_next_setPhys]

theorem blank_exceptionReturn (w : Word) (s : State) (p : PhysReg) (v : Word) :
    blank p (exceptionReturn w (s.setPhys p v)) = blank p (exceptionReturn w s) := by
  unfold exceptionReturn
  rw [State.setPhys_spsr, State.setPhys_mode]
  split
  · rfl
  · next q _ =>
    rw [State.setCpsr_setPhys]
    split
    · exact blank_next_setPhys _ p v
    · exact blank_branchTo w _ p v

theorem blank_conditional {c : Cond} {s : State} {p : PhysReg} {v : Word} {r r' : Result}
    (h : blank p r' = blank p r) : blank p (conditional c (s.setPhys p v) r') = blank p (conditional c s r) := by
  unfold conditional
  rw [State.setPhys_cpsr]
  split
  · exact h
  · exact blank_advance 4 s p v

/-- An instruction refused outright under `c` is refused in both runs. -/
theorem blank_guard {c : Prop} [Decidable c] {why : Refusal} {p : PhysReg} {r r' : Result}
    (h : blank p r' = blank p r) :
    blank p (if c then .refused why else r') = blank p (if c then .refused why else r) := by
  split
  · rfl
  · exact h

theorem blank_finishResult {s : State} {p : PhysReg} (hp : s.Unnamed p) (sBit : Bool) (rd : RegNum) (x : Alu)
    (v : Word) : blank p (finishResult sBit rd x (s.setPhys p v)) = blank p (finishResult sBit rd x s) := by
  unfold finishResult
  split
  · cases sBit
    · exact blank_branchTo _ s p v
    · exact blank_exceptionReturn _ s p v
  · rw [State.writeReg_setPhys_of_unnamed hp]
    cases sBit
    · exact blank_advance 4 (s.writeReg rd x.result) p v
    · exact blank_advance 4 ((s.writeReg rd x.result).setCpsr (s.cpsr.setNZCV x)) p v

theorem blank_finishCompare (x : Alu) (s : State) (p : PhysReg) (v : Word) :
    blank p (finishCompare x (s.setPhys p v)) = blank p (finishCompare x s) :=
  blank_advance 4 (s.setCpsr (s.cpsr.setNZCV x)) p v

theorem blank_access {n : Size} {k : Access} {a : Word} {s : State} {p : PhysReg} {v : Word} {go : State → Result}
    (h : blank p (go (s.nextAnswer.setPhys p v)) = blank p (go s.nextAnswer)) :
    blank p (access n k a (s.setPhys p v) go) = blank p (access n k a s go) := by
  unfold access
  refine blank_guard ?_
  have answer : (s.setPhys p v).abortAnswer = s.abortAnswer := rfl
  have text : (s.setPhys p v).isText a n = s.isText a n := rfl
  rw [answer, text, State.setPhys_admits, State.nextAnswer_setPhys]
  split
  · exact blank_takeException .dataAbort _ s.nextAnswer p v
  · exact blank_guard (blank_guard h)

theorem blank_writeCpsr (fmask : BitVec 4) (w : Word) (s : State) (p : PhysReg) (v : Word) :
    blank p (writeCpsr fmask w (s.setPhys p v)) = blank p (writeCpsr fmask w s) := by
  have mask : (s.setPhys p v).cpsrMask fmask = s.cpsrMask fmask := rfl
  unfold writeCpsr
  rw [mask, State.setPhys_cpsr]
  refine blank_guard ?_
  rw [State.setCpsr_setPhys]
  split
  · exact blank_next_setPhys _ p v
  · exact blank_advance 4 _ p v

theorem blank_psrWrite (r : PsrSel) (fmask : BitVec 4) (w : Word) (s : State) (p : PhysReg) (v : Word) :
    blank p (psrWrite r fmask w (s.setPhys p v)) = blank p (psrWrite r fmask w s) := by
  cases r with
  | cpsr => exact blank_writeCpsr fmask w s p v
  | spsr =>
    unfold psrWrite
    simp only [State.setPhys_spsr, State.setPhys_mode, State.setSpsr_setPhys]
    split
    · rfl
    · exact blank_advance 4 _ p v

/-- The end of an instruction that writes a numbered register and advances. -/
theorem blank_advance_writeReg {s : State} {p : PhysReg} (hp : s.Unnamed p) (n : Nat) (rd : RegNum) (w v : Word) :
    blank p (advance n ((s.setPhys p v).writeReg rd w)) = blank p (advance n (s.writeReg rd w)) := by
  rw [State.writeReg_setPhys_of_unnamed hp]
  exact blank_advance n _ p v

theorem blank_advance_storeBytes (s : State) (p : PhysReg) (n : Nat) (a v : Word) (bs : List Byte) :
    blank p (advance n ((s.setPhys p v).storeBytes a bs)) = blank p (advance n (s.storeBytes a bs)) := by
  rw [State.storeBytes_setPhys]
  exact blank_advance n _ p v

theorem offsetAddress_setPhys {s : State} {p : PhysReg} (hp : s.Unnamed p) (v : Word) (u : Dir) (rn : RegNum)
    (o : Word) : offsetAddress (s.setPhys p v) u rn o = offsetAddress s u rn o := by
  unfold offsetAddress
  rw [State.readReg_setPhys_of_unnamed hp]

/-! ### Every instruction, run on both states -/

/-- Settles O59: every operand is read alike in both runs, and the operation on it keeps them alike. -/
theorem unnamedRegistersCannotBeRead : Obligations.UnnamedRegistersCannotBeRead := by
  unfold Obligations.UnnamedRegistersCannotBeRead
  intro i s p v hp
  have read := State.readReg_setPhys_of_unnamed hp v
  have addr := offsetAddress_setPhys hp v
  cases i with
  | bx c rm =>
    simp only [exec, execBx, read]
    exact blank_conditional (blank_guard (blank_exchangeTo _ s p v))
  | mrs c r rd =>
    have selected : (s.setPhys p v).selectedPsr r = s.selectedPsr r := by cases r <;> rfl
    simp only [exec, execMrs, selected]
    refine blank_conditional (blank_guard ?_)
    split
    · rfl
    · exact blank_advance_writeReg (s := s.countDraw) hp 4 rd _ v
  | msrReg c r fmask rm =>
    simp only [exec, execMsrReg, read]
    exact blank_conditional (blank_guard (blank_psrWrite r fmask _ s p v))
  | msrImm c r fmask rot imm8 => exact blank_conditional (blank_psrWrite r fmask _ s p v)
  | ldr c u rn rd imm12 | ldrb c u rn rd imm12 | ldrh c u rn rd immH immL =>
    simp only [exec, execLdr, execLdrb, execLdrh, wordFormAddress, halfFormAddress, addr]
    exact blank_conditional (blank_guard (blank_access (blank_advance_writeReg (s := s.nextAnswer) hp 4 rd _ v)))
  | str c u rn rd imm12 | strh c u rn rd immH immL =>
    simp only [exec, execStr, execStrh, wordFormAddress, halfFormAddress, addr]
    refine blank_conditional (blank_guard (blank_access ?_))
    rw [State.readReg_setPhys_of_unnamed (s := s.nextAnswer) hp]
    exact blank_advance_storeBytes s.nextAnswer p 4 _ v _
  | strb c u rn rd imm12 =>
    simp only [exec, execStrb, wordFormAddress, addr]
    refine blank_conditional (blank_guard (blank_access ?_))
    rw [State.readReg_setPhys_of_unnamed (s := s.nextAnswer) hp]
    exact blank_advance_storeBytes s.nextAnswer p 4 _ v [_]
  | subImm c sBit rn rd rot imm8 | subReg c sBit rn rd rm | movImm c sBit rd rot imm8 | movReg c sBit rd rm =>
    simp only [exec, execSubImm, execSubReg, execMovImm, execMovReg, read]
    exact blank_conditional (blank_finishResult hp sBit rd _ v)
  | cmpImm c rn rot imm8 | cmpReg c rn rm | cmnImm c rn rot imm8 | cmnReg c rn rm =>
    simp only [exec, execCmpImm, execCmpReg, execCmnImm, execCmnReg, read]
    exact blank_conditional (blank_finishCompare _ s p v)
  | und c high low => exact blank_conditional (blank_takeException .undefined _ s p v)
  | b c imm24 => exact blank_conditional (blank_branchTo _ s p v)
  | bl c imm24 =>
    simp only [exec, execBl, State.writeReg_setPhys_of_unnamed hp]
    exact blank_conditional (blank_branchTo _ _ p v)
  | swi c comment => exact blank_conditional (blank_takeException .swi _ s p v)
  | tSwi value8 => exact blank_takeException .swi _ s p v
  | tBcond c soff8 =>
    simp only [exec, execTBcond]
    rw [State.setPhys_cpsr]
    split
    · exact blank_branchTo _ s p v
    · exact blank_advance 2 s p v
  | tBx rm =>
    simp only [exec, execTBx, read]
    exact blank_exchangeTo _ s p v
  | tB off11 => exact blank_branchTo _ s p v
  | tBlPrefix off11 => exact blank_advance_writeReg hp 2 .r14 _ v
  | tBlSuffix off11 =>
    simp only [exec, execTBlSuffix, read, State.writeReg_setPhys_of_unnamed hp]
    exact blank_branchTo _ _ p v

end Sys2Proof.Machine
end

section
/-! The interrupt masks (R43): what a boundary depends on, what it takes, and what may change the masks. -/

namespace Sys2Proof.Machine

/-! ### What a boundary depends on (R209 steps 0 to 3) -/

/-- Two states of which a boundary makes the same: the same but for the levels, nRESET alike, and each interrupt
requested and unmasked in both or in neither. -/
theorem boundary_congr {s u : State} (next : s.nextBoundary = u.nextBoundary)
    (reset : s.levels.nReset = u.levels.nReset)
    (fiq : (!s.levels.nFiq && !s.cpsr.f) = (!u.levels.nFiq && !u.cpsr.f))
    (irq : (!s.levels.nIrq && !s.cpsr.i) = (!u.levels.nIrq && !u.cpsr.i)) : boundary s = boundary u := by
  have pc : s.pc = u.pc := show s.nextBoundary.pc = u.nextBoundary.pc by rw [next]
  have cpsr : s.cpsr = u.cpsr := show s.nextBoundary.cpsr = u.nextBoundary.cpsr by rw [next]
  have stuck : s.stuck = u.stuck := by unfold State.stuck; rw [cpsr]
  unfold boundary
  rw [next, reset, fiq, irq, pc, stuck]

theorem step_congr {s u : State} (h : boundary s = boundary u) : step s = step u := by
  unfold step
  rw [h]

/-- A masked nIRQ may have either level. -/
theorem step_of_irqMasked {s : State} (h : s.cpsr.i = true) (p : Pins) (rest : Trace Pins) (level : Bool) :
    step { s with pins := rest.cons p } = step { s with pins := rest.cons { p with nIrq := level } } :=
  step_congr (boundary_congr rfl rfl rfl (by simp [h]))

/-- A masked nFIQ may have either level. -/
theorem step_of_fiqMasked {s : State} (h : s.cpsr.f = true) (p : Pins) (rest : Trace Pins) (level : Bool) :
    step { s with pins := rest.cons p } = step { s with pins := rest.cons { p with nFiq := level } } :=
  step_congr (boundary_congr rfl rfl (by simp [h]) rfl)

/-! ### What a boundary takes -/

theorem State.stuck_of_validMode {s : State} (h : s.cpsr.validMode = true) : s.stuck = false := by
  simp [State.stuck, h]

theorem step_of_boundary_taken {s t : State} (h : boundary s = .taken t) : step s = .next t := by
  simp [step, h]

theorem boundary_of_fiq {s : State} (valid : s.cpsr.validMode = true) (reset : s.levels.nReset = true)
    (fiq : s.levels.nFiq = false) (mask : s.cpsr.f = false) :
    boundary s = .taken (takeException .fiq (s.pc + 4) s.nextBoundary) := by
  simp [boundary, reset, State.stuck_of_validMode valid, fiq, mask]

theorem boundary_of_irq {s : State} (valid : s.cpsr.validMode = true) (reset : s.levels.nReset = true)
    (noFiq : s.levels.nFiq = true ∨ s.cpsr.f = true) (irq : s.levels.nIrq = false) (mask : s.cpsr.i = false) :
    boundary s = .taken (takeException .irq (s.pc + 4) s.nextBoundary) := by
  obtain h | h := noFiq <;> simp [boundary, reset, State.stuck_of_validMode valid, irq, mask, h]

theorem boundary_of_quiet {s : State} (valid : s.cpsr.validMode = true) (quiet : s.quiet) :
    boundary s = .run s.nextBoundary := by
  obtain ⟨reset, hf | hf, hi | hi⟩ := quiet <;> simp [boundary, reset, State.stuck_of_validMode valid, hf, hi]

/-! ### What may change the masks -/

/-- The CPSR a list entry allows keeps I and F, unless it restores the saved one or writes the control field. -/
theorem CpsrWrite.masks {i : Instr} {s : State} {q : Psr} (h : CpsrWrite i s q) :
    (q.i = s.cpsr.i ∧ q.f = s.cpsr.f)
      ∨ (i.isExceptionReturn = true ∧ s.spsr.get s.mode = some q)
      ∨ (i.writesControl = true ∧ s.mode ≠ .usr) := by
  cases h with
  | flags | exchange => exact .inl ⟨rfl, rfl⟩
  | control q hi priv _ => exact .inr (.inr ⟨hi, priv⟩)
  | saved q hi hq => exact .inr (.inl ⟨hi, hq⟩)

/-- An instruction enters an exception or leaves a CPSR that the table of R227 allows. -/
theorem Ran.entryFrom_or_cpsrWrite {i : Instr} {s t : State} (h : Ran i s t) :
    (∃ x, EntryFrom x s t) ∨ CpsrWrite i s t.cpsr := by
  cases h with
  | entered x link u _ hu => exact .inl ⟨x, entryFrom_takeException hu x link⟩
  | branched u v hu _ => exact .inr hu.cpsrWrite
  | advanced u hu _ _ => exact .inr hu.cpsrWrite
  | stuck q hq _ _ => exact .inr hq

/-- What a step may make of the CPSR: that of an exception entry, or what its instruction may write (R227). -/
theorem step_cpsr {s t : State} (h : step s = .next t) :
    (∃ x, EntryFrom x s t) ∨ ∃ i, s.decodeAtPc = .ok i ∧ CpsrWrite i s.nextBoundary.nextAnswer t.cpsr := by
  obtain taken | ⟨-, ⟨-, rfl⟩ | ⟨i, hi, h⟩⟩ := step_next h
  · obtain ⟨-, rfl⟩ | ⟨-, -, -, -, rfl⟩ | ⟨-, -, -, -, -, rfl⟩ := boundary_taken taken
    · exact .inl ⟨.reset, rfl, rfl⟩
    · exact .inl ⟨.fiq, rfl, rfl⟩
    · exact .inl ⟨.irq, rfl, rfl⟩
  · exact .inl ⟨.prefetchAbort, rfl, rfl⟩
  · obtain entry | written := (ran_of_exec h).entryFrom_or_cpsrWrite
    · exact .inl entry
    · exact .inr ⟨i, hi, written⟩

/-- Settles O46: a masked input leaves the boundary as it is, an unmasked one is taken, and the masks change with the
CPSR alone. -/
theorem interruptMasksDisableTheInputs : Obligations.InterruptMasksDisableTheInputs := by
  unfold Obligations.InterruptMasksDisableTheInputs
  refine ⟨fun s p rest level => ⟨fun h => step_of_irqMasked h p rest level,
    fun h => step_of_fiqMasked h p rest level⟩, fun s valid reset => ⟨?_, ?_, ?_⟩, ?_⟩
  · intro fiq mask
    exact ⟨_, step_of_boundary_taken (boundary_of_fiq valid reset fiq mask), enterException_mode _ _ _ _, rfl⟩
  · intro noFiq irq mask
    exact ⟨_, step_of_boundary_taken (boundary_of_irq valid reset (.inl noFiq) irq mask), enterException_mode _ _ _ _,
      rfl⟩
  · exact fun noFiq noIrq => boundary_of_quiet valid ⟨reset, noFiq, noIrq⟩
  · intro s t h changed
    obtain entry | ⟨i, hi, written⟩ := step_cpsr h
    · exact .inl entry
    · obtain ⟨keptI, keptF⟩ | restored | control := written.masks
      · exact absurd changed (by simp [keptI, keptF])
      · exact .inr ⟨i, hi, .inl restored⟩
      · exact .inr ⟨i, hi, .inr control⟩

end Sys2Proof.Machine
end
section
/-! The modes, the banks, the status-register format and the state after reset (R29, R31, R36, R45, R46, R51). -/

namespace Sys2Proof.Machine

/-! ### The status-register format (R36) -/

/-- The bits of a written status register, each in its place. -/
theorem Psr.toWord_bits (p : Psr) (r : BitVec 20) :
    (p.toWord r).getLsbD 31 = p.n ∧ (p.toWord r).getLsbD 30 = p.z ∧ (p.toWord r).getLsbD 29 = p.c
      ∧ (p.toWord r).getLsbD 28 = p.v ∧ (p.toWord r).getLsbD 7 = p.i ∧ (p.toWord r).getLsbD 6 = p.f
      ∧ (p.toWord r).getLsbD 5 = p.t := by
  simp only [Psr.toWord, BitVec.getLsbD_append]
  simp

theorem Psr.toWord_mode (p : Psr) (r : BitVec 20) : (p.toWord r).extractLsb' 0 5 = p.m := by
  unfold Psr.toWord
  rw [BitVec.extractLsb'_append_eq_right]

theorem Psr.toWord_reserved (p : Psr) (r : BitVec 20) : (p.toWord r).extractLsb' 8 20 = r := by
  apply BitVec.eq_of_getLsbD_eq
  intro k hk
  simp only [Psr.toWord, BitVec.getLsbD_extractLsb', BitVec.getLsbD_append]
  interval_cases k <;> simp

theorem Psr.ofWord_toWord (p : Psr) (r : BitVec 20) : Psr.ofWord (p.toWord r) = p := by
  obtain ⟨n, z, c, v, i, f, t⟩ := Psr.toWord_bits p r
  unfold Psr.ofWord slice
  rw [n, z, c, v, i, f, t, Psr.toWord_mode]

theorem Psr.toWord_ofWord (w : Word) : (Psr.ofWord w).toWord (w.extractLsb' 8 20) = w := by
  apply BitVec.eq_of_getLsbD_eq
  intro k hk
  simp only [Psr.toWord, Psr.ofWord, slice, BitVec.getLsbD_append, BitVec.getLsbD_extractLsb', BitVec.getLsbD_ofBool]
  interval_cases k <;> simp

/-- Settles O7: the twelve bits and bits 27:8 make up the word. -/
theorem psrFormatHoldsTwelveBits : Obligations.PsrFormatHoldsTwelveBits := by
  unfold Obligations.PsrFormatHoldsTwelveBits
  refine ⟨fun p r => ⟨Psr.ofWord_toWord p r, Psr.toWord_reserved p r⟩, Psr.toWord_ofWord, fun p r => ?_⟩
  obtain ⟨n, z, c, v, i, f, t⟩ := Psr.toWord_bits p r
  exact ⟨n, z, c, v, i, f, t, Psr.toWord_mode p r⟩

/-! ### Modes and banks -/

theorem Mode.ofBits_eq_some_iff (b : BitVec 5) (m : Mode) : Mode.ofBits b = some m ↔ b = m.toBits :=
  ⟨Mode.toBits_of_ofBits, fun h => h ▸ Mode.ofBits_toBits m⟩

/-- Settles O8: the seven numbers and the 25 others are counted. -/
theorem sevenModeNumbersAreValid : Obligations.SevenModeNumbersAreValid :=
  ⟨Mode.ofBits_eq_some_iff, rfl, by decide⟩

/-- Outside FIQ mode numbers 8 to 12 name the registers all other modes share (R31). -/
theorem physReg_high_of_ne_fiq {m : Mode} (h : m ≠ .fiq) :
    [RegNum.r8, .r9, .r10, .r11, .r12].map (physReg m) = [some .r8, some .r9, some .r10, some .r11, some .r12] := by
  simp [physReg, h]

/-- Settles O6: the bank table row by row, numbers 8 to 12 by whether the mode is FIQ. -/
theorem registerNumbersNameTheModesBank : Obligations.RegisterNumbersNameTheModesBank := by
  unfold Obligations.RegisterNumbersNameTheModesBank
  refine ⟨fun m => ⟨rfl, ?_, physReg_high_of_ne_fiq, rfl⟩, rfl, rfl, fun s => rfl⟩
  rintro rfl
  rfl

/-- Settles O43: the fields of `State.reset` are those of the table of R51. -/
theorem resetStateHasTheStatedValues : Obligations.ResetStateHasTheStatedValues := by
  refine ⟨rfl, ?_, rfl, rfl, rfl, rfl, rfl⟩
  exact State.mode_of_ofBits rfl

end Sys2Proof.Machine
end

section
/-! Memory read as words, halfwords and bytes, in either byte order (R65 to R71). -/

namespace Sys2Proof

/-! ### A word as four bytes and as two halfwords (R65 to R68) -/

/-- Each byte of four in a row is the byte of the word at its place. -/
theorem slice_append_bytes (b3 b2 b1 b0 : Byte) :
    slice (b3 ++ b2 ++ b1 ++ b0 : Word) 24 8 = b3 ∧ slice (b3 ++ b2 ++ b1 ++ b0 : Word) 16 8 = b2
      ∧ slice (b3 ++ b2 ++ b1 ++ b0 : Word) 8 8 = b1 ∧ slice (b3 ++ b2 ++ b1 ++ b0 : Word) 0 8 = b0 := by
  have above {n k : Nat} (x : BitVec n) (b : Byte) : slice (x ++ b) (k + 8) 8 = slice x k 8 :=
    BitVec.extractLsb'_append_eq_of_le (Nat.le_add_left 8 k)
  have last {n : Nat} (x : BitVec n) (b : Byte) : slice (x ++ b) 0 8 = b := BitVec.extractLsb'_append_eq_right
  refine ⟨?_, ?_, ?_, last _ b0⟩
  · calc slice (b3 ++ b2 ++ b1 ++ b0 : Word) 24 8
        = slice (b3 ++ b2 ++ b1) 16 8 := above _ b0
      _ = slice (b3 ++ b2) 8 8 := above _ b1
      _ = b3 := BitVec.extractLsb'_append_eq_left
  · calc slice (b3 ++ b2 ++ b1 ++ b0 : Word) 16 8
        = slice (b3 ++ b2 ++ b1) 8 8 := above _ b0
      _ = slice (b3 ++ b2) 0 8 := above _ b1
      _ = b2 := last b3 b2
  · calc slice (b3 ++ b2 ++ b1 ++ b0 : Word) 8 8
        = slice (b3 ++ b2 ++ b1) 0 8 := above _ b0
      _ = b1 := last _ b1

/-- The bytes a word is put together from are the bytes it is laid out as. -/
theorem bytesOfWord_wordOfBytes (big : Bool) (b0 b1 b2 b3 : Byte) :
    bytesOfWord big (wordOfBytes big b0 b1 b2 b3) = [b0, b1, b2, b3] := by
  cases big
  · obtain ⟨h3, h2, h1, h0⟩ := slice_append_bytes b3 b2 b1 b0
    simp [bytesOfWord, wordOfBytes, h0, h1, h2, h3]
  · obtain ⟨h3, h2, h1, h0⟩ := slice_append_bytes b0 b1 b2 b3
    simp [bytesOfWord, wordOfBytes, h0, h1, h2, h3]

theorem bytesOfHalf_length (big : Bool) (v : Half) : (bytesOfHalf big v).length = 2 := by
  cases big <;> rfl

theorem bytesOfWord_length (big : Bool) (v : Word) : (bytesOfWord big v).length = 4 := by
  cases big <;> rfl

/-- The halfwords a word is made of: the one at its address is the upper one in big-endian order, the lower one in
little-endian order. -/
theorem wordOfBytes_eq_append (big : Bool) (b0 b1 b2 b3 : Byte) :
    wordOfBytes big b0 b1 b2 b3
      = if big then halfOfBytes big b0 b1 ++ halfOfBytes big b2 b3
        else halfOfBytes big b2 b3 ++ halfOfBytes big b0 b1 := by
  cases big <;> exact BitVec.append_assoc

/-- The halfword from the first two bytes of a word is its upper or its lower half. -/
theorem halfOfBytes_first (big : Bool) (b0 b1 b2 b3 : Byte) :
    halfOfBytes big b0 b1 = slice (wordOfBytes big b0 b1 b2 b3) (if big then 16 else 0) 16 := by
  rw [wordOfBytes_eq_append]
  cases big
  · exact BitVec.extractLsb'_append_eq_right.symm
  · exact BitVec.extractLsb'_append_eq_left.symm

/-- The halfword from the last two bytes of a word is its other half. -/
theorem halfOfBytes_last (big : Bool) (b0 b1 b2 b3 : Byte) :
    halfOfBytes big b2 b3 = slice (wordOfBytes big b0 b1 b2 b3) (if big then 0 else 16) 16 := by
  rw [wordOfBytes_eq_append]
  cases big
  · exact BitVec.extractLsb'_append_eq_left.symm
  · exact BitVec.extractLsb'_append_eq_right.symm

/-! ### Addresses -/

theorem Word.toNat_add_of_fits {a : Word} {k : Nat} (h : a.toNat + k < 2 ^ 32) :
    (a + BitVec.ofNat 32 k).toNat = a.toNat + k := by
  have small : (BitVec.ofNat 32 k).toNat = k := BitVec.toNat_ofNat k 32 ▸ Nat.mod_eq_of_lt (by omega)
  rw [BitVec.toNat_add_of_lt (by rwa [small]), small]

/-- An even address is that of the word around it, or two above it, by its bit 1. -/
theorem Word.wordAddress_add_of_even {a : Word} (even : a.toNat % 2 = 0) :
    (a &&& 0xFFFFFFFC) + (if a.getLsbD 1 then 2 else 0) = a := by
  have bit0 : a[0] = false := by simp [← BitVec.getLsbD_eq_getElem, BitVec.getLsbD, Nat.testBit_zero, even]
  have disjoint : (a &&& 0xFFFFFFFC) &&& (if a.getLsbD 1 then 2 else 0) = 0 := by
    rw [BitVec.and_assoc]
    split <;> simp
  rw [BitVec.add_eq_or_of_and_eq_zero _ _ disjoint]
  apply BitVec.eq_of_getLsbD_eq
  intro i hi
  interval_cases i <;> cases a.getLsbD 1 <;> simp [bit0]

namespace Machine

/-! ### Reading -/

/-- A byte inside the space is read at its address without wrapping. -/
theorem State.readByte_add (s : State) {a : Word} (k : Nat) (h : a.toNat + k < 2 ^ 32) :
    s.readByte (a + BitVec.ofNat 32 k) = s.mem.read (a.toNat + k) := by
  rw [State.readByte, Word.toNat_add_of_fits h]

/-- The bytes of the word read at an address are the bytes read there and above. -/
theorem State.bytesOfWord_readWord (s : State) (a : Word) :
    bytesOfWord s.bigend (s.readWord a) = [s.readByte a, s.readByte (a + 1), s.readByte (a + 2), s.readByte (a + 3)] :=
  bytesOfWord_wordOfBytes _ _ _ _ _

/-- Those bytes in big-endian order (R65). -/
theorem State.readByte_of_big {s : State} (big : s.bigend = true) (a : Word) :
    s.readByte a = slice (s.readWord a) 24 8 ∧ s.readByte (a + 1) = slice (s.readWord a) 16 8
      ∧ s.readByte (a + 2) = slice (s.readWord a) 8 8 ∧ s.readByte (a + 3) = slice (s.readWord a) 0 8 := by
  have bytes := s.bytesOfWord_readWord a
  simp only [bytesOfWord, big, if_true, List.cons.injEq] at bytes
  obtain ⟨h0, h1, h2, h3, -⟩ := bytes
  exact ⟨h0.symm, h1.symm, h2.symm, h3.symm⟩

/-- Those bytes in little-endian order (R66). -/
theorem State.readByte_of_little {s : State} (little : s.bigend = false) (a : Word) :
    s.readByte a = slice (s.readWord a) 0 8 ∧ s.readByte (a + 1) = slice (s.readWord a) 8 8
      ∧ s.readByte (a + 2) = slice (s.readWord a) 16 8 ∧ s.readByte (a + 3) = slice (s.readWord a) 24 8 := by
  have bytes := s.bytesOfWord_readWord a
  simp only [bytesOfWord, little, Bool.false_eq_true, if_false, List.cons.injEq] at bytes
  obtain ⟨h0, h1, h2, h3, -⟩ := bytes
  exact ⟨h0.symm, h1.symm, h2.symm, h3.symm⟩

/-- The halfword at a word's address is its upper or its lower half (R69, R71). -/
theorem State.readHalf_eq_slice (s : State) (a : Word) :
    s.readHalf a = slice (s.readWord a) (if s.bigend then 16 else 0) 16 :=
  halfOfBytes_first _ _ _ _ _

/-- The halfword two bytes above a word's address is its other half (R69, R71). -/
theorem State.readHalf_add_two (s : State) (a : Word) :
    s.readHalf (a + 2) = slice (s.readWord a) (if s.bigend then 0 else 16) 16 := by
  have next : a + 2 + 1 = a + 3 := BitVec.add_assoc a 2 1
  rw [State.readHalf, next]
  exact halfOfBytes_last _ _ _ _ _

/-- Settles O9: in an aligned word no address wraps, so the bytes read at it and above are those of memory. -/
theorem wordBytesLieInTheByteOrder : Obligations.WordBytesLieInTheByteOrder := by
  unfold Obligations.WordBytesLieInTheByteOrder
  intro s a ha
  have fits := a.isLt
  have b1 : s.readByte (a + 1) = s.mem.read (a.toNat + 1) := s.readByte_add 1 (by omega)
  have b2 : s.readByte (a + 2) = s.mem.read (a.toNat + 2) := s.readByte_add 2 (by omega)
  have b3 : s.readByte (a + 3) = s.mem.read (a.toNat + 3) := s.readByte_add 3 (by omega)
  rw [← b1, ← b2, ← b3]
  exact ⟨fun big => State.readByte_of_big big a, fun little => State.readByte_of_little little a⟩

/-! ### The pc in Thumb state (R71) -/

/-- Of the two halfwords of a word, the one two bytes above is the lower one in big-endian order, the other one in
little-endian order. -/
theorem State.readHalf_of_bit1 (s : State) (a : Word) (bit1 : Bool) :
    s.readHalf (a + if bit1 then 2 else 0)
      = if bit1 = s.bigend then slice (s.readWord a) 0 16 else slice (s.readWord a) 16 16 := by
  cases bit1
  · have zero : a + 0 = a := BitVec.add_zero a
    rw [if_neg Bool.false_ne_true, zero, State.readHalf_eq_slice]
    cases s.bigend <;> rfl
  · rw [if_pos rfl, State.readHalf_add_two]
    cases s.bigend <;> rfl

/-- Settles O12: bit 1 of the pc says which halfword of the word is read, and the byte order which half that is. -/
theorem thumbFetchSelectsAHalfword : Obligations.ThumbFetchSelectsAHalfword := by
  unfold Obligations.ThumbFetchSelectsAHalfword
  intro s even
  calc s.readHalf s.pc
      = s.readHalf ((s.pc &&& 0xFFFFFFFC) + if s.pc.getLsbD 1 then 2 else 0) := by
        rw [Word.wordAddress_add_of_even even]
    _ = _ := s.readHalf_of_bit1 _ _

/-! ### Storing -/

/-- Each byte stored is read back at its place. -/
theorem State.readByte_storeBytes {s : State} {a : Word} {bs : List Byte} (hm : Memory.wf s.mem)
    (fits : a.toNat + bs.length ≤ 2 ^ 32) (k : Nat) (hk : k < bs.length) :
    (s.storeBytes a bs).readByte (a + BitVec.ofNat 32 k) = bs[k] := by
  rw [State.readByte_add _ k (by omega), State.read_storeBytes bs s a hm fits, if_pos (by omega),
    Nat.add_sub_cancel_left, List.getD_eq_getElem _ _ hk]

theorem State.readByte_storeBytes_head {s : State} {a : Word} {b : Byte} {bs : List Byte} (hm : Memory.wf s.mem)
    (fits : a.toNat + (b :: bs).length ≤ 2 ^ 32) : (s.storeBytes a (b :: bs)).readByte a = b := by
  have head := State.readByte_storeBytes hm fits 0 (Nat.succ_pos _)
  rwa [BitVec.add_zero] at head

/-- Every byte outside those stored is as before. -/
theorem State.read_storeBytes_outside {s : State} {a : Word} {bs : List Byte} (hm : Memory.wf s.mem)
    (fits : a.toNat + bs.length ≤ 2 ^ 32) {x : Nat} (hx : x < a.toNat ∨ a.toNat + bs.length ≤ x) :
    (s.storeBytes a bs).mem.read x = s.mem.read x := by
  rw [State.read_storeBytes bs s a hm fits, if_neg (by omega)]

theorem State.storeBytes_bigend (s : State) (a : Word) (bs : List Byte) : (s.storeBytes a bs).bigend = s.bigend := by
  obtain ⟨-, -, -, -, -, -, bigend, -⟩ := State.storeBytes_frame bs s a
  exact bigend

/-- A halfword stored inside the space reads back (R67, R68). -/
theorem State.readHalf_storeHalf {s : State} {a : Word} (hm : Memory.wf s.mem) (fits : a.toNat + 2 ≤ 2 ^ 32)
    (v : Half) : (s.storeHalf a v).readHalf a = v := by
  obtain ⟨b0, b1, bytes, value⟩ := halfOfBytes_bytesOfHalf s.bigend v
  rw [State.storeHalf, bytes]
  have h0 : (s.storeBytes a [b0, b1]).readByte a = b0 := State.readByte_storeBytes_head hm fits
  have h1 : (s.storeBytes a [b0, b1]).readByte (a + 1) = b1 := State.readByte_storeBytes hm fits 1 (by simp)
  rw [State.readHalf, State.storeBytes_bigend, h0, h1, value]

/-- A word stored inside the space reads back (R67, R68). -/
theorem State.readWord_storeWord {s : State} {a : Word} (hm : Memory.wf s.mem) (fits : a.toNat + 4 ≤ 2 ^ 32)
    (v : Word) : (s.storeWord a v).readWord a = v := by
  obtain ⟨b0, b1, b2, b3, bytes, value⟩ := wordOfBytes_bytesOfWord s.bigend v
  rw [State.storeWord, bytes]
  have stored := State.readByte_storeBytes (bs := [b0, b1, b2, b3]) hm fits
  have h0 : (s.storeBytes a [b0, b1, b2, b3]).readByte a = b0 := State.readByte_storeBytes_head hm fits
  have h1 : (s.storeBytes a [b0, b1, b2, b3]).readByte (a + 1) = b1 := stored 1 (by simp)
  have h2 : (s.storeBytes a [b0, b1, b2, b3]).readByte (a + 2) = b2 := stored 2 (by simp)
  have h3 : (s.storeBytes a [b0, b1, b2, b3]).readByte (a + 3) = b3 := stored 3 (by simp)
  rw [State.readWord, State.storeBytes_bigend, h0, h1, h2, h3, value]

theorem State.read_storeHalf_outside {s : State} {a : Word} {x : Nat} (hm : Memory.wf s.mem)
    (fits : a.toNat + 2 ≤ 2 ^ 32) (v : Half) (hx : x < a.toNat ∨ a.toNat + 2 ≤ x) :
    (s.storeHalf a v).mem.read x = s.mem.read x :=
  State.read_storeBytes_outside hm (by rwa [bytesOfHalf_length]) (by rwa [bytesOfHalf_length])

theorem State.read_storeWord_outside {s : State} {a : Word} {x : Nat} (hm : Memory.wf s.mem)
    (fits : a.toNat + 4 ≤ 2 ^ 32) (v : Word) (hx : x < a.toNat ∨ a.toNat + 4 ≤ x) :
    (s.storeWord a v).mem.read x = s.mem.read x :=
  State.read_storeBytes_outside hm (by rwa [bytesOfWord_length]) (by rwa [bytesOfWord_length])

/-- Settles O10: an aligned halfword or word does not wrap. -/
theorem memoryReadsBackWhatWasStored : Obligations.MemoryReadsBackWhatWasStored := by
  unfold Obligations.MemoryReadsBackWhatWasStored
  intro s a v hm
  have below := a.isLt
  refine ⟨Memory.read_write_same _ _ _ hm, fun x hx => Memory.read_write_other _ _ _ _ hx, fun ha => ?_, fun ha => ?_⟩
  · have fits : a.toNat + 2 ≤ 2 ^ 32 := by omega
    exact ⟨State.readHalf_storeHalf hm fits _, fun x hx => State.read_storeHalf_outside hm fits _ hx⟩
  · have fits : a.toNat + 4 ≤ 2 ^ 32 := by omega
    exact ⟨State.readWord_storeWord hm fits v, fun x hx => State.read_storeWord_outside hm fits v hx⟩

/-- Settles O11: the word stored is the word read, and its bytes and halfwords are narrow reads. -/
theorem narrowReadsOfAStoredWord : Obligations.NarrowReadsOfAStoredWord := by
  unfold Obligations.NarrowReadsOfAStoredWord
  intro s a v hm ha
  have below := a.isLt
  have word : (s.storeWord a v).readWord a = v := State.readWord_storeWord hm (by omega) v
  have order : (s.storeWord a v).bigend = s.bigend := State.storeBytes_bigend s a _
  have firstHalf := (s.storeWord a v).readHalf_eq_slice a
  have lastHalf := (s.storeWord a v).readHalf_add_two a
  rw [word] at firstHalf lastHalf
  refine ⟨fun little => ?_, fun big => ?_⟩
  · obtain ⟨h0, -, -, h3⟩ := State.readByte_of_little (order.trans little) a
    rw [word] at h0 h3
    rw [order, little] at firstHalf lastHalf
    exact ⟨h0, h3, firstHalf, lastHalf⟩
  · obtain ⟨h0, -, -, h3⟩ := State.readByte_of_big (order.trans big) a
    rw [word] at h0 h3
    rw [order, big] at firstHalf lastHalf
    exact ⟨h0, h3, firstHalf, lastHalf⟩

/-! ### The canonical form (R60) -/

/-- The cells of a canonical memory are the addresses that read as something other than the unlisted byte. -/
theorem Memory.mem_iff_read {m : Memory} (h : Memory.wf m) (a : Nat) (v : Byte) :
    (a, v) ∈ m ↔ m.read a = v ∧ v ≠ unlistedByte := by
  induction m with
  | nil => simp [eq_comm]
  | cons cell rest ih =>
    obtain ⟨b, w⟩ := cell
    rw [List.mem_cons, ih (Memory.wf_tail h), Memory.read_cons]
    by_cases hab : a = b
    · obtain ⟨listed, -⟩ := h.2 (b, w) (by simp)
      have above : Memory.read rest a = unlistedByte := Memory.read_of_lt rest a (hab ▸ Memory.wf_head_lt h)
      rw [above, if_pos hab]
      constructor
      · rintro (⟨rfl, rfl⟩ | ⟨unlisted, listed⟩)
        · exact ⟨rfl, listed⟩
        · exact absurd unlisted.symm listed
      · rintro ⟨rfl, -⟩
        exact .inl (hab ▸ rfl)
    · simp [hab]

/-- Settles O13: canonical memories that read alike have the same cells, and both list them in rising order. -/
theorem canonicalMemoryIsUnique : Obligations.CanonicalMemoryIsUnique := by
  unfold Obligations.CanonicalMemoryIsUnique
  intro m n hm hn h
  have : Std.Asymm (fun x y : Host.Cell => x.1 < y.1) := ⟨fun _ _ => lt_asymm⟩
  refine hm.1.eq_of_mem_iff hn.1 fun (a, v) => ?_
  rw [Memory.mem_iff_read hm, Memory.mem_iff_read hn, h]

end Machine
end Sys2Proof
end

section
/-! What a step keeps of the platform: the byte order, the memory map, the declared text, and every mark of a stored
byte (R64, R75, R81). -/

namespace Sys2Proof.Machine

/-- The platform's parameters are unchanged, and no mark of a stored byte is taken away. -/
def PlatformAndMarksKept (s t : State) : Prop :=
  PlatformKept s t ∧ ∀ x, x ∈ s.stored → x ∈ t.stored

theorem PlatformAndMarksKept.of_eq {s t : State} (bigend : t.bigend = s.bigend) (windows : t.windows = s.windows)
    (text : t.text = s.text) (stored : t.stored = s.stored) : PlatformAndMarksKept s t :=
  ⟨⟨bigend, windows, text⟩, fun _ h => stored ▸ h⟩

theorem PlatformAndMarksKept.trans {s t u : State} (h : PlatformAndMarksKept s t) (h' : PlatformAndMarksKept t u) :
    PlatformAndMarksKept s u := by
  obtain ⟨⟨bigend, windows, text⟩, stored⟩ := h
  obtain ⟨⟨bigend', windows', text'⟩, stored'⟩ := h'
  exact ⟨⟨bigend'.trans bigend, windows'.trans windows, text'.trans text⟩, fun x hx => stored' x (stored x hx)⟩

theorem UsedUp.platform {s u : State} (h : UsedUp s u) : PlatformAndMarksKept s u := by
  cases h <;> exact .of_eq rfl rfl rfl rfl

theorem State.writeReg_platform (s : State) (n : RegNum) (w : Word) : PlatformAndMarksKept s (s.writeReg n w) := by
  unfold State.writeReg
  split <;> exact .of_eq rfl rfl rfl rfl

theorem State.storeBytes_platform (s : State) (a : Word) (bs : List Byte) :
    PlatformAndMarksKept s (s.storeBytes a bs) := by
  obtain ⟨-, -, -, -, text, windows, bigend, -⟩ := State.storeBytes_frame bs s a
  exact ⟨⟨bigend, windows, text⟩, State.storeBytes_stored bs s a⟩

theorem Effect.platform {i : Instr} {s u : State} (h : Effect i s u) : PlatformAndMarksKept s u := by
  cases h with
  | register u rd w hu _ => exact hu.platform.trans (u.writeReg_platform rd w)
  | registerAndFlags rd w q _ => exact s.writeReg_platform rd w
  | cpsr | spsr => exact .of_eq rfl rfl rfl rfl
  | store a bs _ => exact s.nextAnswer.storeBytes_platform a bs

theorem Ran.platform {i : Instr} {s t : State} (h : Ran i s t) : PlatformAndMarksKept s t := by
  cases h with
  | entered x link u _ hu => exact hu.platform
  | branched u v hu _ => exact hu.platform
  | advanced u hu _ _ => exact hu.platform
  | stuck q _ _ _ => exact .of_eq rfl rfl rfl rfl

/-- Settles O55: entering an exception writes none of these, and an instruction only adds marks. -/
theorem stepsKeepThePlatform : Obligations.StepsKeepThePlatform := by
  unfold Obligations.StepsKeepThePlatform
  intro s t h
  obtain taken | ⟨-, ⟨-, rfl⟩ | ⟨i, -, h⟩⟩ := step_next h
  · obtain ⟨-, rfl⟩ | ⟨-, -, -, -, rfl⟩ | ⟨-, -, -, -, -, rfl⟩ := boundary_taken taken
    all_goals exact PlatformAndMarksKept.of_eq rfl rfl rfl rfl
  · exact PlatformAndMarksKept.of_eq rfl rfl rfl rfl
  · exact (ran_of_exec h).platform

end Sys2Proof.Machine
end

section
/-! Decoding and encoding (R90 to R104): which row of its table a word belongs to, the fields read back from an
encoding, the encoding put together again from the fields, and the condition of an ARM instruction. -/

namespace Sys2Proof

/-! ### Rows that no word matches together -/

/-- The fixed bits the two rows share differ, so that no word is accepted by both. -/
abbrev Row.Clashes {width : Nat} {form : Type} (r q : Row width form) : Prop :=
  q.pattern &&& r.mask ≠ r.pattern &&& q.mask

theorem Row.Clashes.accepts_left {width : Nat} {form : Type} {r q : Row width form} {w : BitVec width}
    (clash : r.Clashes q) (hq : q.accepts w = true) : r.accepts w = false := by
  rw [Row.accepts_iff] at hq
  rw [← Bool.not_eq_true, Row.accepts_iff]
  intro hr
  apply clash
  rw [← hr, ← hq, BitVec.and_assoc, BitVec.and_assoc, BitVec.and_comm q.mask]

/-- A table finds the accepting row `r` for a word that some `v` accepts, if every row before `r` clashes with `v`. -/
theorem find?_accepts {width : Nat} {form : Type} {rows : List (Row width form)} {r v : Row width form}
    {w : BitVec width} (hr : r ∈ rows) (acc : r.accepts w = true) (hv : v.accepts w = true)
    (before : rows.Pairwise fun q q' => q' = r → q.Clashes v) : rows.find? (·.accepts w) = some r := by
  induction rows with
  | nil => cases hr
  | cons q rest ih =>
    obtain ⟨head, tail⟩ := List.pairwise_cons.1 before
    obtain rfl | hr := List.mem_cons.1 hr
    · exact List.find?_cons_of_pos acc
    · rw [List.find?_cons_of_neg (by simp [(head r hr rfl).accepts_left hv])]
      exact ih hr tail

theorem accepts_of_find? {width : Nat} {form : Type} {rows : List (Row width form)} {r : Row width form}
    {w : BitVec width} (h : rows.find? (·.accepts w) = some r) : r ∈ rows ∧ r.accepts w = true :=
  ⟨List.mem_of_find?_eq_some h, List.find?_some (p := fun q : Row width form => q.accepts w) h⟩

/-! ### Fields of a word -/

/-- Where a mask has every bit set, a word that matches holds the bits of the pattern. -/
theorem slice_eq_of_masked {k lo n : Nat} {w mask pattern : BitVec k} {v : BitVec n} (acc : w &&& mask = pattern)
    (fixed : slice mask lo n = BitVec.allOnes n) (value : slice pattern lo n = v) : slice w lo n = v := by
  simp only [slice] at fixed
  rw [← value, ← acc, slice, slice, BitVec.extractLsb'_and, fixed, BitVec.and_allOnes]

/-- A field followed by fixed bits is the longer field of a word that matches. -/
theorem slice_append_fixed {k hi n m : Nat} {w mask pattern : BitVec k} {v : BitVec m} (acc : w &&& mask = pattern)
    (fits : m ≤ hi) (fixed : slice mask (hi - m) m = BitVec.allOnes m) (value : slice pattern (hi - m) m = v) :
    slice w hi n ++ v = slice w (hi - m) (n + m) := by
  rw [← slice_eq_of_masked acc fixed value]
  exact BitVec.extractLsb'_append_extractLsb'_eq_extractLsb' (Nat.sub_add_cancel fits).symm

/-- Fixed bits at the top are the top field of a word that matches. -/
theorem fixed_append {k n m : Nat} {w mask pattern : BitVec k} {v : BitVec m} (acc : w &&& mask = pattern)
    (fixed : slice mask (k - m) m = BitVec.allOnes m) (value : slice pattern (k - m) m = v) (x : BitVec n) :
    v ++ x = slice w (k - m) m ++ x := by
  rw [slice_eq_of_masked acc fixed value]

theorem getLsbD_append_of_le {n m k : Nat} (x : BitVec n) (y : BitVec m) (h : m ≤ k) :
    (x ++ y).getLsbD k = x.getLsbD (k - m) := by
  rw [BitVec.getLsbD_append, if_neg (Nat.not_lt.2 h)]

/-- The bit S is read back (R94). -/
theorem getLsbD_append_sBit {n : Nat} (x : BitVec n) (s : Bool) : (x ++ sBit s).getLsbD 0 = s := by
  rw [BitVec.getLsbD_append]
  simp [sBit]

/-- The bit S of a word is its field of one bit (R94). -/
theorem sBit_getLsbD {k : Nat} (w : BitVec k) (lo : Nat) : sBit (w.getLsbD lo) = slice w lo 1 := by
  apply BitVec.eq_of_getLsbD_eq
  intro i hi
  obtain rfl : i = 0 := by omega
  simp [sBit]

/-! ### The row of an encoding -/

/-- Every encoding is accepted by the row of its instruction. -/
theorem encodedRow_all : ∀ i : Instr, Laws.EncodedRow.Statement i
  | .bx c rm => Laws.EncodedRow.bx c rm
  | .mrs c r rd => Laws.EncodedRow.mrs c r rd
  | .msrReg c r fmask rm => Laws.EncodedRow.msrReg c r fmask rm
  | .msrImm c r fmask rot imm8 => Laws.EncodedRow.msrImm c r fmask rot imm8
  | .ldrh c u rn rd immH immL => Laws.EncodedRow.ldrh c u rn rd immH immL
  | .strh c u rn rd immH immL => Laws.EncodedRow.strh c u rn rd immH immL
  | .subImm c s rn rd rot imm8 => Laws.EncodedRow.subImm c s rn rd rot imm8
  | .subReg c s rn rd rm => Laws.EncodedRow.subReg c s rn rd rm
  | .movImm c s rd rot imm8 => Laws.EncodedRow.movImm c s rd rot imm8
  | .movReg c s rd rm => Laws.EncodedRow.movReg c s rd rm
  | .cmpImm c rn rot imm8 => Laws.EncodedRow.cmpImm c rn rot imm8
  | .cmpReg c rn rm => Laws.EncodedRow.cmpReg c rn rm
  | .cmnImm c rn rot imm8 => Laws.EncodedRow.cmnImm c rn rot imm8
  | .cmnReg c rn rm => Laws.EncodedRow.cmnReg c rn rm
  | .ldr c u rn rd imm12 => Laws.EncodedRow.ldr c u rn rd imm12
  | .str c u rn rd imm12 => Laws.EncodedRow.str c u rn rd imm12
  | .ldrb c u rn rd imm12 => Laws.EncodedRow.ldrb c u rn rd imm12
  | .strb c u rn rd imm12 => Laws.EncodedRow.strb c u rn rd imm12
  | .und c high low => Laws.EncodedRow.und c high low
  | .b c imm24 => Laws.EncodedRow.b c imm24
  | .bl c imm24 => Laws.EncodedRow.bl c imm24
  | .swi c comment => Laws.EncodedRow.swi c comment
  | .tSwi value8 => Laws.EncodedRow.tSwi value8
  | .tBcond c soff8 => Laws.EncodedRow.tBcond c soff8
  | .tBx rm => Laws.EncodedRow.tBx rm
  | .tB off11 => Laws.EncodedRow.tB off11
  | .tBlPrefix off11 => Laws.EncodedRow.tBlPrefix off11
  | .tBlSuffix off11 => Laws.EncodedRow.tBlSuffix off11

theorem armRow_of_encode {i : Instr} {w : Word} (h : encode i = .arm w) :
    ∃ r ∈ armTable, i.armForm = some r.form ∧ r.accepts w = true := by
  simpa only [Laws.EncodedRow.Statement, h] using encodedRow_all i

theorem thumbRow_of_encode {i : Instr} {h : Half} (he : encode i = .thumb h) :
    ∃ r ∈ thumbTable, i.thumbForm = some r.form ∧ r.accepts h = true := by
  simpa only [Laws.EncodedRow.Statement, he] using encodedRow_all i

/-! ### ARM state -/

theorem armTable_clashes : armTable.Pairwise Row.Clashes := by decide

theorem armTable_find? {r : Row 32 ArmForm} {w : Word} (hr : r ∈ armTable) (acc : r.accepts w = true) :
    armTable.find? (·.accepts w) = some r :=
  find?_accepts hr acc acc (armTable_clashes.imp fun clash e => e ▸ clash)

theorem decodeArm_of_accepts {r : Row 32 ArmForm} {w : Word} {c : Cond} (hr : r ∈ armTable)
    (acc : r.accepts w = true) (hc : slice w 28 4 = c.toBits) : decodeArm w = .ok (armFields r.form c w) := by
  rw [decodeArm, hc, Cond.ofBits_toBits, armTable_find? hr acc]

/-- What decodes in ARM state has a condition and a row, and its fields are read by that row (R94, R100). -/
theorem decodeArm_ok {w : Word} {i : Instr} (h : decodeArm w = .ok i) :
    ∃ c, slice w 28 4 = c.toBits ∧ ∃ r ∈ armTable, r.accepts w = true ∧ i = armFields r.form c w := by
  unfold decodeArm at h
  split at h
  · cases h
  · next c hc =>
    split at h
    · next r hr =>
      injection h with h
      obtain ⟨mem, acc⟩ := accepts_of_find? hr
      exact ⟨c, (Cond.toBits_of_ofBits hc).symm, r, mem, acc, h.symm⟩
    · cases h

theorem armCond_of_armForm {i : Instr} {f : ArmForm} (h : i.armForm = some f) : ∃ c, i.armCond = some c := by
  cases i <;> cases h <;> exact ⟨_, rfl⟩

theorem armCond_armFields (f : ArmForm) (c : Cond) (w : Word) : (armFields f c w).armCond = some c := by
  cases f <;> rfl

theorem wellFormed_of_armCond {i : Instr} {c : Cond} (h : i.armCond = some c) : i.wellFormed = true := by
  cases i <;> cases h <;> rfl

/-- Each field of an ARM instruction stands at its own place in the encoding: what follows it is dropped, what goes
before it is cut off (R94). -/
theorem armFields_of_encode {i : Instr} {w : Word} {f : ArmForm} {c : Cond} (h : encode i = .arm w)
    (hf : i.armForm = some f) (hc : i.armCond = some c) : slice w 28 4 = c.toBits ∧ armFields f c w = i := by
  cases i <;> cases h <;> cases hf <;> cases hc <;>
    simp only [armFields, slice, BitVec.extractLsb'_append_eq_of_le, BitVec.extractLsb'_append_eq_right,
      BitVec.extractLsb'_eq_self, getLsbD_append_of_le, getLsbD_append_sBit, Nat.reduceLeDiff, Nat.reduceSub,
      RegNum.ofBits_toBits, PsrSel.ofBits_toBits, Dir.ofBits_toBits, and_self]

theorem decodeArm_of_encode {i : Instr} {w : Word} (h : encode i = .arm w) : decodeArm w = .ok i := by
  obtain ⟨r, hr, hf, acc⟩ := armRow_of_encode h
  obtain ⟨c, hc⟩ := armCond_of_armForm hf
  obtain ⟨cond, fields⟩ := armFields_of_encode h hf hc
  rw [decodeArm_of_accepts hr acc cond, fields]

/-- The fields of a word and the fixed bits of its row, put together from the top, are the word (R94): `decide` checks
for each fixed part that the row's mask covers it and the row's pattern holds it. -/
theorem encode_armFields {r : Row 32 ArmForm} {w : Word} {c : Cond} (hr : r ∈ armTable) (acc : r.accepts w = true)
    (hc : slice w 28 4 = c.toBits) : encode (armFields r.form c w) = .arm w := by
  rw [Row.accepts_iff] at acc
  fin_cases hr <;> dsimp only at acc <;>
    simp (disch := decide) only [encode, armFields, ← hc, RegNum.toBits_ofBits, PsrSel.toBits_ofBits,
      Dir.toBits_ofBits, sBit_getLsbD, slice_append_fixed acc, BitVec.extractLsb'_append_extractLsb'_eq_extractLsb',
      Nat.reduceSub, BitVec.extractLsb'_eq_self]

/-! ### Thumb state -/

/-- Only the row of B<cond> shares words with rows before it: those of SWI and of the refused condition (R101). -/
theorem thumbTable_clashes : thumbTable.Pairwise fun q r => r.form ≠ .bcond → q.Clashes r := by decide

theorem decodeThumb_of_accepts {r : Row 16 ThumbForm} {h : Half} (hr : r ∈ thumbTable) (hf : r.form ≠ .bcond)
    (acc : r.accepts h = true) : decodeThumb h = thumbFields r.form h := by
  have before : thumbTable.Pairwise fun q q' => q' = r → q.Clashes r := by
    refine thumbTable_clashes.imp fun {q q'} clash e => ?_
    subst e
    exact clash hf
  rw [decodeThumb, find?_accepts hr acc acc before]

/-- The row of B<cond> with its condition written out. -/
def thumbCondRow (c : Cond) : Row 16 ThumbForm :=
  ⟨0xFF00, 0b1101#4 ++ c.toBits ++ 0#8, .bcond⟩

theorem thumbCondRow_accepts (c : Cond) (soff8 : BitVec 8) :
    (thumbCondRow c).accepts (0b1101#4 ++ c.toBits ++ soff8) = true := by
  have mask : (0xFF00 : Half) = BitVec.allOnes 4 ++ BitVec.allOnes 4 ++ 0#8 := rfl
  rw [Row.accepts_iff, thumbCondRow, mask, BitVec.and_append, BitVec.and_append, BitVec.and_allOnes,
    BitVec.and_allOnes, BitVec.and_zero]

/-- With a condition but AL, the rows before that of B<cond> accept no halfword with this condition. -/
theorem thumbCondRow_clashes {c : Cond} (hc : c.inThumbBranch = true) :
    thumbTable.Pairwise fun q r => r.form = .bcond → q.Clashes (thumbCondRow c) := by
  cases c with
  | al => cases hc
  | _ => decide

theorem decodeThumb_bcond_al (soff8 : BitVec 8) :
    decodeThumb (0b1101#4 ++ Cond.al.toBits ++ soff8) = .reject .thumbCond1110 :=
  decodeThumb_of_accepts (r := ⟨0xFF00, 0xDE00, .cond1110⟩) (by decide) (by decide) (thumbCondRow_accepts .al soff8)

theorem thumbFields_of_encode {i : Instr} {h : Half} {f : ThumbForm} (he : encode i = .thumb h)
    (hf : i.thumbForm = some f) : thumbFields f h = .ok i := by
  cases i <;> cases he <;> cases hf <;>
    simp only [thumbFields, slice, BitVec.extractLsb'_append_eq_of_le, BitVec.extractLsb'_append_eq_right,
      Nat.reduceLeDiff, Nat.reduceSub, RegNum.ofBits_toBits, Cond.ofBits_toBits]

theorem decodeThumb_bcond {c : Cond} (hc : c.inThumbBranch = true) (soff8 : BitVec 8) :
    decodeThumb (0b1101#4 ++ c.toBits ++ soff8) = .ok (.tBcond c soff8) := by
  obtain ⟨r, hr, hf, acc⟩ := thumbRow_of_encode (i := .tBcond c soff8) rfl
  have before : thumbTable.Pairwise fun q q' => q' = r → q.Clashes (thumbCondRow c) := by
    refine (thumbCondRow_clashes hc).imp fun {q q'} clash e => ?_
    subst e
    exact clash (Option.some.inj hf).symm
  rw [decodeThumb, find?_accepts hr acc (thumbCondRow_accepts c soff8) before]
  exact thumbFields_of_encode rfl hf

/-- An encoded Thumb instruction decodes to itself, but B<cond> with AL is the refused row (R101, R103). -/
theorem decodeThumb_of_encode {i : Instr} {h : Half} (he : encode i = .thumb h) :
    decodeThumb h = if i.wellFormed then .ok i else .reject .thumbCond1110 := by
  cases i with
  | tBcond c soff8 =>
    cases he
    split
    · next hc => exact decodeThumb_bcond hc soff8
    · next hc =>
      obtain rfl : c = .al := by simpa [Instr.wellFormed, Cond.inThumbBranch] using hc
      exact decodeThumb_bcond_al soff8
  | tSwi _ | tBx _ | tB _ | tBlPrefix _ | tBlSuffix _ =>
    obtain ⟨r, hr, hf, acc⟩ := thumbRow_of_encode he
    have other : r.form ≠ .bcond := fun e => by
      rw [e] at hf
      cases hf
    rw [decodeThumb_of_accepts hr other acc, thumbFields_of_encode he hf]
    rfl
  | _ => cases he

/-- What decodes in Thumb state has a row, and its fields are read by that row (R98, R101). -/
theorem decodeThumb_ok {h : Half} {i : Instr} (hd : decodeThumb h = .ok i) :
    ∃ r ∈ thumbTable, r.accepts h = true ∧ thumbFields r.form h = .ok i := by
  unfold decodeThumb at hd
  split at hd
  · next r hr =>
    obtain ⟨mem, acc⟩ := accepts_of_find? hr
    exact ⟨r, mem, acc, hd⟩
  · cases hd

theorem thumbFields_bcond_ok {h : Half} {i : Instr} (hi : thumbFields .bcond h = .ok i) :
    ∃ c, slice h 8 4 = c.toBits ∧ i = .tBcond c (slice h 0 8) := by
  unfold thumbFields at hi
  dsimp only at hi
  split at hi
  · next c hc =>
    injection hi with hi
    exact ⟨c, (Cond.toBits_of_ofBits hc).symm, hi.symm⟩
  · cases hi

/-- The fields of a halfword and the fixed bits of its row, put together from the top, are the halfword (R98). -/
theorem encode_of_thumbFields {r : Row 16 ThumbForm} {h : Half} {i : Instr} (hr : r ∈ thumbTable)
    (acc : r.accepts h = true) (hi : thumbFields r.form h = .ok i) : encode i = .thumb h := by
  rw [Row.accepts_iff] at acc
  fin_cases hr <;> dsimp only at acc hi
  on_goal 3 => -- B<cond>, whose condition has to be read
    obtain ⟨c, hc, rfl⟩ := thumbFields_bcond_ok hi
    simp (disch := decide) only [encode, ← hc, fixed_append acc,
      BitVec.extractLsb'_append_extractLsb'_eq_extractLsb', Nat.reduceSub, BitVec.extractLsb'_eq_self]
  all_goals cases hi
  all_goals
    simp (disch := decide) only [encode, fixed_append acc, slice_append_fixed acc, RegNum.toBits_ofBits,
      BitVec.extractLsb'_append_extractLsb'_eq_extractLsb', Nat.reduceSub, BitVec.extractLsb'_eq_self]

/-! ### The condition of an ARM instruction (R91 to R93) -/

theorem decodeArm_of_condNV {w : Word} (h : slice w 28 4 = 0b1111#4) : decodeArm w = .reject .condNV := by
  rw [decodeArm, h]
  rfl

namespace Machine

/-- An ARM instruction is its condition and what it does under it. -/
theorem exec_eq_conditional {i : Instr} {c : Cond} (h : i.armCond = some c) (s : State) :
    ∃ run, exec i s = conditional c s run := by
  cases i <;> cases h <;> exact ⟨_, rfl⟩

theorem exec_of_condFailed {i : Instr} {c : Cond} {s : State} (h : i.armCond = some c)
    (failed : condPassed c s.cpsr = false) : exec i s = advance 4 s := by
  obtain ⟨run, hrun⟩ := exec_eq_conditional h s
  rw [hrun, conditional_of_failed failed]

/-! ### The statements -/

/-- Settles O1: an encoding is accepted by its own row, which the table finds, and the fields are read back. -/
theorem decodeOfEncodeIsTheInstruction : Obligations.DecodeOfEncodeIsTheInstruction := by
  unfold Obligations.DecodeOfEncodeIsTheInstruction
  intro i wf
  cases he : encode i with
  | arm w => exact decodeArm_of_encode he
  | thumb h => exact (decodeThumb_of_encode he).trans (if_pos wf)

/-- Settles O2: the fields and the fixed bits of the row found are the whole word. A halfword that encodes B<cond> with
AL would have been refused. -/
theorem encodeOfDecodeIsTheWord : Obligations.EncodeOfDecodeIsTheWord := by
  unfold Obligations.EncodeOfDecodeIsTheWord
  refine ⟨fun w i hd => ?_, fun h i hd => ?_⟩
  · obtain ⟨c, hc, r, hr, acc, rfl⟩ := decodeArm_ok hd
    exact ⟨encode_armFields hr acc hc, wellFormed_of_armCond (armCond_armFields r.form c w)⟩
  · obtain ⟨r, hr, acc, hi⟩ := decodeThumb_ok hd
    have he := encode_of_thumbFields hr acc hi
    refine ⟨he, by_contra fun ill => ?_⟩
    rw [decodeThumb_of_encode he, if_neg ill] at hd
    cases hd

/-- Settles O3: the table finds each row that accepts the word. -/
theorem armRowsArePairwiseDisjoint : Obligations.ArmRowsArePairwiseDisjoint := by
  unfold Obligations.ArmRowsArePairwiseDisjoint
  intro w r q hr hq accR accQ
  exact Option.some.inj ((armTable_find? hr accR).symm.trans (armTable_find? hq accQ))

/-- Settles O4: the table of R92 row by row; the condition of a decoded word is read from bits 31:28. -/
theorem conditionCodesTestTheFlags : Obligations.ConditionCodesTestTheFlags := by
  unfold Obligations.ConditionCodesTestTheFlags
  refine ⟨fun p => ?_, rfl, ?_, fun w => decodeArm_of_condNV⟩
  · simp [condPassed]
  · intro w i c h hc
    obtain ⟨c', cond, r, -, -, rfl⟩ := decodeArm_ok h
    rw [armCond_armFields] at hc
    cases hc
    exact cond

/-- Settles O5: each word is decoded. -/
theorem specWordsDecode : Obligations.SpecWordsDecode := by
  unfold Obligations.SpecWordsDecode
  decide

/-- Settles O20: under a failed condition every ARM instruction is the advance by four bytes. -/
theorem failedConditionOnlyAdvances : Obligations.FailedConditionOnlyAdvances := by
  unfold Obligations.FailedConditionOnlyAdvances
  intro i c s h failed
  rw [exec_of_condFailed h failed]
  exact ⟨advance_of_fits, fun wraps => advance_of_wraps (Nat.not_lt.2 wraps)⟩

end Machine
end Sys2Proof
end

section
/-! Branch and exchange (R120 to R128): the target of each form as an integer modulo 2^32, what a branch that links
leaves behind, and what BX makes of its operand. -/

namespace Sys2Proof.Machine

/-! ### Frames of a branch -/

theorem OthersKept.trans {l : List PhysReg} {s t u : State} (h : OthersKept l s t) (h' : OthersKept l t u) :
    OthersKept l s u where
  regs p hp := (h'.regs p hp).trans (h.regs p hp)
  spsr := h'.spsr.trans h.spsr
  memory := ⟨fun a => (h'.memory.1 a).trans (h.memory.1 a), h'.memory.2.trans h.memory.2⟩
  platform := by
    obtain ⟨bigend, windows, text⟩ := h.platform
    obtain ⟨bigend', windows', text'⟩ := h'.platform
    exact ⟨bigend'.trans bigend, windows'.trans windows, text'.trans text⟩
  inputs := ⟨h'.inputs.1.trans h.inputs.1, h'.inputs.2.trans h.inputs.2⟩
  draws := h'.draws.trans h.draws

theorem othersKept_setCpsr_setPc (s : State) (q : Psr) (v : Word) : OthersKept [] s ((s.setCpsr q).setPc v) where
  regs _ _ := rfl
  spsr := rfl
  memory := ⟨fun _ => rfl, rfl⟩
  platform := ⟨rfl, rfl, rfl⟩
  inputs := ⟨rfl, rfl⟩
  draws := rfl

theorem othersKept_setPhys_setPc (s : State) (p : PhysReg) (w v : Word) :
    OthersKept [p] s ((s.setPhys p w).setPc v) where
  regs _ hq := State.getPhys_setPhys_other s p _ w (List.mem_singleton.not.1 hq)
  spsr := rfl
  memory := ⟨fun _ => rfl, rfl⟩
  platform := ⟨rfl, rfl, rfl⟩
  inputs := ⟨rfl, rfl⟩
  draws := rfl

/-! ### Targets (R96, R99) -/

/-- An offset from the operand pc, in integers modulo 2^32. -/
theorem toNat_pcRelative (pc : Word) (ahead : Nat) (offset : Word) :
    ((pc + BitVec.ofNat 32 ahead + offset).toNat : Int) = ((pc.toNat : Int) + ahead + offset.toInt) % 2 ^ 32 := by
  rw [toNat_add_toInt, BitVec.toNat_add, BitVec.toNat_ofNat]
  omega

theorem armBranchOffset_toInt (imm24 : BitVec 24) : (armBranchOffset imm24).toInt = 4 * imm24.toInt :=
  (toInt_signExtend_append_zeros 2 imm24 (by decide)).trans (mul_comm _ _)

/-- The target of B and BL in ARM state, an integer modulo 2^32 (R122). -/
theorem toNat_armTarget (pc : Word) (imm24 : BitVec 24) :
    ((pc + 8 + armBranchOffset imm24).toNat : Int) = ((pc.toNat : Int) + 8 + 4 * imm24.toInt) % 2 ^ 32 :=
  armBranchOffset_toInt imm24 ▸ toNat_pcRelative pc 8 (armBranchOffset imm24)

theorem armTarget_aligned {pc : Word} (aligned : pc.toNat % 4 = 0) (imm24 : BitVec 24) :
    (pc + 8 + armBranchOffset imm24).toNat % 4 = 0 := by
  have target := toNat_armTarget pc imm24
  omega

theorem thumbCondOffset_toInt (soff8 : BitVec 8) : (thumbCondOffset soff8).toInt = 2 * soff8.toInt :=
  (toInt_signExtend_append_zeros 1 soff8 (by decide)).trans (mul_comm _ _)

theorem thumbBranchOffset_toInt (off11 : BitVec 11) : (thumbBranchOffset off11).toInt = 2 * off11.toInt :=
  (toInt_signExtend_append_zeros 1 off11 (by decide)).trans (mul_comm _ _)

/-- The 23 bits of the shifted offset fit a word, so the shift multiplies. -/
theorem blHighOffset_toInt (off11 : BitVec 11) : (blHighOffset off11).toInt = 4096 * off11.toInt := by
  have low : -2 ^ 10 ≤ off11.toInt := BitVec.le_toInt off11
  have high : off11.toInt < 2 ^ 10 := BitVec.toInt_lt
  have shift : (BitVec.twoPow 32 12).toInt = 4096 := by decide
  rw [blHighOffset, BitVec.shiftLeft_eq_mul_twoPow, BitVec.toInt_mul, BitVec.toInt_signExtend_of_le (by decide), shift,
    mul_comm]
  exact Int.bmod_eq_of_le (by omega) (by omega)

theorem blLowOffset_toNat (off11 : BitVec 11) : (blLowOffset off11).toNat = 2 * off11.toNat := by
  have below := off11.isLt
  rw [blLowOffset, BitVec.toNat_shiftLeft, BitVec.toNat_setWidth, Nat.shiftLeft_eq]
  omega

theorem toNat_or_one {w : Word} (even : w.toNat % 2 = 0) : (w ||| 1).toNat = w.toNat + 1 := by
  obtain ⟨k, hk⟩ := Nat.dvd_of_mod_eq_zero even
  have setBit : w.toNat + 1 = w.toNat ||| 1 := hk ▸ Nat.two_pow_add_eq_or_of_lt (i := 1) (by decide) k
  rw [setBit]
  rfl

/-! ### Branches without a link -/

theorem exec_b_of_passed {c : Cond} {s : State} (imm24 : BitVec 24) (passed : condPassed c s.cpsr = true) :
    exec (.b c imm24) s = branchTo (s.pc + 8 + armBranchOffset imm24) s :=
  conditional_of_passed passed

theorem exec_tBcond_of_passed {c : Cond} {s : State} (soff8 : BitVec 8) (passed : condPassed c s.cpsr = true) :
    exec (.tBcond c soff8) s = branchTo (s.pc + 4 + thumbCondOffset soff8) s :=
  if_pos passed

theorem exec_tBcond_of_failed {c : Cond} {s : State} (soff8 : BitVec 8) (failed : condPassed c s.cpsr = false) :
    exec (.tBcond c soff8) s = advance 2 s :=
  if_neg (by simp [failed])

/-- A signed halfword offset from pc + 4 (R124, R125). -/
theorem branchTo_thumb {s : State} {offset : Word} {k : Int} (thumb : s.cpsr.t = true) (even : s.pc.toNat % 2 = 0)
    (halfwords : offset.toInt = 2 * k) :
    ∃ t, branchTo (s.pc + 4 + offset) s = .next t ∧ t = { s with pc := t.pc }
      ∧ (t.pc.toNat : Int) = ((s.pc.toNat : Int) + 4 + 2 * k) % 2 ^ 32 := by
  have target : ((s.pc + 4 + offset).toNat : Int) = ((s.pc.toNat : Int) + 4 + 2 * k) % 2 ^ 32 :=
    halfwords ▸ toNat_pcRelative s.pc 4 offset
  have aligned : pcAligned s.cpsr.t (s.pc + 4 + offset) = true := by
    rw [thumb, pcAligned_thumb]
    omega
  exact ⟨s.setPc _, branchTo_of_aligned aligned, rfl, target⟩

/-! ### Branches that link -/

theorem exec_bl_of_passed {c : Cond} {s : State} (imm24 : BitVec 24) (passed : condPassed c s.cpsr = true) :
    exec (.bl c imm24) s = branchTo (s.pc + 8 + armBranchOffset imm24) (s.writeReg .r14 (s.pc + 4)) :=
  conditional_of_passed passed

theorem State.readReg_r14_writeLink (s : State) (w v : Word) : ((s.writeReg .r14 w).setPc v).readReg .r14 = w :=
  State.getPhys_setPhys_same s (linkReg s.mode) w

/-- A branch with the link written before it: the target is judged by the T in force, the link stays (R123, R127). -/
theorem branchTo_writeLink {v w : Word} {s : State} (aligned : pcAligned s.cpsr.t v = true) :
    ∃ t, branchTo v (s.writeReg .r14 w) = .next t ∧ t.pc = v
      ∧ t.readReg .r14 = w ∧ t.cpsr = s.cpsr ∧ OthersKept [linkReg s.mode] s t :=
  ⟨_, branchTo_of_aligned aligned, rfl, s.readReg_r14_writeLink w v, rfl, othersKept_setPhys_setPc s _ w v⟩

theorem branchTo_writeLink_next {v w : Word} {s t : State} (h : branchTo v (s.writeReg .r14 w) = .next t) :
    t.readReg .r14 = w ∧ t.cpsr = s.cpsr := by
  obtain ⟨-, rfl⟩ := branchTo_next h
  exact ⟨s.readReg_r14_writeLink w v, rfl⟩

/-! ### Exchange (R120, R121) -/

theorem getLsbD_zero_eq_odd (v : Word) : v.getLsbD 0 = decide (v.toNat % 2 = 1) :=
  Nat.testBit_zero v.toNat

/-- The target of an exchange is its operand with bit 0 cleared. -/
theorem toNat_exchangeTarget (v : Word) : (slice v 1 31 ++ 0#1).toNat = v.toNat - v.toNat % 2 := by
  have below := v.isLt
  rw [BitVec.toNat_append, BitVec.extractLsb'_toNat, BitVec.toNat_ofNat, Nat.shiftLeft_eq, Nat.shiftRight_eq_div_pow,
    Nat.zero_mod, Nat.or_zero]
  omega

/-- The target suits the new T but for an ARM target that is only halfword-aligned. -/
theorem pcAligned_exchangeTarget (v : Word) :
    pcAligned (v.getLsbD 0) (slice v 1 31 ++ 0#1) = true ↔ v.toNat % 4 ≠ 2 := by
  rw [getLsbD_zero_eq_odd]
  by_cases odd : v.toNat % 2 = 1
  · rw [decide_eq_true odd, pcAligned_thumb, toNat_exchangeTarget]
    omega
  · rw [decide_eq_false odd, pcAligned_arm, toNat_exchangeTarget]
    omega

theorem exchangeTo_of_misaligned {v : Word} {s : State} (h : v.toNat % 4 = 2) :
    exchangeTo v s = .refused .misalignedBranchTarget :=
  branchTo_of_misaligned (Bool.not_eq_true _ ▸ fun ok => (pcAligned_exchangeTarget v).1 ok h)

theorem exchangeTo_of_aligned {v : Word} {s : State} (h : v.toNat % 4 ≠ 2) :
    exchangeTo v s = .next ((s.setCpsr { s.cpsr with t := v.getLsbD 0 }).setPc (slice v 1 31 ++ 0#1)) :=
  branchTo_of_aligned ((pcAligned_exchangeTarget v).2 h)

/-- What an exchange writes and leaves unchanged, in either state. -/
theorem exchangeTo_setsThumbAndPc {v : Word} {s : State} (h : v.toNat % 4 ≠ 2) :
    ∃ t, exchangeTo v s = .next t
      ∧ t.cpsr.t = decide (v.toNat % 2 = 1)
      ∧ t.pc.toNat = v.toNat - v.toNat % 2
      ∧ FlagsKept s t ∧ t.cpsr.i = s.cpsr.i ∧ t.cpsr.f = s.cpsr.f ∧ t.cpsr.m = s.cpsr.m
      ∧ OthersKept [] s t :=
  ⟨_, exchangeTo_of_aligned h, getLsbD_zero_eq_odd v, toNat_exchangeTarget v, ⟨rfl, rfl, rfl, rfl⟩, rfl, rfl, rfl,
    othersKept_setCpsr_setPc s _ _⟩

/-- A return to a Thumb link: the state stays Thumb, and the pc is the link without its bit 0. -/
theorem exchangeTo_thumbLink {w : Word} {s : State} (thumb : s.cpsr.t = true) (even : w.toNat % 2 = 0) :
    exchangeTo (w ||| 1) s = .next { s with pc := w } := by
  have link := toNat_or_one even
  have odd : (w ||| 1).getLsbD 0 = true := by
    rw [getLsbD_zero_eq_odd, decide_eq_true_iff]
    omega
  have target : slice (w ||| 1) 1 31 ++ 0#1 = w := by
    apply BitVec.eq_of_toNat_eq
    rw [toNat_exchangeTarget]
    omega
  rw [exchangeTo_of_aligned (by omega), target, odd, ← thumb]
  rfl

/-! ### The statements -/

/-- Settles O21: Rm = 15 is refused before anything is read, the rest is the exchange. -/
theorem bxInArmStateSetsThumbAndPc : Obligations.BxInArmStateSetsThumbAndPc := by
  unfold Obligations.BxInArmStateSetsThumbAndPc
  intro c rm s passed
  have bx : exec (.bx c rm) s = if rm = .r15 then .refused .bxPc else exchangeTo (s.readReg rm) s :=
    conditional_of_passed passed
  refine ⟨fun pc => bx.trans (if_pos pc), fun other halfword => ?_, fun other aligned => ?_⟩
  · rw [bx, if_neg other, exchangeTo_of_misaligned halfword]
  · rw [bx, if_neg other]
    exact exchangeTo_setsThumbAndPc aligned

/-- Settles O22: in Thumb state BX is the exchange, whatever the register number. -/
theorem bxInThumbStateSetsThumbAndPc : Obligations.BxInThumbStateSetsThumbAndPc := by
  unfold Obligations.BxInThumbStateSetsThumbAndPc
  intro rm s thumb
  exact ⟨fun pc => pc ▸ if_pos thumb, exchangeTo_of_misaligned, exchangeTo_setsThumbAndPc⟩

/-- Settles O23: the target is word-aligned with the pc, so the branch is not refused. -/
theorem armBranchAddsItsOffset : Obligations.ArmBranchAddsItsOffset := by
  unfold Obligations.ArmBranchAddsItsOffset
  intro c imm24 s passed arm aligned
  have aligned' := armTarget_aligned aligned imm24
  have branched := branchTo_of_aligned (s := s) (by rwa [arm, pcAligned_arm])
  exact ⟨_, (exec_b_of_passed imm24 passed).trans branched, rfl, aligned', toNat_armTarget s.pc imm24⟩

/-- Settles O24: the target is that of B, and the link is written before the branch. -/
theorem armBranchWithLinkWritesR14 : Obligations.ArmBranchWithLinkWritesR14 := by
  unfold Obligations.ArmBranchWithLinkWritesR14
  intro c imm24 s passed arm aligned
  have ok : pcAligned s.cpsr.t (s.pc + 8 + armBranchOffset imm24) = true := by
    rw [arm, pcAligned_arm]
    exact armTarget_aligned aligned imm24
  obtain ⟨t, branched, pc, link, cpsr, kept⟩ := branchTo_writeLink (w := s.pc + 4) ok
  exact ⟨t, (exec_bl_of_passed imm24 passed).trans branched, link, cpsr, kept, pc ▸ toNat_armTarget s.pc imm24⟩

/-- Settles O25: a condition that fails is the advance by two bytes. -/
theorem thumbBranchesAddTheirOffsets : Obligations.ThumbBranchesAddTheirOffsets := by
  unfold Obligations.ThumbBranchesAddTheirOffsets
  refine ⟨fun c soff8 s thumb even => ⟨fun passed => ?_, fun failed fits => ?_, fun failed wraps => ?_⟩, ?_⟩
  · rw [exec_tBcond_of_passed soff8 passed]
    exact branchTo_thumb thumb even (thumbCondOffset_toInt soff8)
  · exact (exec_tBcond_of_failed soff8 failed).trans (advance_of_fits fits)
  · exact (exec_tBcond_of_failed soff8 failed).trans (advance_of_wraps (Nat.not_lt.2 wraps))
  · exact fun off11 s thumb even => branchTo_thumb thumb even (thumbBranchOffset_toInt off11)

/-- Settles O26: the first halfword is a write of R14 and the advance by two bytes. -/
theorem thumbBlPrefixWritesR14 : Obligations.ThumbBlPrefixWritesR14 := by
  unfold Obligations.ThumbBlPrefixWritesR14
  intro off11 s
  refine ⟨fun fits => ?_, fun wraps => advance_of_wraps (Nat.not_lt.2 wraps)⟩
  refine ⟨_, advance_of_fits fits, rfl, rfl, othersKept_setPhys_setPc s _ _ _, ?_⟩
  rw [State.readReg_r14_writeLink, ← blHighOffset_toInt]
  exact toNat_pcRelative s.pc 4 (blHighOffset off11)

/-- Settles O27: the offset is even, so the target is aligned exactly when R14 is even. -/
theorem thumbBlSuffixBranchesAndLinks : Obligations.ThumbBlSuffixBranchesAndLinks := by
  unfold Obligations.ThumbBlSuffixBranchesAndLinks
  intro off11 s thumb even
  have target : (s.readReg .r14 + blLowOffset off11).toNat = ((s.readReg .r14).toNat + 2 * off11.toNat) % 2 ^ 32 := by
    rw [BitVec.toNat_add, blLowOffset_toNat]
  have aligned : pcAligned s.cpsr.t (s.readReg .r14 + blLowOffset off11) = true ↔ (s.readReg .r14).toNat % 2 = 0 := by
    rw [thumb, pcAligned_thumb, target]
    omega
  refine ⟨fun evenLink => ?_, fun oddLink => ?_⟩
  · have nextPc : (s.pc + 2).toNat = (s.pc.toNat + 2) % 2 ^ 32 := BitVec.toNat_add s.pc 2
    obtain ⟨t, branched, pc, link, cpsr, kept⟩ := branchTo_writeLink (w := s.pc + 2 ||| 1) (aligned.2 evenLink)
    refine ⟨t, branched, pc ▸ target, cpsr, kept, ?_⟩
    rw [link, toNat_or_one (by omega), nextPc]
  · refine branchTo_of_misaligned (Bool.not_eq_true _ ▸ fun ok => ?_)
    have evenLink := aligned.1 ok
    omega

/-- Settles O28: the first halfword leaves an even R14 and the pc two bytes on, from which the second one branches
and links. -/
theorem thumbBlPairCalls : Obligations.ThumbBlPairCalls := by
  unfold Obligations.ThumbBlPairCalls
  intro hi lo s thumb even fits
  obtain ⟨t, prefixed, tpc, tcpsr, tkept, high⟩ := (thumbBlPrefixWritesR14 hi s).1 fits
  have evenHigh : (t.readReg .r14).toNat % 2 = 0 := by omega
  have pc : t.pc.toNat = (s.pc.toNat + 2) % 2 ^ 32 := tpc ▸ BitVec.toNat_add s.pc 2
  obtain ⟨suffixed, -⟩ := thumbBlSuffixBranchesAndLinks lo t (tcpsr ▸ thumb) (by omega)
  obtain ⟨u, branched, upc, ucpsr, ukept, link⟩ := suffixed evenHigh
  rw [State.mode_of_cpsr tcpsr] at ukept
  have offset : (hi ++ lo).toInt = 2048 * hi.toInt + lo.toNat := BitVec.toInt_append
  refine ⟨t, u, prefixed, branched, ?_, ?_, ucpsr.trans tcpsr, tkept.trans ukept⟩
  · omega
  · rw [link, pc]
    omega

/-- Settles O29: R14 still holds the return point, and MOV and BX give it back to the pc. -/
theorem subroutineReturnsToTheLink : Obligations.SubroutineReturnsToTheLink := by
  unfold Obligations.SubroutineReturnsToTheLink
  refine ⟨fun imm24 s t arm aligned called => ?_, fun off11 s t thumb even called => ?_⟩
  · obtain ⟨link, cpsr⟩ := branchTo_writeLink_next ((exec_bl_of_passed imm24 rfl).symm.trans called)
    have nextPc : (s.pc + 4).toNat = (s.pc.toNat + 4) % 2 ^ 32 := BitVec.toNat_add s.pc 4
    have returned : pcAligned t.cpsr.t (s.pc + 4) = true := by
      rw [cpsr, arm, pcAligned_arm]
      omega
    have mov : exec (.movReg .al false .r15 .r14) t = branchTo (t.readReg .r14) t := rfl
    rw [mov, link]
    exact branchTo_of_aligned returned
  · obtain ⟨link, cpsr⟩ := branchTo_writeLink_next called
    have nextPc : (s.pc + 2).toNat = (s.pc.toNat + 2) % 2 ^ 32 := BitVec.toNat_add s.pc 2
    have bx : exec (.tBx .r14) t = exchangeTo (t.readReg .r14) t := rfl
    rw [bx, link]
    exact exchangeTo_thumbLink (cpsr ▸ thumb) (by omega)

end Sys2Proof.Machine
end

section
/-! Data processing (R136 to R144): the arithmetic flags as facts about integers, what each operand form makes of an
instruction, and what a result or a compare writes and leaves unchanged. -/

namespace Sys2Proof.Machine

/-! ### The arithmetic (R144) -/

/-- V of an addition is the library's signed overflow: the signed sum does not fit. -/
theorem addFlags_v (a b : Word) : (addFlags a b).v = a.saddOverflow b :=
  (BitVec.saddOverflow_eq a b).symm

/-- V of a subtraction is the library's signed overflow: the signed difference does not fit. -/
theorem subFlags_v (a b : Word) : (subFlags a b).v = a.ssubOverflow b := by
  rw [BitVec.ssubOverflow_eq, subFlags]
  cases a.msb <;> cases b.msb <;> cases (a - b).msb <;> rfl

theorem addFlags_v_iff (a b : Word) :
    (addFlags a b).v = true ↔ a.toInt + b.toInt < -2 ^ 31 ∨ 2 ^ 31 ≤ a.toInt + b.toInt := by
  simp [addFlags_v, BitVec.saddOverflow, or_comm]

theorem subFlags_v_iff (a b : Word) :
    (subFlags a b).v = true ↔ a.toInt - b.toInt < -2 ^ 31 ∨ 2 ^ 31 ≤ a.toInt - b.toInt := by
  simp [subFlags_v, BitVec.ssubOverflow, or_comm]

/-- The difference of two words is that of their values, modulo 2^32. -/
theorem toNat_sub_toNat (a b : Word) : ((a - b).toNat : Int) = ((a.toNat : Int) - b.toNat) % 2 ^ 32 := by
  have below := b.isLt
  rw [BitVec.toNat_sub]
  omega

/-! ### The operand forms (R136, R140 to R143) -/

section
variable {i : Instr} {c : Cond} {sBit : Bool} {rn rd : RegNum} {s : State} {b : Word}

theorem exec_of_subForm (h : SubForm i c sBit rn rd s b) (passed : condPassed c s.cpsr = true) :
    exec i s = finishResult sBit rd (subFlags (s.readReg rn) b) s := by
  obtain ⟨rot, imm8, rfl, rfl⟩ | ⟨rm, rfl, rfl⟩ := h <;> exact conditional_of_passed passed

theorem exec_of_movForm {carry : Bool} (h : MovForm i c sBit rd s b carry) (passed : condPassed c s.cpsr = true) :
    exec i s = finishResult sBit rd (moveFlags b carry s.cpsr) s := by
  obtain ⟨rot, imm8, rfl, rfl, rfl⟩ | ⟨rm, rfl, rfl, rfl⟩ := h <;> exact conditional_of_passed passed

theorem exec_of_cmpForm (h : CmpForm i c rn s b) (passed : condPassed c s.cpsr = true) :
    exec i s = finishCompare (subFlags (s.readReg rn) b) s := by
  obtain ⟨rot, imm8, rfl, rfl⟩ | ⟨rm, rfl, rfl⟩ := h <;> exact conditional_of_passed passed

theorem exec_of_cmnForm (h : CmnForm i c rn s b) (passed : condPassed c s.cpsr = true) :
    exec i s = finishCompare (addFlags (s.readReg rn) b) s := by
  obtain ⟨rot, imm8, rfl, rfl⟩ | ⟨rm, rfl, rfl⟩ := h <;> exact conditional_of_passed passed

/-- With destination R15 the result is all that counts: it returns from an exception or branches (R138, R139). -/
theorem exec_of_toPcForm {v : Word} (h : ToPcForm i c sBit s v) (passed : condPassed c s.cpsr = true) :
    exec i s = if sBit then exceptionReturn v s else branchTo v s := by
  obtain ⟨rn, b, sub, rfl⟩ | ⟨carry, mov⟩ := h
  · exact exec_of_subForm sub passed
  · exact exec_of_movForm mov passed

end

/-! ### The result in a register (R137) -/

theorem OthersKept.setCpsr {l : List PhysReg} {s t : State} (h : OthersKept l s t) (q : Psr) :
    OthersKept l s (t.setCpsr q) :=
  ⟨h.regs, h.spsr, h.memory, h.platform, h.inputs, h.draws⟩

/-- A register number reads what its physical register holds, as long as the mode is the same. -/
theorem State.readReg_of_mode {s t : State} {i : RegNum} {p : PhysReg} {w : Word} (h : physReg s.mode i = some p)
    (mode : t.mode = s.mode) (value : t.getPhys p = w) : t.readReg i = w :=
  (State.readReg_of_some (mode ▸ h)).trans value

theorem flagsAre_setNZCV (p : Psr) (x : Alu) : FlagsAre (p.setNZCV x) x.result x.c x.v :=
  ⟨rfl, rfl, rfl, rfl⟩

section
variable {sBit : Bool} {rd : RegNum} {x : Alu} {s : State}

/-- A result that does not go to the pc is written to its register, with S = 1 the flags too, and the pc advances. -/
theorem finishResult_register (hd : rd ≠ .r15) : finishResult sBit rd x s
    = advance 4 (if sBit then (s.writeReg rd x.result).setCpsr (s.cpsr.setNZCV x) else s.writeReg rd x.result) :=
  if_neg hd

theorem finishResult_of_wraps (hd : rd ≠ .r15) (wraps : 2 ^ 32 ≤ s.pc.toNat + 4) :
    finishResult sBit rd x s = .refused .pcWrap := by
  have pc := s.writeReg_pc hd x.result
  rw [finishResult_register hd]
  refine advance_of_wraps (Nat.not_lt.2 ?_)
  cases sBit <;> exact pc.symm ▸ wraps

/-- What a result written to a register changes and leaves unchanged. -/
theorem finishResult_writesRegister (hd : rd ≠ .r15) (fits : s.pc.toNat + 4 < 2 ^ 32) :
    ∃ t, finishResult sBit rd x s = .next t
      ∧ t.readReg rd = x.result ∧ t.pc = s.pc + 4
      ∧ ControlKept s t ∧ OthersKept (s.named rd) s t
      ∧ (sBit = false → FlagsKept s t)
      ∧ (sBit = true → FlagsAre t.cpsr x.result x.c x.v) := by
  obtain ⟨p, hp⟩ := exists_physReg s.mode hd
  have named : s.named rd = [p] := congrArg Option.toList hp
  have kept := othersKept_setPhys_setPc s p x.result (s.pc + 4)
  have written := s.getPhys_setPhys_same p x.result
  rw [finishResult_register hd, State.writeReg_of_some hp, named]
  cases sBit with
  | false =>
    exact ⟨_, advance_of_fits fits, State.readReg_of_mode hp rfl written, rfl, ⟨rfl, rfl, rfl, rfl⟩, kept,
      fun _ => ⟨rfl, rfl, rfl, rfl⟩, nofun⟩
  | true =>
    exact ⟨_, advance_of_fits fits, State.readReg_of_mode hp rfl written, rfl, ⟨rfl, rfl, rfl, rfl⟩,
      kept.setCpsr (s.cpsr.setNZCV x), nofun, fun _ => flagsAre_setNZCV s.cpsr x⟩

/-! ### The compares (R142, R143) -/

theorem finishCompare_of_wraps (wraps : 2 ^ 32 ≤ s.pc.toNat + 4) : finishCompare x s = .refused .pcWrap :=
  advance_of_wraps (Nat.not_lt.2 wraps)

/-- What a compare changes and leaves unchanged. -/
theorem finishCompare_writesFlags (fits : s.pc.toNat + 4 < 2 ^ 32) :
    ∃ t, finishCompare x s = .next t ∧ t.pc = s.pc + 4 ∧ ControlKept s t ∧ OthersKept [] s t
      ∧ FlagsAre t.cpsr x.result x.c x.v :=
  ⟨_, advance_of_fits fits, rfl, ⟨rfl, rfl, rfl, rfl⟩, othersKept_setCpsr_setPc s _ _, flagsAre_setNZCV s.cpsr x⟩

end

/-! ### The result in the pc (R138, R139) -/

section
variable {v : Word} {s : State} {p : Psr}

/-- A branch goes through exactly when its target is aligned for the T in force, whatever way that is said. -/
theorem branchTo_of_aligned_iff {aligned : Prop} (h : pcAligned s.cpsr.t v = true ↔ aligned) :
    (aligned → branchTo v s = .next (s.setPc v))
      ∧ (¬ aligned → branchTo v s = .refused .misalignedBranchTarget) :=
  ⟨fun ok => branchTo_of_aligned (h.2 ok),
    fun bad => branchTo_of_misaligned (Bool.not_eq_true _ ▸ fun ok => bad (h.1 ok))⟩

theorem exceptionReturn_of_noSpsr (h : s.spsr.get s.mode = none) : exceptionReturn v s = .refused .noSpsr := by
  rw [exceptionReturn, h]

theorem exceptionReturn_of_invalidMode (h : s.spsr.get s.mode = some p) (invalid : p.validMode = false) :
    exceptionReturn v s = .next (s.setCpsr p) := by
  simp [exceptionReturn, h, invalid]

/-- With a mode number in the SPSR the return is a branch under the CPSR restored, judged by its T. -/
theorem exceptionReturn_of_validMode {aligned : Prop} (h : s.spsr.get s.mode = some p) (valid : p.validMode = true)
    (ha : pcAligned p.t v = true ↔ aligned) :
    (aligned → exceptionReturn v s = .next ((s.setCpsr p).setPc v))
      ∧ (¬ aligned → exceptionReturn v s = .refused .misalignedBranchTarget) := by
  have branches : exceptionReturn v s = branchTo v (s.setCpsr p) := by simp [exceptionReturn, h, valid]
  rw [branches]
  exact branchTo_of_aligned_iff ha

end

/-! ### The statements -/

/-- Settles O14: the sum and the difference modulo 2^32, and V as signed overflow. -/
theorem arithmeticFlagsAreExact : Obligations.ArithmeticFlagsAreExact := by
  unfold Obligations.ArithmeticFlagsAreExact
  intro a b
  refine ⟨BitVec.toNat_add a b, decide_eq_true_iff, addFlags_v_iff a b, ?_,
    toNat_sub_toNat a b, decide_eq_true_iff, subFlags_v_iff a b, ?_⟩
  · simp [addFlags]
  · simp [subFlags]

/-- Settles O15: both operand forms end in a result written to a register. -/
theorem subWritesItsDestination : Obligations.SubWritesItsDestination := by
  unfold Obligations.SubWritesItsDestination
  intro i c sBit rn rd s b form passed hd
  rw [exec_of_subForm form passed]
  exact ⟨finishResult_writesRegister hd, finishResult_of_wraps hd⟩

/-- Settles O16: both operand forms end in a result written to a register, with the shifter carry and the old V. -/
theorem movWritesItsDestination : Obligations.MovWritesItsDestination := by
  unfold Obligations.MovWritesItsDestination
  intro i c sBit rd s b carry form passed hd
  rw [exec_of_movForm form passed]
  exact ⟨finishResult_writesRegister hd, finishResult_of_wraps hd⟩

/-- Settles O17: without S the result is the target of a branch in ARM state. -/
theorem pcResultWithoutSIsABranch : Obligations.PcResultWithoutSIsABranch := by
  unfold Obligations.PcResultWithoutSIsABranch
  intro i c s v form passed arm
  rw [exec_of_toPcForm form passed]
  exact branchTo_of_aligned_iff (arm ▸ pcAligned_arm v)

/-- Settles O18: with S the SPSR decides, and the branch is judged by the T it restores. -/
theorem pcResultWithSIsTheExceptionReturn : Obligations.PcResultWithSIsTheExceptionReturn := by
  unfold Obligations.PcResultWithSIsTheExceptionReturn
  intro i c s v form passed
  rw [exec_of_toPcForm form passed]
  refine ⟨exceptionReturn_of_noSpsr, fun p saved => ?_⟩
  have arm (valid : p.validMode = true) (ht : p.t = false) :=
    exceptionReturn_of_validMode (v := v) (aligned := v.toNat % 4 = 0) saved valid (by rw [ht, pcAligned_arm])
  have thumb (valid : p.validMode = true) (ht : p.t = true) :=
    exceptionReturn_of_validMode (v := v) (aligned := v.toNat % 2 = 0) saved valid (by rw [ht, pcAligned_thumb])
  exact ⟨fun invalid => ⟨exceptionReturn_of_invalidMode saved invalid, by simp [State.stuck, invalid]⟩,
    fun valid ht => (arm valid ht).2, fun valid ht => (thumb valid ht).2,
    fun valid ht => (arm valid ht).1, fun valid ht => (thumb valid ht).1⟩

/-- Settles O19: CMP writes the flags of a difference, CMN those of a sum. -/
theorem comparesWriteOnlyTheFlags : Obligations.ComparesWriteOnlyTheFlags := by
  unfold Obligations.ComparesWriteOnlyTheFlags
  intro i c rn s b passed
  refine ⟨fun cmp fits => ?_, fun cmn fits => ?_, ?_⟩
  · rw [exec_of_cmpForm cmp passed]
    exact finishCompare_writesFlags fits
  · rw [exec_of_cmnForm cmn passed]
    exact finishCompare_writesFlags fits
  · rintro (cmp | cmn) wraps
    · exact (exec_of_cmpForm cmp passed).trans (finishCompare_of_wraps wraps)
    · exact (exec_of_cmnForm cmn passed).trans (finishCompare_of_wraps wraps)

end Sys2Proof.Machine
end

section
/-! Memory and the saved status registers over every instruction (R68, R158, R203), read off the list of what an
instruction can answer. -/

namespace Sys2Proof.Machine

/-! ### Memory -/

theorem UsedUp.memoryKept {s u : State} (h : UsedUp s u) : MemoryKept s u := by
  cases h <;> exact ⟨fun _ => rfl, rfl⟩

/-- Only the effect of a store reaches memory (R68). -/
theorem Effect.memoryKept {i : Instr} {s u : State} (h : Effect i s u) (hi : i.isStore = false) : MemoryKept s u := by
  cases h with
  | register u rd w hu _ =>
    obtain ⟨mem, stored⟩ := hu.memory
    exact ⟨fun a => by rw [State.writeReg_mem, mem], by rw [State.writeReg_stored, stored]⟩
  | registerAndFlags rd w q _ => exact ⟨fun a => by simp, by simp⟩
  | cpsr | spsr => exact ⟨fun _ => rfl, rfl⟩
  | store a bs store => exact absurd store (by simp [hi])

theorem Ran.memoryKept {i : Instr} {s t : State} (h : Ran i s t) (hi : i.isStore = false) : MemoryKept s t := by
  cases h with
  | entered x link u _ hu => exact hu.memoryKept
  | branched u v hu _ => exact hu.memoryKept hi
  | advanced u hu _ _ => exact hu.memoryKept hi
  | stuck q _ _ _ => exact ⟨fun _ => rfl, rfl⟩

/-! ### The SPSRs -/

theorem UsedUp.spsr {s u : State} (h : UsedUp s u) : u.spsr = s.spsr := by cases h <;> rfl

/-- Every exception enters a mode with an SPSR (R48, R201). -/
theorem SavedPsrs.get_set_entered (y : SavedPsrs) (p : Psr) (x : Exc) : (y.set p x.mode).get x.mode = some p := by
  cases x <;> rfl

/-- Only the effect of an MSR naming the SPSR reaches an SPSR, that of the current mode (R158). -/
theorem Effect.spsr_cases {i : Instr} {s u : State} (h : Effect i s u) :
    u.spsr = s.spsr ∨ i.WritesSpsr ∧ ∃ q, u.spsr = s.spsr.set q s.mode := by
  cases h with
  | register u rd w hu _ => exact .inl ((u.writeReg_spsr rd w).trans hu.spsr)
  | registerAndFlags rd w q _ => exact .inl (s.writeReg_spsr rd w)
  | cpsr => exact .inl rfl
  | spsr q writes => exact .inr ⟨writes, q, rfl⟩
  | store a bs _ =>
    obtain ⟨-, -, -, spsr, -⟩ := State.storeBytes_frame bs s.nextAnswer a
    exact .inl spsr

/-- What an instruction may make of the SPSRs: as they were, the CPSR saved for an exception entered, or the current
mode's written by MSR (R158, R203). -/
theorem Ran.spsr_cases {i : Instr} {s t : State} (h : Ran i s t) :
    (∃ x, EntryFrom x s t ∧ t.spsr = s.spsr.set s.cpsr x.mode)
      ∨ t.spsr = s.spsr ∨ i.WritesSpsr ∧ ∃ q, t.spsr = s.spsr.set q s.mode := by
  cases h with
  | entered x link u _ hu =>
    refine .inl ⟨x, entryFrom_takeException hu x link, ?_⟩
    rw [← hu.spsr, ← hu.cpsr]
    rfl
  | branched u v hu _ => exact .inr hu.spsr_cases
  | advanced u hu _ _ => exact .inr hu.spsr_cases
  | stuck q _ _ _ => exact .inr (.inl rfl)

/-- Settles O60: each of the two ways to write an SPSR writes that of one mode and leaves the others. -/
theorem onlyStoresWriteMemoryAndOnlyMsrSpsrs : Obligations.OnlyStoresWriteMemoryAndOnlyMsrSpsrs := by
  unfold Obligations.OnlyStoresWriteMemoryAndOnlyMsrSpsrs
  intro i s t h
  have ran := ran_of_exec h
  refine ⟨ran.memoryKept, fun m => ?_⟩
  obtain ⟨x, entry, saved⟩ | kept | ⟨writes, q, written⟩ := ran.spsr_cases
  · by_cases hm : m = x.mode
    · subst hm
      exact .inr (.inl ⟨x, entry, rfl, saved ▸ s.spsr.get_set_entered s.cpsr x⟩)
    · exact .inl (saved ▸ s.spsr.get_set_other s.cpsr hm)
  · exact .inl (kept ▸ rfl)
  · by_cases hm : m = s.mode
    · exact .inr (.inr ⟨hm, writes⟩)
    · exact .inl (written ▸ s.spsr.get_set_other q hm)

end Sys2Proof.Machine
end

section
/-! Status register transfer (R155 to R158): what MRS reads, the fields of a status register that MSR writes, and when
a write of the CPSR is refused or leaves the stuck state. -/

namespace Sys2Proof.Machine

/-! ### MRS (R155) -/

section
variable {c : Cond} {r : PsrSel} {rd : RegNum} {s : State} {p : Psr}

theorem exec_mrs_of_pc (passed : condPassed c s.cpsr = true) : exec (.mrs c r .r15) s = .refused .mrsPc :=
  conditional_of_passed passed

theorem exec_mrs_of_none (passed : condPassed c s.cpsr = true) (hd : rd ≠ .r15) (noPsr : s.selectedPsr r = none) :
    exec (.mrs c r rd) s = .refused .noSpsr := by
  refine (conditional_of_passed passed).trans ?_
  rw [if_neg hd, noPsr]

theorem exec_mrs_of_some (passed : condPassed c s.cpsr = true) (hd : rd ≠ .r15) (named : s.selectedPsr r = some p) :
    exec (.mrs c r rd) s = advance 4 (s.countDraw.writeReg rd (p.toWord (Config.freeReserved s.draws))) := by
  refine (conditional_of_passed passed).trans ?_
  rw [if_neg hd, named]

theorem State.selectedPsr_of_named (h : r = .cpsr ∧ p = s.cpsr ∨ r = .spsr ∧ s.spsr.get s.mode = some p) :
    s.selectedPsr r = some p := by
  obtain ⟨rfl, rfl⟩ | ⟨rfl, saved⟩ := h
  · rfl
  · exact saved

/-- What a read of a status register changes and leaves unchanged, whatever word it gives (R155). -/
theorem advance_countDraw_writeReg (hd : rd ≠ .r15) (w : Word) (fits : s.pc.toNat + 4 < 2 ^ 32) :
    ∃ t, advance 4 (s.countDraw.writeReg rd w) = .next t ∧ t.readReg rd = w
      ∧ t.pc = s.pc + 4 ∧ t.cpsr = s.cpsr ∧ t.spsr = s.spsr
      ∧ RegsKept (s.named rd) s t ∧ MemoryKept s t ∧ PlatformKept s t ∧ InputsKept s t := by
  obtain ⟨q, hq⟩ := exists_physReg s.mode hd
  have named : s.named rd = [q] := congrArg Option.toList hq
  have written := s.countDraw.getPhys_setPhys_same q w
  have kept := othersKept_setPhys_setPc s.countDraw q w (s.pc + 4)
  rw [State.writeReg_of_some (s := s.countDraw) hq, named]
  exact ⟨_, advance_of_fits fits, State.readReg_of_mode hq rfl written, rfl, rfl, rfl, kept.regs, kept.memory,
    kept.platform, kept.inputs⟩

end

/-- Settles O30: Rd is written with the twelve bits around the free ones, and the pc advances. -/
theorem mrsReadsTheDefinedBits : Obligations.MrsReadsTheDefinedBits := by
  unfold Obligations.MrsReadsTheDefinedBits
  intro c r rd s passed
  refine ⟨fun hd => hd ▸ exec_mrs_of_pc passed, fun hd hr noSpsr => ?_, fun p hd named => ?_⟩
  · subst hr
    exact exec_mrs_of_none passed hd noSpsr
  · rw [exec_mrs_of_some passed hd (State.selectedPsr_of_named named)]
    refine ⟨fun wraps => advance_of_wraps ?_, fun fits => ?_⟩
    · rw [State.writeReg_pc hd]
      exact Nat.not_lt.2 wraps
    · obtain ⟨u, hu, read, frame⟩ := advance_countDraw_writeReg hd (p.toWord (Config.freeReserved s.draws)) fits
      obtain ⟨n, z, c, v, i, f, t⟩ := p.toWord_bits (Config.freeReserved s.draws)
      refine ⟨u, hu, ?_⟩
      rw [read]
      exact ⟨n, z, c, v, i, f, t, p.toWord_mode _, frame⟩

/-! ### MSR: its operand forms and the fields of a status register (R156 to R158) -/

theorem exec_of_msrForm {i : Instr} {c : Cond} {r : PsrSel} {fmask : BitVec 4} {s : State} {v : Word}
    (h : MsrForm i c r fmask s v) (passed : condPassed c s.cpsr = true) : exec i s = psrWrite r fmask v s := by
  obtain ⟨rot, imm8, rfl, rfl⟩ | ⟨rm, hm, rfl, rfl⟩ := h
  · exact conditional_of_passed passed
  · exact (conditional_of_passed passed).trans (if_neg hm)

section
variable {fmask : BitVec 4} (p q : Psr)

theorem Psr.writeFields_flags_written (h : fmask.getLsbD 3 = true) :
    (p.writeFields fmask q).n = q.n ∧ (p.writeFields fmask q).z = q.z ∧ (p.writeFields fmask q).c = q.c
      ∧ (p.writeFields fmask q).v = q.v := by
  simpa only [h, if_true] using p.writeFields_flags q fmask

theorem Psr.writeFields_flags_kept (h : fmask.getLsbD 3 = false) :
    (p.writeFields fmask q).n = p.n ∧ (p.writeFields fmask q).z = p.z ∧ (p.writeFields fmask q).c = p.c
      ∧ (p.writeFields fmask q).v = p.v := by
  simpa only [h, Bool.false_eq_true, if_false] using p.writeFields_flags q fmask

theorem Psr.writeFields_control_written (h : fmask.getLsbD 0 = true) :
    (p.writeFields fmask q).i = q.i ∧ (p.writeFields fmask q).f = q.f ∧ (p.writeFields fmask q).t = q.t
      ∧ (p.writeFields fmask q).m = q.m := by
  simpa only [h, if_true] using p.writeFields_control q fmask

theorem Psr.writeFields_control_kept (h : fmask.getLsbD 0 = false) :
    (p.writeFields fmask q).i = p.i ∧ (p.writeFields fmask q).f = p.f ∧ (p.writeFields fmask q).t = p.t
      ∧ (p.writeFields fmask q).m = p.m := by
  simpa only [h, Bool.false_eq_true, if_false] using p.writeFields_control q fmask

end

/-! ### MSR to the CPSR (R158) -/

section
variable {fmask : BitVec 4} {s : State} {v : Word}

/-- The mode makes no difference to the flags a CPSR write selects. -/
theorem State.cpsrMask_flags (s : State) (fmask : BitVec 4) : (s.cpsrMask fmask).getLsbD 3 = fmask.getLsbD 3 := by
  unfold State.cpsrMask
  split
  · simp
  · rfl

/-- The control bits are written from a privileged mode alone. -/
theorem State.cpsrMask_control_iff :
    (s.cpsrMask fmask).getLsbD 0 = true ↔ fmask.getLsbD 0 = true ∧ s.mode ≠ .usr := by
  refine ⟨State.cpsrMask_control, fun ⟨selected, priv⟩ => ?_⟩
  rw [State.cpsrMask, if_neg priv]
  exact selected

/-- The CPSR that MSR with field mask `fmask` and operand `v` writes. -/
def State.msrCpsr (s : State) (fmask : BitVec 4) (v : Word) : Psr :=
  s.cpsr.writeFields (s.cpsrMask fmask) (Psr.ofWord v)

/-- What the flags are after a CPSR write, whatever the mode (R158). -/
theorem State.msrCpsr_flags (s : State) (fmask : BitVec 4) (v : Word) :
    (fmask.getLsbD 3 = false → FlagsKept s (s.setCpsr (s.msrCpsr fmask v)))
      ∧ (fmask.getLsbD 3 = true → (s.msrCpsr fmask v).n = v.getLsbD 31 ∧ (s.msrCpsr fmask v).z = v.getLsbD 30
          ∧ (s.msrCpsr fmask v).c = v.getLsbD 29 ∧ (s.msrCpsr fmask v).v = v.getLsbD 28) := by
  rw [← s.cpsrMask_flags fmask]
  exact ⟨s.cpsr.writeFields_flags_kept _, s.cpsr.writeFields_flags_written _⟩

theorem State.msrCpsr_controlKept (h : ¬ (fmask.getLsbD 0 = true ∧ s.mode ≠ .usr)) :
    ControlKept s (s.setCpsr (s.msrCpsr fmask v)) :=
  s.cpsr.writeFields_control_kept _ (Bool.not_eq_true _ ▸ State.cpsrMask_control_iff.not.2 h)

theorem State.msrCpsr_control (h : fmask.getLsbD 0 = true ∧ s.mode ≠ .usr) :
    (s.msrCpsr fmask v).i = v.getLsbD 7 ∧ (s.msrCpsr fmask v).f = v.getLsbD 6 ∧ (s.msrCpsr fmask v).t = v.getLsbD 5
      ∧ (s.msrCpsr fmask v).m = v.extractLsb' 0 5 :=
  s.cpsr.writeFields_control_written _ (State.cpsrMask_control_iff.2 h)

/-- A write that keeps T and leaves a mode number, or leaves the control bits out, completes (R156, R158). -/
theorem writeCpsr_of_advances (t : (s.msrCpsr fmask v).t = s.cpsr.t)
    (valid : fmask.getLsbD 0 = true ∧ s.mode ≠ .usr → (s.msrCpsr fmask v).validMode = true) :
    writeCpsr fmask v s = advance 4 (s.setCpsr (s.msrCpsr fmask v)) := by
  have runs : ¬ ((s.cpsrMask fmask).getLsbD 0 = true ∧ !(s.msrCpsr fmask v).validMode) := by
    rintro ⟨control, invalid⟩
    simp [valid (State.cpsrMask_control_iff.1 control)] at invalid
  exact (if_neg (not_not.2 t)).trans (if_neg runs)

theorem writeCpsr_of_tChange (t : (s.msrCpsr fmask v).t ≠ s.cpsr.t) : writeCpsr fmask v s = .refused .tBitWrite :=
  if_pos t

/-- A write that keeps T and leaves no mode number stops with the pc in place (R46; log 10). -/
theorem writeCpsr_of_invalidMode (control : fmask.getLsbD 0 = true ∧ s.mode ≠ .usr)
    (t : (s.msrCpsr fmask v).t = s.cpsr.t) (invalid : (s.msrCpsr fmask v).validMode = false) :
    writeCpsr fmask v s = .next (s.setCpsr (s.msrCpsr fmask v)) := by
  have stops : (s.cpsrMask fmask).getLsbD 0 = true ∧ !(s.msrCpsr fmask v).validMode :=
    ⟨State.cpsrMask_control_iff.2 control, by simp [invalid]⟩
  exact (if_neg (not_not.2 t)).trans (if_pos stops)

end

/-- Settles O31: the mode and bit 0 of the mask say whether the control bits are written, and only then does the
operand's T refuse the write or its mode number leave the stuck state. -/
theorem msrWritesTheCpsr : Obligations.MsrWritesTheCpsr := by
  unfold Obligations.MsrWritesTheCpsr
  refine ⟨fun c r fmask s passed => conditional_of_passed passed, ?_⟩
  intro i c fmask s v form passed flagsDone control
  rw [show exec i s = writeCpsr fmask v s from exec_of_msrForm form passed]
  have flags := s.msrCpsr_flags fmask v
  have others := othersKept_setCpsr_setPc s (s.msrCpsr fmask v)
  have unselected (h : ¬ control) : writeCpsr fmask v s = advance 4 (s.setCpsr (s.msrCpsr fmask v)) := by
    obtain ⟨-, -, t, -⟩ := State.msrCpsr_controlKept (v := v) h
    exact writeCpsr_of_advances t fun h' => absurd h' h
  have selected (h : control) (ht : v.getLsbD 5 = s.cpsr.t) (hm : (Mode.ofBits (v.extractLsb' 0 5)).isSome = true) :
      writeCpsr fmask v s = advance 4 (s.setCpsr (s.msrCpsr fmask v)) := by
    obtain ⟨-, -, t, m⟩ := State.msrCpsr_control (v := v) h
    exact writeCpsr_of_advances (t.trans ht) fun _ => by rw [Psr.validMode, m, hm]
  refine ⟨fun h fits => ?_, fun h wraps => ?_, fun h ht => ?_, fun h ht hm fits => ?_, fun h ht hm wraps => ?_,
    fun h ht hm => ?_⟩
  · exact ⟨_, (unselected h).trans (advance_of_fits fits), flags, State.msrCpsr_controlKept (v := v) h, rfl, others _⟩
  · exact (unselected h).trans (advance_of_wraps (Nat.not_lt.2 wraps))
  · obtain ⟨-, -, t, -⟩ := State.msrCpsr_control (v := v) h
    exact writeCpsr_of_tChange (t.trans_ne ht)
  · obtain ⟨hi, hf, t, m⟩ := State.msrCpsr_control (v := v) h
    exact ⟨_, (selected h ht hm).trans (advance_of_fits fits), flags, hi, hf, t.trans ht, m, rfl, others _⟩
  · exact (selected h ht hm).trans (advance_of_wraps (Nat.not_lt.2 wraps))
  · obtain ⟨hi, hf, t, m⟩ := State.msrCpsr_control (v := v) h
    have invalid : (s.msrCpsr fmask v).validMode = false := by simp [Psr.validMode, m, hm]
    exact ⟨_, writeCpsr_of_invalidMode h (t.trans ht) invalid, by simp [State.stuck, invalid], flags, hi, hf,
      t.trans ht, m, rfl, others s.pc⟩

/-! ### MSR to the SPSR (R158) -/

section
variable {fmask : BitVec 4} {s : State} {v : Word} {p : Psr}

theorem psrWrite_spsr_of_none (h : s.spsr.get s.mode = none) : psrWrite .spsr fmask v s = .refused .noSpsr := by
  simp [psrWrite, h]

theorem psrWrite_spsr_of_some (h : s.spsr.get s.mode = some p) :
    psrWrite .spsr fmask v s = advance 4 (s.setSpsr s.mode (p.writeFields fmask (Psr.ofWord v))) := by
  simp [psrWrite, h]

/-- A mode whose SPSR can be read is one whose SPSR is written (R48). -/
theorem SavedPsrs.get_set_of_some {y : SavedPsrs} {m : Mode} (h : y.get m = some p) (q : Psr) :
    (y.set q m).get m = some q :=
  SavedPsrs.get_set_same y q (by rintro rfl; cases h) (by rintro rfl; cases h)

end

/-- Settles O32: the current mode's SPSR takes the selected fields of the operand, whatever they are. -/
theorem msrWritesTheSpsr : Obligations.MsrWritesTheSpsr := by
  unfold Obligations.MsrWritesTheSpsr
  intro i c fmask s v form passed
  rw [exec_of_msrForm form passed]
  refine ⟨fun noSpsr => psrWrite_spsr_of_none ?_, fun p saved => ?_⟩
  · obtain usr | sys := noSpsr
    · rw [usr]; rfl
    · rw [sys]; rfl
  · rw [psrWrite_spsr_of_some saved]
    refine ⟨fun wraps => advance_of_wraps (Nat.not_lt.2 wraps), fun fits => ?_⟩
    exact ⟨_, p.writeFields fmask (Psr.ofWord v), advance_of_fits fits, SavedPsrs.get_set_of_some saved _,
      p.writeFields_flags_written _, p.writeFields_flags_kept _, p.writeFields_control_written _,
      p.writeFields_control_kept _, fun m hm => s.spsr.get_set_other _ hm, rfl, rfl, fun _ _ => rfl,
      ⟨fun _ => rfl, rfl⟩, ⟨rfl, rfl, rfl⟩, ⟨rfl, rfl⟩, rfl⟩

end Sys2Proof.Machine
end

section
/-! Loads and stores (R165 to R172): what either form runs, the bytes at its address as a value, where it is refused,
and what it changes and leaves unchanged when it completes or is aborted. -/

namespace Sys2Proof.Machine

/-! ### The value of an access (R67, R68) -/

/-- What a load of width `n` at `a` writes to its register: the value there, zero-extended (R167, R169, R171). -/
def State.loadedValue (s : State) (n : Size) (a : Word) : Word :=
  match n with
  | .byte => (s.readByte a).setWidth 32
  | .half => (s.readHalf a).setWidth 32
  | .word => s.readWord a

/-- The bytes a store of width `n` lays out from its register, lowest address first (R168, R170, R172). -/
def storedBytes (big : Bool) (n : Size) (v : Word) : List Byte :=
  match n with
  | .byte => [slice v 0 8]
  | .half => bytesOfHalf big (slice v 0 16)
  | .word => bytesOfWord big v

/-- An aligned access ends inside the address space. -/
theorem Size.fits_of_aligned {n : Size} {a : Word} (aligned : a.toNat % n.bytes = 0) : a.toNat + n.bytes ≤ 2 ^ 32 := by
  have below := a.isLt
  cases n <;> simp only [Size.bytes] at aligned ⊢ <;> omega

/-- An aligned access does not wrap, so the value loaded is that of the bytes at its address and above. -/
theorem State.loadedValue_of_aligned (s : State) {n : Size} {a : Word} (aligned : a.toNat % n.bytes = 0) :
    s.loadedValue n a = s.valueAt n a.toNat := by
  have fits := Size.fits_of_aligned aligned
  have byte (k : Nat) (hk : k < n.bytes) : s.readByte (a + BitVec.ofNat 32 k) = s.mem.read (a.toNat + k) :=
    s.readByte_add k (by omega)
  cases n with
  | byte => rfl
  | half =>
    have b1 : s.readByte (a + 1) = s.mem.read (a.toNat + 1) := byte 1 (by decide)
    simp only [State.loadedValue, State.valueAt, State.readHalf, b1]
    cases s.bigend <;> rfl
  | word =>
    have b1 : s.readByte (a + 1) = s.mem.read (a.toNat + 1) := byte 1 (by decide)
    have b2 : s.readByte (a + 2) = s.mem.read (a.toNat + 2) := byte 2 (by decide)
    have b3 : s.readByte (a + 3) = s.mem.read (a.toNat + 3) := byte 3 (by decide)
    simp only [State.loadedValue, State.valueAt, State.readWord, b1, b2, b3]
    cases s.bigend <;> rfl

theorem storedBytes_length (big : Bool) (n : Size) (v : Word) : (storedBytes big n v).length = n.bytes := by
  cases n with
  | byte => rfl
  | half => exact bytesOfHalf_length big _
  | word => exact bytesOfWord_length big v

/-- Each byte stored is the byte of the register at its place in the byte order (R68). -/
theorem storedBytes_getD (big : Bool) (n : Size) (v : Word) {k : Nat} (hk : k < n.bytes) :
    (storedBytes big n v).getD k 0 = byteAt big n v k := by
  cases n <;> simp only [Size.bytes] at hk
  case byte =>
    interval_cases k
    cases big <;> rfl
  case half =>
    cases big <;> interval_cases k <;> exact BitVec.extractLsb'_extractLsb'_of_le (by decide)
  case word => cases big <;> interval_cases k <;> rfl

/-! ### What either form runs -/

section
variable {i : Instr} {c : Cond} {n : Size} {rd : RegNum} {s : State} {a : Word}

theorem exec_of_loadForm_pc (h : LoadForm i c n .r15 s a) (passed : condPassed c s.cpsr = true) :
    exec i s = .refused .loadPc := by
  obtain ⟨u, rn, o, rfl, rfl, rfl⟩ | ⟨u, rn, o, rfl, rfl, rfl⟩ | ⟨u, rn, o, p, rfl, rfl, rfl⟩ := h <;>
    exact conditional_of_passed passed

theorem exec_of_storeForm_pc (h : StoreForm i c n .r15 s a) (passed : condPassed c s.cpsr = true) :
    exec i s = .refused .storePc := by
  obtain ⟨u, rn, o, rfl, rfl, rfl⟩ | ⟨u, rn, o, rfl, rfl, rfl⟩ | ⟨u, rn, o, p, rfl, rfl, rfl⟩ := h <;>
    exact conditional_of_passed passed

theorem exec_of_loadForm (h : LoadForm i c n rd s a) (passed : condPassed c s.cpsr = true) (hd : rd ≠ .r15) :
    exec i s = access n .read a s fun t => advance 4 (t.writeReg rd (t.loadedValue n a)) := by
  obtain ⟨u, rn, o, rfl, rfl, rfl⟩ | ⟨u, rn, o, rfl, rfl, rfl⟩ | ⟨u, rn, o, p, rfl, rfl, rfl⟩ := h <;>
    exact (conditional_of_passed passed).trans (if_neg hd)

theorem exec_of_storeForm (h : StoreForm i c n rd s a) (passed : condPassed c s.cpsr = true) (hd : rd ≠ .r15) :
    exec i s = access n .write a s fun t => advance 4 (t.storeBytes a (storedBytes t.bigend n (t.readReg rd))) := by
  obtain ⟨u, rn, o, rfl, rfl, rfl⟩ | ⟨u, rn, o, rfl, rfl, rfl⟩ | ⟨u, rn, o, p, rfl, rfl, rfl⟩ := h <;>
    exact (conditional_of_passed passed).trans (if_neg hd)

/-- Either form is an access of its own kind and width at its address. -/
theorem exec_of_accessForm {k : Access} (h : LoadForm i c n rd s a ∧ k = .read ∨ StoreForm i c n rd s a ∧ k = .write)
    (passed : condPassed c s.cpsr = true) (hd : rd ≠ .r15) : ∃ go, exec i s = access n k a s go := by
  obtain ⟨load, rfl⟩ | ⟨store, rfl⟩ := h
  · exact ⟨_, exec_of_loadForm load passed hd⟩
  · exact ⟨_, exec_of_storeForm store passed hd⟩

end

/-! ### Where an access is refused (R72, R75, R81) -/

section
variable {n : Size} {k : Access} {a : Word} {s : State} {go : State → Result}

theorem access_of_misaligned (misaligned : n.aligned a = false) : access n k a s go = .refused .misalignedAccess := by
  simp [access, misaligned]

theorem access_of_unmapped (aligned : n.aligned a = true) (noAbort : s.abortAnswer = false)
    (unmapped : s.admits a n k = false) : access n k a s go = .refused .unmappedAccess := by
  simp [access, aligned, noAbort, unmapped]

theorem access_of_text (aligned : n.aligned a = true) (noAbort : s.abortAnswer = false)
    (admitted : s.admits a n .write = true) (text : s.isText a n = true) :
    access n .write a s go = .refused .storeToCode := by
  simp [access, aligned, noAbort, admitted, text]

end

/-! ### What a load, a store and an abort change -/

section
variable {s : State}

/-- The end of a load: its register is written, the ABORT answer used up, and the pc advanced. -/
theorem advance_nextAnswer_writeReg {rd : RegNum} (hd : rd ≠ .r15) (w : Word) :
    (2 ^ 32 ≤ s.pc.toNat + 4 → advance 4 (s.nextAnswer.writeReg rd w) = .refused .pcWrap)
    ∧ (s.pc.toNat + 4 < 2 ^ 32 → ∃ t, advance 4 (s.nextAnswer.writeReg rd w) = .next t ∧ t.readReg rd = w
      ∧ t.pc = s.pc + 4 ∧ t.cpsr = s.cpsr ∧ t.spsr = s.spsr ∧ RegsKept (s.named rd) s t
      ∧ MemoryKept s t ∧ PlatformKept s t ∧ t.pins = s.pins ∧ t.aborts = s.aborts.next ∧ t.draws = s.draws) := by
  obtain ⟨p, hp⟩ := exists_physReg s.mode hd
  have named : s.named rd = [p] := congrArg Option.toList hp
  have written := s.nextAnswer.getPhys_setPhys_same p w
  have kept := othersKept_setPhys_setPc s.nextAnswer p w (s.pc + 4)
  rw [State.writeReg_of_some (s := s.nextAnswer) hp, named]
  exact ⟨fun wraps => advance_of_wraps (Nat.not_lt.2 wraps), fun fits =>
    ⟨_, advance_of_fits fits, State.readReg_of_mode hp rfl written, rfl, rfl, rfl, kept.regs, kept.memory,
      kept.platform, rfl, rfl, rfl⟩⟩

/-- The end of a store: its bytes lie in memory and are marked, the ABORT answer is used up, and the pc advanced. -/
theorem advance_nextAnswer_storeBytes {a : Word} {bs : List Byte} (hm : Memory.wf s.mem)
    (inside : a.toNat + bs.length ≤ 2 ^ 32) :
    (2 ^ 32 ≤ s.pc.toNat + 4 → advance 4 (s.nextAnswer.storeBytes a bs) = .refused .pcWrap)
    ∧ (s.pc.toNat + 4 < 2 ^ 32 → ∃ t, advance 4 (s.nextAnswer.storeBytes a bs) = .next t
      ∧ (∀ k, k < bs.length → t.mem.read (a.toNat + k) = bs.getD k 0)
      ∧ (∀ x, x < a.toNat ∨ a.toNat + bs.length ≤ x → t.mem.read x = s.mem.read x)
      ∧ (∀ x, x ∈ t.stored ↔ x ∈ s.stored ∨ a.toNat ≤ x ∧ x < a.toNat + bs.length)
      ∧ t.pc = s.pc + 4 ∧ t.cpsr = s.cpsr ∧ t.spsr = s.spsr ∧ RegsKept [] s t
      ∧ PlatformKept s t ∧ t.pins = s.pins ∧ t.aborts = s.aborts.next ∧ t.draws = s.draws) := by
  obtain ⟨regs, pc, cpsr, spsr, text, windows, bigend, pins, aborts, draws⟩ := State.storeBytes_frame bs s.nextAnswer a
  have read (k : Nat) (hk : k < bs.length) :
      (s.nextAnswer.storeBytes a bs).mem.read (a.toNat + k) = bs.getD k 0 := by
    rw [State.read_storeBytes bs s.nextAnswer a hm inside, if_pos (by omega), Nat.add_sub_cancel_left]
  constructor
  · intro wraps
    exact advance_of_wraps (pc ▸ Nat.not_lt.2 wraps)
  · intro fits
    exact ⟨_, advance_of_fits (pc ▸ fits), read, fun x => State.read_storeBytes_outside (s := s.nextAnswer) hm inside,
      State.mem_stored_storeBytes bs s.nextAnswer a inside, congrArg (· + 4) pc, cpsr, spsr,
      fun p _ => State.getPhys_of_regs regs p, ⟨bigend, windows, text⟩, pins, aborts, draws⟩

/-- The entry of an exception writes what R203 says and nothing else, besides what the step has used up. -/
theorem entered_takeException {u : State} (hu : UsedUp s u) (x : Exc) (link : Word) :
    Entered x link s (takeException x link u) where
  link := State.getPhys_setPhys_same u _ link
  spsr := by cases hu <;> rfl
  flags := by cases hu <;> exact ⟨rfl, rfl, rfl, rfl⟩
  mode := rfl
  thumb := rfl
  irqMask := rfl
  fiqMask := by cases hu <;> rfl
  pc := rfl
  regs p hp := (State.getPhys_setPhys_other u _ p link (List.mem_singleton.not.1 hp)).trans
    (State.getPhys_of_regs hu.regs p)
  memory := hu.memoryKept
  platform := by cases hu <;> exact ⟨rfl, rfl, rfl⟩

end

/-! ### The statements -/

/-- Settles O33: nothing stands against the access, so Rd is written with the value loaded and the pc advances. -/
theorem loadsReadMemoryIntoRd : Obligations.LoadsReadMemoryIntoRd := by
  unfold Obligations.LoadsReadMemoryIntoRd
  intro i c n rd s a form passed hd aligned noAbort admitted
  have value : s.nextAnswer.loadedValue n a = s.valueAt n a.toNat := s.nextAnswer.loadedValue_of_aligned aligned
  rw [exec_of_loadForm form passed hd, access_of_ok ((n.aligned_iff a).2 aligned) noAbort admitted nofun, value]
  exact advance_nextAnswer_writeReg hd (s.valueAt n a.toNat)

/-- Settles O34: nothing stands against the access, so the bytes of Rd are stored and the pc advances. -/
theorem storesWriteRdToMemory : Obligations.StoresWriteRdToMemory := by
  unfold Obligations.StoresWriteRdToMemory
  intro i c n rd s a form hm passed hd aligned noAbort admitted noText
  have length := storedBytes_length s.bigend n (s.readReg rd)
  have inside := length.symm ▸ Size.fits_of_aligned aligned
  have stored := advance_nextAnswer_storeBytes hm inside
  rw [exec_of_storeForm form passed hd,
    access_of_ok ((n.aligned_iff a).2 aligned) noAbort admitted fun _ => noText]
  rw [length] at stored
  refine stored.imp_right fun completes fits => ?_
  obtain ⟨t, ht, read, rest⟩ := completes fits
  exact ⟨t, ht, fun k hk => (read k hk).trans (storedBytes_getD _ _ _ hk), rest⟩

/-- Settles O35: an aligned access that is aborted enters the Data abort before anything else is asked. -/
theorem abortedAccessTakesTheDataAbort : Obligations.AbortedAccessTakesTheDataAbort := by
  unfold Obligations.AbortedAccessTakesTheDataAbort
  intro i c n rd s a form passed hd aligned abort
  obtain ⟨k, go, runs⟩ : ∃ k go, exec i s = access n k a s go := by
    obtain load | store := form
    · exact ⟨_, _, exec_of_loadForm load passed hd⟩
    · exact ⟨_, _, exec_of_storeForm store passed hd⟩
  exact ⟨_, runs.trans (access_of_abort ((n.aligned_iff a).2 aligned) abort),
    entered_takeException .answer .dataAbort _, rfl, rfl, rfl⟩

/-- Settles O36: Rd = R15 is refused by the form, the rest in the order of the access. -/
theorem accessesAreRefusedInOrder : Obligations.AccessesAreRefusedInOrder := by
  unfold Obligations.AccessesAreRefusedInOrder
  intro i c n k rd s a form passed
  have runs (hd : rd ≠ .r15) := exec_of_accessForm form passed hd
  have aligned_of := (n.aligned_iff a).2
  refine ⟨?_, ?_, fun hd misaligned => ?_, fun hd aligned noAbort unmapped => ?_,
    fun hd aligned noAbort admitted hk text => ?_⟩
  · rintro rfl rfl
    obtain ⟨load, -⟩ | ⟨-, hk⟩ := form
    · exact exec_of_loadForm_pc load passed
    · cases hk
  · rintro rfl rfl
    obtain ⟨-, hk⟩ | ⟨store, -⟩ := form
    · cases hk
    · exact exec_of_storeForm_pc store passed
  · obtain ⟨go, h⟩ := runs hd
    exact h.trans (access_of_misaligned (Bool.not_eq_true _ ▸ (n.aligned_iff a).not.2 misaligned))
  · obtain ⟨go, h⟩ := runs hd
    exact h.trans (access_of_unmapped (aligned_of aligned) noAbort unmapped)
  · subst hk
    obtain ⟨go, h⟩ := runs hd
    exact h.trans (access_of_text (aligned_of aligned) noAbort admitted text)

end Sys2Proof.Machine
end

section
/-! SWI and the undefined-instruction space (R180 to R182): which exception each enters and with what link value, and
that the entry is all the step changes. -/

namespace Sys2Proof.Machine

section
variable {c : Cond} {s : State}

theorem exec_swi_of_passed (passed : condPassed c s.cpsr = true) (comment : BitVec 24) :
    exec (.swi c comment) s = .next (takeException .swi (s.pc + 4) s) :=
  conditional_of_passed passed

theorem exec_tSwi (value8 : BitVec 8) (s : State) :
    exec (.tSwi value8) s = .next (takeException .swi (s.pc + 2) s) := rfl

theorem exec_und_of_passed (passed : condPassed c s.cpsr = true) (high : BitVec 20) (low : BitVec 4) :
    exec (.und c high low) s = .next (takeException .undefined (s.pc + 4) s) :=
  conditional_of_passed passed

/-- An instruction that only raises an exception completes, enters it as R203 says, and uses up no input or free
value. -/
theorem entered_of_exec_takeException {i : Instr} {x : Exc} {link : Word}
    (raises : exec i s = .next (takeException x link s)) :
    ∃ t, exec i s = .next t ∧ Entered x link s t ∧ InputsKept s t ∧ t.draws = s.draws :=
  ⟨_, raises, entered_takeException .nothing x link,
    ⟨enterException_pins x link s.cpsr s, enterException_aborts x link s.cpsr s⟩,
    enterException_draws x link s.cpsr s⟩

end

/-- Settles O37: SWI raises its exception in either state, with the address of the next instruction as link value. -/
theorem swiEntersSupervisorMode : Obligations.SwiEntersSupervisorMode := by
  unfold Obligations.SwiEntersSupervisorMode
  constructor
  · intro c comment s passed
    exact entered_of_exec_takeException (exec_swi_of_passed passed comment)
  · intro value8 s
    exact entered_of_exec_takeException (exec_tSwi value8 s)

/-- Settles O38: a word of the undefined-instruction space raises Undefined, whatever its other bits. -/
theorem undefinedSpaceEntersUndefinedMode : Obligations.UndefinedSpaceEntersUndefinedMode := by
  unfold Obligations.UndefinedSpaceEntersUndefinedMode
  intro c high low s passed
  exact entered_of_exec_takeException (exec_und_of_passed passed high low)

end Sys2Proof.Machine
end

section
/-! The control bits I, F, T and M of the CPSR (R42 to R44, R227, R228): every way a step can change them, and that
User mode reaches them only through an exception or BX. -/

namespace Sys2Proof.Machine

section
variable {i : Instr} {s t : State}

/-- The table of R227, exception entry apart: which of the control bits each write of the CPSR may change. -/
theorem CpsrWrite.control_cases {q : Psr} (h : CpsrWrite i s q) :
    (i.isExceptionReturn = true ∧ s.spsr.get s.mode = some q)
      ∨ (i.writesControl = true ∧ s.mode ≠ .usr ∧ q.t = s.cpsr.t)
      ∨ (i.isExchange = true ∧ q.i = s.cpsr.i ∧ q.f = s.cpsr.f ∧ q.m = s.cpsr.m)
      ∨ (q.i = s.cpsr.i ∧ q.f = s.cpsr.f ∧ q.t = s.cpsr.t ∧ q.m = s.cpsr.m) := by
  cases h with
  | saved q hi hq => exact .inl ⟨hi, hq⟩
  | control q hi priv keepsT => exact .inr (.inl ⟨hi, priv, keepsT⟩)
  | exchange b hi => exact .inr (.inr (.inl ⟨hi, rfl, rfl, rfl⟩))
  | flags q => exact .inr (.inr (.inr ⟨rfl, rfl, rfl, rfl⟩))

/-- User mode has no SPSR to restore and no right to the control field, so only BX is left, and it writes T alone
(R228). -/
theorem CpsrWrite.control_of_user {q : Psr} (h : CpsrWrite i s q) (user : s.mode = .usr) :
    q.i = s.cpsr.i ∧ q.f = s.cpsr.f ∧ q.m = s.cpsr.m ∧ (i.isExchange = false → q.t = s.cpsr.t) := by
  obtain ⟨-, saved⟩ | ⟨-, priv, -⟩ | ⟨exchange, keptI, keptF, keptM⟩ | ⟨keptI, keptF, keptT, keptM⟩ := h.control_cases
  · rw [user] at saved
    cases saved
  · exact absurd user priv
  · exact ⟨keptI, keptF, keptM, fun noExchange => absurd exchange (by simp [noExchange])⟩
  · exact ⟨keptI, keptF, keptM, fun _ => keptT⟩

/-- An instruction enters SWI, Undefined or the Data abort, or leaves a CPSR that the table of R227 allows. -/
theorem Ran.trapEntered_or_cpsrWrite (h : Ran i s t) :
    (∃ x, (x = .swi ∨ x = .undefined ∨ x = .dataAbort) ∧ EntryFrom x s t) ∨ CpsrWrite i s t.cpsr := by
  cases h with
  | entered x link u hx hu => exact .inl ⟨x, hx, entryFrom_takeException hu x link⟩
  | branched u v hu _ => exact .inr hu.cpsrWrite
  | advanced u hu _ _ => exact .inr hu.cpsrWrite
  | stuck q hq _ _ => exact .inr hq

end

/-- Settles O56: a step enters an exception, or its instruction writes the CPSR in one of the ways of R227. -/
theorem controlBitsChangeOnlyTheseWays : Obligations.ControlBitsChangeOnlyTheseWays := by
  unfold Obligations.ControlBitsChangeOnlyTheseWays
  intro s t h
  obtain entry | ⟨i, hi, written⟩ := step_cpsr h
  · exact .inl entry
  · exact .inr ⟨i, hi, written.control_cases⟩

/-- Settles O57: what an instruction enters is one of the three exceptions, and what else it may write of the CPSR in
User mode is the flags, or T by BX. -/
theorem userModeCannotWriteTheControlBits : Obligations.UserModeCannotWriteTheControlBits := by
  unfold Obligations.UserModeCannotWriteTheControlBits
  intro i s t user h
  obtain entry | written := (ran_of_exec h).trapEntered_or_cpsrWrite
  · exact .inr entry
  · exact .inl (written.control_of_user user)

end Sys2Proof.Machine
end

section
/-! The entry of an exception and the return from it (R201 to R207, R221, R222). -/

namespace Sys2Proof.Machine

/-! ### Entry -/

/-- FIQ and Reset are the exceptions that set F (R205). -/
theorem Exc.masksFiq_iff (x : Exc) : x.masksFiq = true ↔ x = .fiq ∨ x = .reset := by
  cases x <;> decide

/-- In ARM state a word is decoded at the pc (R70, R90). -/
theorem State.decodeAtPc_of_arm {s : State} (arm : s.cpsr.t = false) : s.decodeAtPc = decodeArm (s.readWord s.pc) :=
  if_neg (by simp [arm])

/-- The SPSR of the mode entered is the CPSR saved (R203). -/
theorem savedPsr_takeException (x : Exc) (link : Word) (s : State) :
    (takeException x link s).spsr.get (takeException x link s).mode = some s.cpsr :=
  (congrArg _ (enterException_mode x link s.cpsr s)).trans (SavedPsrs.get_set_entered s.spsr s.cpsr x)

/-- Number 14 reads the link value after the entry (R203). -/
theorem readLink_takeException (x : Exc) (link : Word) (s : State) : (takeException x link s).readReg .r14 = link := by
  have mode : (takeException x link s).mode = x.mode := enterException_mode x link s.cpsr s
  rw [State.readReg_r14, mode]
  exact State.getPhys_setPhys_same s (linkReg x.mode) link

section
variable {x : Exc} {link : Word} {s t : State}

/-- The mode after an entry is the one of R201. -/
theorem Entered.mode_eq (h : Entered x link s t) : t.mode = x.mode :=
  State.mode_of_ofBits (h.mode ▸ Mode.ofBits_toBits x.mode)

/-- An entry leaves a mode number in the CPSR. -/
theorem Entered.validMode (h : Entered x link s t) : t.cpsr.validMode = true := by
  rw [Psr.validMode, h.mode, Mode.ofBits_toBits]
  rfl

end

/-- Settles O40: the entry writes what R203 lists; F is set by FIQ alone, and by Reset whatever it was. -/
theorem exceptionEntryWritesWhatItSaves : Obligations.ExceptionEntryWritesWhatItSaves := by
  unfold Obligations.ExceptionEntryWritesWhatItSaves
  constructor
  · intro x link s notReset
    have entered := entered_takeException (.nothing : UsedUp s s) x link
    refine ⟨entered, ?_, SavedPsrs.get_set_entered s.spsr s.cpsr x, fun m => SavedPsrs.get_set_other s.spsr s.cpsr⟩
    rw [entered.fiqMask, Bool.or_eq_true, Exc.masksFiq_iff, or_iff_left notReset]
  · intro s
    exact ⟨rfl, rfl, rfl, Bool.or_true s.cpsr.f, rfl, ⟨rfl, rfl, rfl, rfl⟩,
      fun p hp => State.getPhys_setPhys_other s.countDraw _ p _ (List.mem_singleton.not.1 hp),
      fun m => SavedPsrs.get_set_other s.spsr _, fun _ => rfl, rfl⟩

/-- Settles O39: the tables of R201 and R202. -/
theorem exceptionModesAndVectors : Obligations.ExceptionModesAndVectors :=
  ⟨rfl, rfl⟩

/-! ### Return -/

section
variable {x : Exc} {link v : Word} {i : Instr} {c : Cond} {s : State}

/-- Any form of the exception return, run after an entry, restores the CPSR saved and goes to its result, if that is
aligned for the T restored (R139, R206). -/
theorem exec_return_takeException (form : ToPcForm i c true (takeException x link s) v)
    (passed : condPassed c (takeException x link s).cpsr = true) (valid : s.cpsr.validMode = true)
    (aligned : pcAligned s.cpsr.t v = true) :
    exec i (takeException x link s) = .next (((takeException x link s).setCpsr s.cpsr).setPc v) :=
  (exec_of_toPcForm form passed).trans
    ((exceptionReturn_of_validMode (savedPsr_takeException x link s) valid Iff.rfl).1 aligned)

/-- An entry and a return from it change nothing but the pc, and the link register and SPSR of the mode entered
(R222). -/
theorem return_undoes_takeException (form : ToPcForm i .al true (takeException x link s) v)
    (valid : s.cpsr.validMode = true) (aligned : pcAligned s.cpsr.t v = true) :
    ∃ t, exec i (takeException x link s) = .next t ∧ t.pc = v ∧ t.cpsr = s.cpsr
      ∧ RegsKept [linkReg x.mode] s t ∧ (∀ m, m ≠ x.mode → t.spsr.get m = s.spsr.get m)
      ∧ MemoryKept s t ∧ PlatformKept s t ∧ InputsKept s t := by
  have entered := entered_takeException (.nothing : UsedUp s s) x link
  exact ⟨_, exec_return_takeException form rfl valid aligned, rfl, rfl, entered.regs,
    fun m => SavedPsrs.get_set_other s.spsr s.cpsr, entered.memory, entered.platform, rfl, rfl⟩

end

/-- MOVS PC, R14 after an entry: its result is the link value (R221). -/
theorem toPcForm_movsLink (x : Exc) (link : Word) (s : State) :
    ToPcForm (.movReg .al true .r15 .r14) .al true (takeException x link s) link :=
  .inr ⟨_, .inr ⟨.r14, rfl, (readLink_takeException x link s).symm, rfl⟩⟩

/-- After an entry with a link value `imm8` above an address, SUBS PC, R14, #imm8 has that address as its result
(R221). -/
theorem toPcForm_subsLink (x : Exc) (a : Word) (s : State) (imm8 : BitVec 8) :
    ToPcForm (.subImm .al true .r14 .r15 0 imm8) .al true (takeException x (a + immOperand 0 imm8) s) a :=
  .inl ⟨.r14, _, .inl ⟨0, imm8, rfl, rfl⟩, by rw [readLink_takeException, BitVec.add_sub_cancel]⟩

/-- Settles O41: the entry clears T with the old T saved, and the return restores the CPSR saved. -/
theorem handlersStartInArmState : Obligations.HandlersStartInArmState := by
  unfold Obligations.HandlersStartInArmState
  constructor
  · intro x link s _
    refine ⟨rfl, ⟨s.cpsr, SavedPsrs.get_set_entered s.spsr s.cpsr x, rfl⟩, State.decodeAtPc_of_arm rfl, ?_⟩
    intro i c v form passed valid aligned
    exact ⟨_, exec_return_takeException form passed valid aligned, rfl, rfl⟩
  · intro s
    exact ⟨rfl, State.decodeAtPc_of_arm rfl⟩

/-- Settles O52: each return instruction has the address of R204 as its result, the pc or the address after the
instruction that raised the exception, and that is aligned for the operating state. -/
theorem returnInstructionsUndoTheEntry : Obligations.ReturnInstructionsUndoTheEntry := by
  unfold Obligations.ReturnInstructionsUndoTheEntry
  intro s valid aligned
  have after (i : Instr) (state : i.armCond.isSome = !s.cpsr.t) := pcAligned_add_bytes state aligned
  refine ⟨?_, ?_, ?_, ?_, fun arm => ?_, fun thumb => ?_, fun arm => ?_⟩
  · exact return_undoes_takeException (toPcForm_subsLink .fiq s.pc s 4) valid aligned
  · exact return_undoes_takeException (toPcForm_subsLink .irq s.pc s 4) valid aligned
  · exact return_undoes_takeException (toPcForm_subsLink .prefetchAbort s.pc s 4) valid aligned
  · exact return_undoes_takeException (toPcForm_subsLink .dataAbort s.pc s 8) valid aligned
  · exact return_undoes_takeException (toPcForm_movsLink .swi (s.pc + 4) s) valid
      (after (.swi .al 0) (by rw [arm]; rfl))
  · exact return_undoes_takeException (toPcForm_movsLink .swi (s.pc + 2) s) valid (after (.tSwi 0) (by rw [thumb]; rfl))
  · exact return_undoes_takeException (toPcForm_movsLink .undefined (s.pc + 4) s) valid
      (after (.und .al 0 0) (by rw [arm]; rfl))

end Sys2Proof.Machine
end

section
/-! The order of R209 in one step: reset and the interrupts at the boundary, the fetch with its abort and its
refusals, the decoded instruction; and an FIQ taken at the entry of the Data abort (R220). -/

namespace Sys2Proof.Machine

/-! ### The boundary (R209 steps 0 to 3) -/

/-- An entry says nothing of the levels, so passing the boundary before it makes no difference. -/
theorem Entered.of_nextBoundary {x : Exc} {link : Word} {s t : State} (h : Entered x link s.nextBoundary t) :
    Entered x link s t :=
  ⟨h.link, h.spsr, h.flags, h.mode, h.thumb, h.irqMask, h.fiqMask, h.pc, h.regs, h.memory, h.platform⟩

/-- The entry taken at a boundary: nothing is used up but the levels. -/
theorem step_entered_of_boundary {x : Exc} {link : Word} {s : State}
    (taken : boundary s = .taken (takeException x link s.nextBoundary)) :
    ∃ t, step s = .next t ∧ Entered x link s t ∧ t.pins = s.pins.next ∧ t.aborts = s.aborts ∧ t.draws = s.draws :=
  ⟨_, step_of_boundary_taken taken, (entered_takeException .nothing x link).of_nextBoundary, rfl, rfl, rfl⟩

/-- Settles O45: the boundary takes FIQ, or else IRQ, before any fetch. -/
theorem interruptsAreTakenByPriority : Obligations.InterruptsAreTakenByPriority := by
  unfold Obligations.InterruptsAreTakenByPriority
  intro s valid reset
  exact ⟨fun fiq mask => step_entered_of_boundary (boundary_of_fiq valid reset fiq mask),
    fun noFiq irq mask => step_entered_of_boundary (boundary_of_irq valid reset noFiq irq mask)⟩

/-- Settles O47: a boundary asks for neither level, and the levels to come are the same. -/
theorem isyncAndLockHaveNoEffect : Obligations.IsyncAndLockHaveNoEffect := by
  unfold Obligations.IsyncAndLockHaveNoEffect
  intro s p rest isync lock
  exact step_congr (boundary_congr rfl rfl rfl rfl)

/-! ### The fetch (R209 steps 4 and 5) -/

section
variable {s : State}

theorem fetchInstr_of_abort (abort : s.abortAnswer = true) :
    fetchInstr s = .aborted (takeException .prefetchAbort (s.pc + 4) s.nextAnswer) :=
  if_pos abort

theorem fetchInstr_of_unmapped (noAbort : s.abortAnswer = false)
    (unmapped : s.admits s.pc s.fetchSize .fetch = false) : fetchInstr s = .refused .unmappedAccess := by
  simp [fetchInstr, noAbort, unmapped]

theorem fetchInstr_of_stored (noAbort : s.abortAnswer = false) (admitted : s.admits s.pc s.fetchSize .fetch = true)
    (stored : s.isStored s.pc s.fetchSize = true) : fetchInstr s = .refused .storeToCode := by
  simp [fetchInstr, noAbort, admitted, stored]

theorem fetchInstr_of_decoded {i : Instr} (fetches : s.fetches) (decoded : s.decodeAtPc = .ok i) :
    fetchInstr s = .got i s.nextAnswer := by
  simp [fetchInstr, fetches.noAbort, fetches.admitted, fetches.notStored, decoded]

theorem fetchInstr_of_rejected {e : DecodeError} (fetches : s.fetches) (rejected : s.decodeAtPc = .reject e) :
    fetchInstr s = .refused (DecodeError.refusal e) := by
  simp [fetchInstr, fetches.noAbort, fetches.admitted, fetches.notStored, rejected]

/-- The boundary uses up levels, and a fetch asks for none. -/
theorem State.fetches.nextBoundary (h : s.fetches) : s.nextBoundary.fetches :=
  ⟨h.noAbort, h.admitted, h.notStored⟩

end

/-- Some byte of the access has been stored to (R81; log 12). -/
theorem State.isStored_iff (s : State) (a : Word) (n : Size) :
    s.isStored a n = true ↔ ∃ x ∈ s.stored, a.toNat ≤ x ∧ x < a.toNat + n.bytes := by
  simp [State.isStored]

/-- An instruction is two bytes long in Thumb state and four in ARM state (R90). -/
theorem State.fetchSize_bytes (s : State) : s.fetchSize.bytes = if s.cpsr.t then 2 else 4 :=
  apply_ite Size.bytes _ _ _

section
variable {s t : State} (valid : s.cpsr.validMode = true) (quiet : s.quiet)
include valid quiet

/-- At a quiet boundary the fetch decides how the step goes on. -/
theorem step_of_aborted (h : fetchInstr s.nextBoundary = .aborted t) : step s = .next t := by
  simp [step, boundary_of_quiet valid quiet, h]

theorem step_of_refused {r : Refusal} (h : fetchInstr s.nextBoundary = .refused r) : step s = .refused r := by
  simp [step, boundary_of_quiet valid quiet, h]

theorem step_of_got {i : Instr} (h : fetchInstr s.nextBoundary = .got i t) : step s = exec i t := by
  simp [step, boundary_of_quiet valid quiet, h]

end

/-- Settles O48: an abort is tested before anything else of the fetch, and its answer is used up. -/
theorem abortedFetchTakesThePrefetchAbort : Obligations.AbortedFetchTakesThePrefetchAbort := by
  unfold Obligations.AbortedFetchTakesThePrefetchAbort
  intro s valid quiet abort
  exact ⟨_, step_of_aborted valid quiet (fetchInstr_of_abort abort),
    (entered_takeException .answer .prefetchAbort (s.pc + 4)).of_nextBoundary, rfl, rfl, rfl⟩

/-- Settles O49: admission is tested before the marks. -/
theorem fetchesAreRefused : Obligations.FetchesAreRefused := by
  unfold Obligations.FetchesAreRefused
  intro s valid quiet noAbort
  refine ⟨fun unmapped => step_of_refused valid quiet (fetchInstr_of_unmapped noAbort unmapped),
    fun admitted marked => step_of_refused valid quiet (fetchInstr_of_stored noAbort admitted ?_)⟩
  rw [← State.fetchSize_bytes] at marked
  exact (s.isStored_iff s.pc s.fetchSize).2 marked

/-! ### The decoded instruction (R209 steps 6 and 7) -/

/-- What is decoded at an aligned pc are the bytes of memory from the pc on: none of its addresses wraps. -/
theorem State.decodeAtPc_eq_decodeBytes {s : State} (aligned : pcAligned s.cpsr.t s.pc = true) :
    s.decodeAtPc = decodeBytes s.bigend s.cpsr.t [s.mem.read s.pc.toNat, s.mem.read (s.pc.toNat + 1),
      s.mem.read (s.pc.toNat + 2), s.mem.read (s.pc.toNat + 3)] := by
  have inside := s.pc.isLt
  cases ht : s.cpsr.t
  · rw [ht, pcAligned_arm] at aligned
    rw [← s.readByte_add 1 (by omega), ← s.readByte_add 2 (by omega), ← s.readByte_add 3 (by omega)]
    exact State.decodeAtPc_of_arm ht
  · rw [ht, pcAligned_thumb] at aligned
    rw [← s.readByte_add 1 (by omega)]
    exact if_pos ht

/-- Settles O50: at a quiet boundary a fetch that goes through hands exec what the bytes at the pc decode to. -/
theorem stepRunsTheDecodedInstruction : Obligations.StepRunsTheDecodedInstruction := by
  unfold Obligations.StepRunsTheDecodedInstruction
  intro s valid quiet fetches aligned
  have decode : s.nextBoundary.decodeAtPc = _ := State.decodeAtPc_eq_decodeBytes (s := s.nextBoundary) aligned
  exact ⟨fun i hi => step_of_got valid quiet (fetchInstr_of_decoded fetches.nextBoundary (decode.trans hi)),
    fun e he => step_of_refused valid quiet (fetchInstr_of_rejected fetches.nextBoundary (decode.trans he))⟩

/-! ### FIQ at the entry of the Data abort (R220) -/

/-- Settles O51: the Data abort leaves F clear and the levels as they are, so the next boundary takes FIQ, whose
return undoes its entry but for R14_fiq and SPSR_fiq. -/
theorem fiqInterruptsTheDataAbortHandler : Obligations.FiqInterruptsTheDataAbortHandler := by
  unfold Obligations.FiqInterruptsTheDataAbortHandler
  intro i c n rd s a form passed hd aligned abort mask reset fiq
  obtain ⟨t, ht, entered, pins, -, -⟩ := abortedAccessTakesTheDataAbort i c n rd s a form passed hd aligned abort
  have pc : t.pc = 0x10 := entered.pc
  have alignedPc : pcAligned t.cpsr.t t.pc = true := by
    rw [entered.thumb, entered.pc]
    exact pcAligned_vector .dataAbort
  have levels : t.levels = s.levels := by rw [State.levels, State.levels, pins]
  have unmasked : t.cpsr.f = false := by rw [entered.fiqMask, mask]; rfl
  have taken := boundary_of_fiq entered.validMode (levels ▸ reset) (levels ▸ fiq) unmasked
  obtain ⟨v, hv, vpc, vcpsr, regs, spsr, -⟩ := return_undoes_takeException
    (toPcForm_subsLink .fiq t.pc t.nextBoundary 4) entered.validMode alignedPc
  have link : v.getPhys .r14Abt = s.pc + 8 := (regs .r14Abt (by decide)).trans entered.link
  have saved : v.spsr.get .abt = some s.cpsr :=
    (spsr .abt (by decide)).trans (entered.spsr ▸ SavedPsrs.get_set_entered s.spsr s.cpsr .dataAbort)
  refine ⟨t, _, v, ht, pc, entered.mode_eq, step_of_boundary_taken taken, rfl, enterException_mode _ _ _ _, ?_, rfl, hv,
    vpc.trans pc, vcpsr, link, Option.some.inj saved⟩
  rw [pc]
  exact State.getPhys_setPhys_same _ _ _

end Sys2Proof.Machine
end

section
/-! Reset at a boundary (R209, R260, R261): nRESET is tested before everything else, whatever the state. -/

namespace Sys2Proof.Machine

/-- A boundary with nRESET low takes the reset. -/
theorem boundary_of_reset {s : State} (reset : s.levels.nReset = false) :
    boundary s = .taken (takeReset s.nextBoundary) := by
  simp [boundary, reset]

/-- Settles O42: the step is the reset sequence of R261, and passing the boundary before it uses up only the levels. -/
theorem resetStepForcesSupervisorAtZero : Obligations.ResetStepForcesSupervisorAtZero := by
  unfold Obligations.ResetStepForcesSupervisorAtZero
  intro s reset
  have taken : step s = .next (takeReset s.nextBoundary) := step_of_boundary_taken (boundary_of_reset reset)
  obtain ⟨mode, thumb, irqMask, fiqMask, pc, flags, regs, spsr, memory⟩ :=
    exceptionEntryWritesWhatItSaves.2 s.nextBoundary
  obtain ⟨platform, -⟩ := stepsKeepThePlatform s _ taken
  exact ⟨_, taken, pc, mode, irqMask, fiqMask, thumb, flags, regs, spsr, memory, platform, rfl, rfl⟩

end Sys2Proof.Machine
end
